-- ==== Sys2Proof/Word.lean ====
section
/-! DEFINITION. The word types of the block: bytes, 16-bit addresses, the 16-bit command and response words
and the 24-bit micro-words (00_scope.md section 5; R21, R80, R85, R87). -/

namespace Sys2Proof

/-- A u8: a pulse code, a raw byte, a character code, an element of every buffer (R21). -/
abbrev Byte := BitVec 8

/-- A u16: START and END (R15). -/
abbrev Half := BitVec 16

/-- A host command word (R80). -/
abbrev CmdWord := BitVec 16

/-- A response word (R87). -/
abbrev RspWord := BitVec 16

/-- A micro-operation word of UROM (R85). -/
abbrev MicroWord := BitVec 24

end Sys2Proof
end

