-- ==== Sys2Proof/Syntax.lean ====
section
/-! DEFINITION. The instructions: one constructor per row of spec/opcode_table.json, in the table's order.
Host commands (R81), micro-operations (R86, their names begin with `u`), unit operations and the host's POP
(R93). The two rows named DATA are `data` (the host command, R194) and `uData` (the micro-operation, R152). -/

namespace Sys2Proof

/-- One instruction, operands taken out of its word. -/
inductive Instr where
  /-- NOP (R191). -/
  | nop
  /-- NAME c: one character code of the display name (R192). -/
  | name (c : Byte)
  /-- DATA b: one raw byte, load address first (R194). -/
  | data (b : Byte)
  /-- DISCARD (R195). -/
  | discard
  /-- ENCFILE (R197). -/
  | encfile
  /-- FINISH (R199). -/
  | finish
  /-- RDSR k: read control and status register k (R201). -/
  | rdsr (k : Byte)
  /-- RESET (R202). -/
  | reset
  /-- END (R153). -/
  | uEnd
  /-- RAW4 (R147). -/
  | uRaw4
  /-- TONE k (R148). -/
  | uTone (k : Half)
  /-- SYNC base (R150). -/
  | uSync (base : Half)
  /-- HDR (R151). -/
  | uHdr
  /-- DATA, the micro-operation (R152). -/
  | uData
  /-- EOB (R149). -/
  | uEob
  /-- ENCODE_BIT (R100). -/
  | encodeBit (bit : Bool)
  /-- ENCODE_BYTE (R112). -/
  | encodeByte (b : Byte)
  /-- ENCODE_BYTES (R113). -/
  | encodeBytes (bytes : List Byte)
  /-- XORSUM (R115). -/
  | xorsum (bytes : List Byte)
  /-- ENCODE_DATA_BLOCK (R116). -/
  | encodeDataBlock (d : List Byte)
  /-- STEM (R126). -/
  | stem (dispName : List Byte)
  /-- TRUNC16 (R127). -/
  | trunc16 (codes : List Byte)
  /-- UPCASE (R128). -/
  | upcase (codes : List Byte)
  /-- REMAP (R129). -/
  | remap (codes : List Byte)
  /-- PAD16 (R130). -/
  | pad16 (codes : List Byte)
  /-- MAKE_LABEL (R131). -/
  | makeLabel (codes : List Byte)
  /-- MAKE_HEADER(t, s, e, lab) (R135). -/
  | makeHeader (t : Byte) (startAddr endAddr : Half) (lab : List Byte)
  /-- ENCODE_FILE(name, raw) (R165). -/
  | encodeFile (dispName raw : List Byte)
  /-- ENCODE_EOT() (R170). -/
  | encodeEot
  /-- ENCODE_TAPE of a list of files, each a display name and its raw bytes (R172). -/
  | encodeTape (files : List (List Byte × List Byte))
  /-- WRITE_CONTAINER(payload) (R180). -/
  | writeContainer (payload : List Byte)
  /-- POP, the host's action on the output port (R203). -/
  | pop
  deriving DecidableEq, Repr

end Sys2Proof
end

