-- ==== Sys2Proof/WellFormed.lean ====
section
/-! DEFINITION. Which operands the spec gives an instruction. An ill-formed term still has a meaning in the
machine (assumptions 8, 11, 20); only a well-formed one is promised to survive encoding and decoding. -/

namespace Sys2Proof

/-- The operand ranges of R86 (TONE: 1..0xFFFF; SYNC: 0x0080 or 0x0000), R130 (PAD16: at most 16 codes) and
R180 (WRITE_CONTAINER: at most 2^32 − 1 bytes). Every other operand is any value of its type. -/
def Instr.wf : Instr → Bool
  | .uTone k => k != 0
  | .uSync base => base == 0x0080 || base == 0x0000
  | .pad16 codes => codes.length ≤ 16
  | .writeContainer payload => payload.length < 2 ^ 32
  | .nop | .name _ | .data _ | .discard | .encfile | .finish | .rdsr _ | .reset => true
  | .uEnd | .uRaw4 | .uHdr | .uData | .uEob => true
  | .encodeBit _ | .encodeByte _ | .encodeBytes _ | .xorsum _ | .encodeDataBlock _ => true
  | .stem _ | .trunc16 _ | .upcase _ | .remap _ | .makeLabel _ | .makeHeader _ _ _ _ => true
  | .encodeFile _ _ | .encodeEot | .encodeTape _ | .pop => true

end Sys2Proof
end

