-- ==== Sys2Proof/Decode.lean ====
section
/-! DEFINITION. The decoder of host command words (R80, R81, R83) and of micro-words (R85, R86), total and
rejecting by name; then the encoder written from the same tables. Unit operations and POP have no word (R93). -/

namespace Sys2Proof

/-- Why a word is no instruction. -/
inductive Reject where
  /-- Command opcode 0x08..0xFF (R83 a). -/
  | reservedOpcode
  /-- A non-zero imm8 on NOP, DISCARD, ENCFILE, FINISH or RESET (R83 b). -/
  | reservedImmediate
  /-- Micro-operation code 0x7..0xF (R86). -/
  | reservedMicroOp
  /-- Bits [19:16] of a micro-word not zero (R85). -/
  | nonzeroField
  /-- A non-zero argument on a micro-operation whose argument is 0 (R86). -/
  | nonzeroArgument
  deriving DecidableEq, Repr

/-- A command that takes no immediate: imm8 must be 0x00 (R80). -/
def bareCommand (imm : Byte) (i : Instr) : Except Reject Instr :=
  if imm = 0 then .ok i else .error .reservedImmediate

/-- A host command word: opcode [15:8], imm8 [7:0] (R80, R81; R82: imm8 is taken as it is). -/
def decodeCmd (w : CmdWord) : Except Reject Instr :=
  let imm : Byte := w.extractLsb' 0 8
  match (w.extractLsb' 8 8).toNat with
  | 0x00 => bareCommand imm .nop
  | 0x01 => .ok (.name imm)
  | 0x02 => .ok (.data imm)
  | 0x03 => bareCommand imm .discard
  | 0x04 => bareCommand imm .encfile
  | 0x05 => bareCommand imm .finish
  | 0x06 => .ok (.rdsr imm)
  | 0x07 => bareCommand imm .reset
  | _ => .error .reservedOpcode

/-- A micro-operation without an argument: arg must be 0 (R86). -/
def bareMicro (arg : Half) (i : Instr) : Except Reject Instr :=
  if arg = 0 then .ok i else .error .nonzeroArgument

/-- A micro-word: uop [23:20], zero [19:16], arg [15:0] (R85, R86). -/
def decodeMicro (w : MicroWord) : Except Reject Instr :=
  let arg : Half := w.extractLsb' 0 16
  if w.extractLsb' 16 4 = 0 then
    match (w.extractLsb' 20 4).toNat with
    | 0x0 => bareMicro arg .uEnd
    | 0x1 => bareMicro arg .uRaw4
    | 0x2 => .ok (.uTone arg)
    | 0x3 => .ok (.uSync arg)
    | 0x4 => bareMicro arg .uHdr
    | 0x5 => bareMicro arg .uData
    | 0x6 => bareMicro arg .uEob
    | _ => .error .reservedMicroOp
  else .error .nonzeroField

/-- The instruction the sequencer executes for a micro-word; a word that is none is treated as END (I8;
assumption 10). -/
def microOf (w : MicroWord) : Instr :=
  match decodeMicro w with
  | .ok i => i
  | .error _ => .uEnd

/-- The decoder on the table's bit numbering. A command word and a micro-word are single units without a byte
order (R44), so bit n of the number is bit n of the word; no other width carries an instruction. -/
def decodeTableWord (nbits w : Nat) : Option Instr :=
  if nbits = 16 then
    if w < 2 ^ 16 then (decodeCmd (BitVec.ofNat 16 w)).toOption else none
  else if nbits = 24 then
    if w < 2 ^ 24 then (decodeMicro (BitVec.ofNat 24 w)).toOption else none
  else none

/-- opcode·256 + imm8 (R80, R90). -/
def cmdWord (opcode imm : Byte) : CmdWord := opcode ++ imm

/-- uop·2^20 + arg (R85, R92). -/
def microWord (uop : BitVec 4) (arg : Half) : MicroWord := uop ++ (0 : BitVec 4) ++ arg

/-- The word of an instruction with its width; none for an operation that has no encoding (R93). -/
def encode : Instr → Option (Nat × Nat)
  | .nop => some (16, (cmdWord 0x00 0).toNat)
  | .name c => some (16, (cmdWord 0x01 c).toNat)
  | .data b => some (16, (cmdWord 0x02 b).toNat)
  | .discard => some (16, (cmdWord 0x03 0).toNat)
  | .encfile => some (16, (cmdWord 0x04 0).toNat)
  | .finish => some (16, (cmdWord 0x05 0).toNat)
  | .rdsr k => some (16, (cmdWord 0x06 k).toNat)
  | .reset => some (16, (cmdWord 0x07 0).toNat)
  | .uEnd => some (24, (microWord 0x0 0).toNat)
  | .uRaw4 => some (24, (microWord 0x1 0).toNat)
  | .uTone k => some (24, (microWord 0x2 k).toNat)
  | .uSync base => some (24, (microWord 0x3 base).toNat)
  | .uHdr => some (24, (microWord 0x4 0).toNat)
  | .uData => some (24, (microWord 0x5 0).toNat)
  | .uEob => some (24, (microWord 0x6 0).toNat)
  | .encodeBit _ | .encodeByte _ | .encodeBytes _ | .xorsum _ | .encodeDataBlock _ => none
  | .stem _ | .trunc16 _ | .upcase _ | .remap _ | .pad16 _ | .makeLabel _ => none
  | .makeHeader _ _ _ _ | .encodeFile _ _ | .encodeEot | .encodeTape _ | .writeContainer _ | .pop => none

end Sys2Proof
end

