-- ==== Sys2Proof/Config.lean ====
section
/-! DEFINITION. What is fixed for the life of a block (R11) and open in the spec: the capacities IMG_MAX and
PAY_MAX (00_scope.md section 4, R3, D5), and the free values, which have no body: nothing can be proved
about the value of one. -/

namespace Sys2Proof

/-- The two open capacities of 00_scope.md section 4 (assumption 12). -/
structure Config where
  /-- IMG_MAX, the capacity of IMG in bytes. -/
  imgMax : Nat
  /-- PAY_MAX, the capacity of PAY in bytes. -/
  payMax : Nat
  deriving DecidableEq, Repr

/-- The default parameters of 00_scope.md section 4. -/
def Config.standard : Config where
  imgMax := 65538
  payMax := 2 ^ 32 - 1

/-- The constraints of 00_scope.md section 4: 2 ≤ IMG_MAX ≤ 2^32 − 1 and 9108 ≤ PAY_MAX ≤ 2^32 − 1. -/
abbrev Config.wf (c : Config) : Prop :=
  2 ≤ c.imgMax ∧ c.imgMax ≤ 2 ^ 32 - 1 ∧ 9108 ≤ c.payMax ∧ c.payMax ≤ 2 ^ 32 - 1

/-- FREE VALUE (assumption 7): where BYTEENC's half-select (R119) stands after the frame of a byte. -/
opaque Config.halfAfterFrame : Byte → Bool

/-- FREE VALUE (assumption 8): what SYNCV holds at its i-th byte (i = 9: at the end) when base[7:0] + 9 is
beyond eight bits, which R150 gives no value for. -/
opaque Config.syncFree : Byte → Nat → Byte

/-- FREE VALUE (assumption 9): UPC after a micro-operation other than END at address 31 (R22: "no
wrap-around"). -/
opaque Config.upcAfterLast : BitVec 5

/-- FREE VALUE (assumption 11): PAD16 of more than 16 codes, for which R130 states nothing. -/
opaque Config.padLong : List Byte → List Byte

end Sys2Proof
end

