-- ==== Sys2Proof/Machine/State.lean ====
section
/-! DEFINITION. The state as plain data: every register, flag, buffer and queue the spec names, the ports, the
block's parameters, and the model's own record of the host (INVENTORY.md, State). -/

namespace Sys2Proof.Machine

open Sys2Proof

/-- MODE (R19). -/
inductive Mode where
  /-- OPEN (0): before a successful FINISH. -/
  | isOpen
  /-- SEALED (1): after it. -/
  | isSealed
  deriving DecidableEq, Repr

/-- What the host does at the ports in one step (R204; one handshake a step, D1; assumption 2). -/
inductive PortEvent where
  /-- No signal is asserted. -/
  | idle
  /-- `rst` is asserted. -/
  | rst
  /-- `cmd_valid` with `cmd_word` = w. -/
  | offer (w : CmdWord)
  /-- `rsp_ready`. -/
  | takeResponse
  /-- `out_ready`. -/
  | takeByte
  deriving DecidableEq, Repr

/-- The host's side of the ports: the model's own record, no part of the block (assumptions 2, 3). -/
structure HostSide where
  /-- What the host will do, in order. -/
  events : List PortEvent
  /-- The response words the host has taken, oldest first. -/
  responses : List RspWord
  /-- The bytes the host has popped with their `out_last`, oldest first. -/
  received : List (Byte × Bool)
  deriving DecidableEq, Repr

/-- What one step is about: a reset, one micro-operation, one command, or one port event. -/
inductive Agenda where
  | reset
  | micro (w : MicroWord)
  | command (w : CmdWord)
  | port (e : PortEvent)
  deriving DecidableEq, Repr

/-- A byte buffer (NAME, IMG, CB, PAY): a small address space of its own (R40), as (offset, byte) cells. -/
abbrev Memory := List Host.Cell

/-- What an unlisted byte of a buffer reads as (assumption 5: the spec leaves it unspecified, R30; I9 allows
zero). -/
def Memory.unlisted : Byte := 0

/-- The canonical form: offsets strictly rising, no entry equal to what an unlisted one reads as. -/
abbrev Memory.wf (m : Memory) : Prop :=
  m.Pairwise (fun c d => c.1 < d.1) ∧ ∀ c ∈ m, c.2 ≠ Memory.unlisted

/-- The machine. -/
structure State where
  /-- IMG_MAX and PAY_MAX (R11). -/
  cfg : Config
  /-- MODE (R19). -/
  mode : Mode
  /-- NAME[0..15] (R12). -/
  name : Memory
  /-- NAMELEN, 0..16 (R12). -/
  nameLen : Nat
  /-- DOTSEEN (R12). -/
  dotSeen : Bool
  /-- NOVER (R12). -/
  nover : Bool
  /-- IMG[0..IMG_MAX−1] (R13). -/
  img : Memory
  /-- IMGLEN, 0..IMG_MAX (R13). -/
  imgLen : Nat
  /-- IMGOVF (R13). -/
  imgOvf : Bool
  /-- CB[0..191] (R14). -/
  cb : Memory
  /-- START (R15). -/
  startAddr : Half
  /-- END (R15). -/
  endAddr : Half
  /-- TYPE (R15). -/
  blockType : Byte
  /-- PAY[0..PAY_MAX−1] (R16). -/
  pay : Memory
  /-- PAYLEN, 0..PAY_MAX (R16). -/
  payLen : Nat
  /-- OUT, head first (R18). -/
  out : List Byte
  /-- WLABEL, sticky (R26). -/
  wLabel : Bool
  /-- ERRSEEN, sticky (R26). -/
  errSeen : Bool
  /-- LASTRSP (R27). -/
  lastRsp : Byte
  /-- CUR (R20). -/
  cur : Byte
  /-- BIX (R20). -/
  bix : BitVec 4
  /-- PAR (R20, R23). -/
  par : Bool
  /-- BYTEENC's half-select (R119). -/
  half : Bool
  /-- CHK (R20, R24). -/
  chk : Byte
  /-- CNT (R20). -/
  cnt : BitVec 32
  /-- SYNCV (R20). -/
  syncV : Byte
  /-- UPC (R22). -/
  upc : BitVec 5
  /-- The word `w` the sequencer has fetched from UROM (R145); none: the sequencer is idle (assumption 16). -/
  uw : Option MicroWord
  /-- The container header bytes being prepared (R28, R184). -/
  frameHdr : List Byte
  /-- The accepted command being executed (R204). -/
  cmd : Option CmdWord
  /-- The response waiting to be taken (R204). -/
  rsp : Option RspWord
  /-- Where a unit operation run on its own leaves its result (the model's own field, assumption 4). -/
  unitOut : List Byte
  /-- The host's side (the model's own field, assumptions 2, 3). -/
  host : HostSide
  deriving DecidableEq, Repr

/-- Why the machine stops. Each is safe: the spec gives no effect to an access outside a buffer, and no run
from reset reaches one (R17, R29; assumptions 14, 16). -/
inductive Fault where
  /-- Raised by NAME and ENCFILE: an access to NAME at offset 16 or beyond, which does not exist (R12, R40).
  Safe. -/
  | nameOutside
  /-- Raised by DATA, ENCFILE and the DATA micro-operation: an access to IMG at IMG_MAX or beyond, which does
  not exist (R13, R40). Safe. -/
  | imgOutside
  /-- Raised by every operation that emits: a write to PAY at PAY_MAX or beyond, which does not exist (R16,
  R17, R40). Safe. -/
  | payOutside
  /-- Raised by ENCFILE and FINISH: no END within the 32 words of UROM (R145); UROM holds two, so nothing
  reaches this. Safe. -/
  | sequencerStuck
  deriving DecidableEq, Repr

/-- What the model gives no meaning. -/
inductive Refusal where
  /-- Raised by an arm of exec whose instruction has no meaning yet; none does. Safe. -/
  | notModelled (mnemonic : String)
  deriving DecidableEq, Repr

/-- One step's outcome. -/
abbrev Result := Host.Outcome State Fault Refusal

/-- The machine right after reset (R30, R250, R251), with the default parameters of 00_scope.md section 4. The
values R30 leaves unspecified are zero (assumptions 5, 6). -/
def State.reset : State where
  cfg := Config.standard
  mode := .isOpen
  name := []
  nameLen := 0
  dotSeen := false
  nover := false
  img := []
  imgLen := 0
  imgOvf := false
  cb := []
  startAddr := 0
  endAddr := 0
  blockType := 0
  pay := []
  payLen := 0
  out := []
  wLabel := false
  errSeen := false
  lastRsp := 0
  cur := 0
  bix := 0
  par := false
  half := false
  chk := 0
  cnt := 0
  syncV := 0
  upc := 0
  uw := none
  frameHdr := []
  cmd := none
  rsp := none
  unitOut := []
  host := { events := [], responses := [], received := [] }

end Sys2Proof.Machine
end

