-- ==== Sys2Proof/Machine/Constants.lean ====
section
/-! DEFINITION. The constants the spec fixes (00_scope.md section 4, R11), the response codes (R88) and the
micro-ROM (R160). -/

namespace Sys2Proof.Machine

open Sys2Proof

/-- P_SHORT (R60). -/
def pShort : Byte := 0x30

/-- P_MEDIUM (R60). -/
def pMedium : Byte := 0x42

/-- P_LONG (R60). -/
def pLong : Byte := 0x56

/-- The byte marker (R111). -/
def byteMarker : List Byte := [pLong, pMedium]

/-- The end-of-block marker (R65). -/
def eobMarker : List Byte := [pLong, pShort]

/-- REC_MARK, the recording marker (R67). -/
def recMark : List Byte := [0x00, 0x14, 0x00, 0x05]

/-- LEADER1_LEN, LEADER2_LEN, GAP_A_LEN, GAP_B_LEN and TRAILER_LEN (R66). -/
def leader1Len : Half := 0x6A00
def leader2Len : Half := 0x1500
def gapALen : Half := 0x4F
def gapBLen : Half := 0x4E
def trailerLen : Half := 0x388

/-- SYNC_PRIMARY_BASE and SYNC_REPEAT_BASE (R64). -/
def primaryBase : Half := 0x0080
def repeatBase : Half := 0x0000

/-- CB_LEN, LABEL_LEN and CB_PAD_LEN (R70). -/
def cbLen : Nat := 192
def labelLen : Nat := 16
def cbPadLen : Nat := 170

/-- TYPE_PROGRAM and TYPE_EOT (R125). -/
def typeProgram : Byte := 3
def typeEot : Byte := 5

/-- The space character, the '.' and the distance from lower to upper case (R126, R128, R130; G1). -/
def space : Byte := 0x20
def dot : Byte := 0x2E

/-- SIGNATURE, "C64-TAPE-RAW" in ASCII (R78, R180). -/
def signature : List Byte :=
  [0x43, 0x36, 0x34, 0x2D, 0x54, 0x41, 0x50, 0x45, 0x2D, 0x52, 0x41, 0x57]

/-- VERSION, the container version byte and the CSR of that name (R78, R25). -/
def version : Byte := 0x01

/-- The response codes of R88. -/
def codeOk : Byte := 0x00
def eMalformed : Byte := 0x01
def eIllegal : Byte := 0x02
def eSequence : Byte := 0x03
def eCapacity : Byte := 0x04

/-- The bytes one file region adds to PAY: 42068 + 40·(n + 1) for n program bytes (R166, R197). -/
def fileRegionLen (n : Nat) : Nat := 42068 + 40 * (n + 1)

/-- The bytes the end-of-tape region adds to PAY (R170, R199). -/
def eotRegionLen : Nat := 9108

/-- FILEPROG, UROM addresses 0..20 (R160). -/
def fileProg : List MicroWord :=
  [0x100000, 0x206A00, 0x300080, 0x400000, 0x600000, 0x20004F, 0x300000, 0x400000, 0x600000, 0x20004E,
   0x100000, 0x201500, 0x300080, 0x500000, 0x600000, 0x20004F, 0x300000, 0x500000, 0x600000, 0x200388,
   0x000000]

/-- EOTPROG, UROM addresses 21..31 (R160). -/
def eotProg : List MicroWord :=
  [0x300080, 0x400000, 0x600000, 0x20004F, 0x300000, 0x400000, 0x600000, 0x600000, 0x20004F, 0x200388,
   0x000000]

/-- UROM, the 32-word micro-ROM (R160); read-only (R40), so it is no field of State. -/
def urom : List MicroWord := fileProg ++ eotProg

/-- The word at a UROM address. -/
def uromAt (a : BitVec 5) : MicroWord := urom.getD a.toNat 0

/-- The entry of FILEPROG and of EOTPROG (R22). -/
def fileEntry : BitVec 5 := 0
def eotEntry : BitVec 5 := 21

end Sys2Proof.Machine
end

