-- ==== Sys2Proof/Machine/Ops.lean ====
section
/-! DEFINITION. The named operations over buffers, registers and ports: reading and writing a buffer (R41),
completing a command and taking an exception (R190, R226), clearing staging (R196), reset (R250). -/

namespace Sys2Proof.Machine

open Sys2Proof

/-! ### Buffers (R40, R41) -/

/-- MemRead(SPACE:a, 1): one byte. -/
def Memory.read : Memory → Nat → Byte
  | [], _ => Memory.unlisted
  | (b, v) :: rest, a => if b = a then v else Memory.read rest a

/-- The cells of a run of bytes that starts at offset a, without those an unlisted offset already reads as. -/
def Memory.cells : Nat → List Byte → Memory
  | _, [] => []
  | a, v :: rest => if v = Memory.unlisted then Memory.cells (a + 1) rest else (a, v) :: Memory.cells (a + 1) rest

/-- MemWrite of the bytes vs at consecutive offsets from a on, one byte each (R41). -/
def Memory.store (m : Memory) (a : Nat) (vs : List Byte) : Memory :=
  m.filter (fun c => decide (c.1 < a)) ++ Memory.cells a vs ++ m.filter (fun c => decide (a + vs.length ≤ c.1))

/-- MemRead of the n bytes at consecutive offsets from a on. -/
def Memory.load (m : Memory) (a n : Nat) : List Byte :=
  (List.range n).map (fun i => Memory.read m (a + i))

/-! ### Bit fields and byte order (R42) -/

/-- Byte i of a number, byte 0 the least significant. -/
def byteOf (n i : Nat) : Byte := BitVec.ofNat 8 (n >>> (8 * i))

/-- The two bytes of a u16, low byte first. -/
def le16 (v : Half) : List Byte := [byteOf v.toNat 0, byteOf v.toNat 1]

/-- The four bytes of a u32, least significant first. -/
def le32 (n : Nat) : List Byte := [byteOf n 0, byteOf n 1, byteOf n 2, byteOf n 3]

/-- A one-bit value as a byte, zero-extended (zext_8). -/
def zext8 (b : Bool) : Byte := if b then 1 else 0

/-! ### Outcomes in sequence -/

/-- Go on with `f` after a next state; a fault or refusal ends the instruction. -/
def andThen (r : Result) (f : State → Result) : Result :=
  match r with
  | .next s => f s
  | .fault e => .fault e
  | .refused e => .refused e

/-! ### Completing a command (R190) -/

/-- respond(code, data): the response word is code·256 + data (R87); the command is over. -/
def State.respond (s : State) (code data : Byte) : State :=
  { s with rsp := some (code ++ data), cmd := none }

/-- complete(code, data), the common ending of every command except RDSR (R190). -/
def State.complete (s : State) (code data : Byte) : State :=
  { s with lastRsp := code, errSeen := s.errSeen || code != codeOk, rsp := some (code ++ data), cmd := none }

/-- Taking an exception (R220, R226): the command ends with the code, data 0x00, and nothing else changes.
There is no vector, no handler and nothing to return to (R228): the block is ready for the next command. -/
def State.raise (s : State) (code : Byte) : State := s.complete code 0x00

/-- clear_staging (R196). -/
def State.clearStaging (s : State) : State :=
  { s with nameLen := 0, dotSeen := false, nover := false, imgLen := 0, imgOvf := false }

/-- Every piece of the block's state at its reset value (R30, R250, R252): a command being executed and a
waiting response are abandoned. The parameters are fixed for the life of the block (R11) and the host is
outside it. -/
def State.resetBlock (s : State) : State := { State.reset with cfg := s.cfg, host := s.host }

/-! ### Accesses to the staging buffers -/

/-- NAME[0..NAMELEN−1], the stem received so far (R12). -/
def State.stagedName (s : State) : List Byte := s.name.load 0 s.nameLen

/-- IMG[0..IMGLEN−1], the raw bytes received so far (R13). -/
def State.stagedRaw (s : State) : List Byte := s.img.load 0 s.imgLen

/-- The staged name, handed on; NAME has no offset 16 (assumption 14). -/
def withName (s : State) (k : List Byte → Result) : Result :=
  if s.nameLen ≤ 16 then k s.stagedName else .fault .nameOutside

/-- The staged raw bytes, handed on; IMG has no offset IMG_MAX (assumption 14). -/
def withImage (s : State) (k : List Byte → Result) : Result :=
  if s.imgLen ≤ s.cfg.imgMax then k s.stagedRaw else .fault .imgOutside

/-- PAY[0..PAYLEN−1], the payload so far (R16). -/
def State.payload (s : State) : List Byte := s.pay.load 0 s.payLen

/-! ### Emitting (R17) -/

/-- emit(v): MemWrite(PAY:PAYLEN, 1, v), PAYLEN ← PAYLEN + 1. -/
def emit (v : Byte) (s : State) : Result :=
  if s.payLen < s.cfg.payMax then
    .next { s with pay := s.pay.store s.payLen [v], payLen := s.payLen + 1 }
  else .fault .payOutside

/-- The state after the bytes vs have been appended to PAY. -/
def State.appended (s : State) (vs : List Byte) : State :=
  { s with pay := s.pay.store s.payLen vs, payLen := s.payLen + vs.length }

/-- emit_seq(vs): emit of every element in order, written as one append (emitSeq_cons in Laws/Emit.lean shows
that it is `emit` of the first and then of the rest). -/
def emitSeq (vs : List Byte) (s : State) : Result :=
  match vs with
  | [] => .next s
  | _ :: _ => if s.payLen + vs.length ≤ s.cfg.payMax then .next (s.appended vs) else .fault .payOutside

/-! ### Units -/

/-- A unit operation's result on its output (assumption 4). -/
def State.setUnitOut (s : State) (vs : List Byte) : State := { s with unitOut := vs }

end Sys2Proof.Machine
end

