-- ==== Sys2Proof/Machine/Operands.lean ====
section
/-! DEFINITION. The operand forms: label assembly from a display name (R71, R126 to R131) and address assembly
from the raw bytes (R72). -/

namespace Sys2Proof.Machine

open Sys2Proof

/-- STEM: the part of a display name before its first '.', all of it when there is none (R126). -/
def stem (dispName : List Byte) : List Byte := dispName.takeWhile (· != dot)

/-- TRUNC16: at most the first 16 codes (R127). -/
def trunc16 (codes : List Byte) : List Byte := codes.take labelLen

/-- One code: 0x61..0x7A goes to c − 0x20, every other code stays (R128). -/
def upcaseCode (c : Byte) : Byte := if 0x61 ≤ c ∧ c ≤ 0x7A then c - 0x20 else c

/-- UPCASE, element by element (R128). -/
def upcase (codes : List Byte) : List Byte := codes.map upcaseCode

/-- REMAP, the identity (R129). -/
def remap (codes : List Byte) : List Byte := codes

/-- PAD16: right-padded with spaces to 16 codes (R130); a free value beyond 16, where R130 states nothing
(assumption 11). -/
def pad16 (codes : List Byte) : List Byte :=
  if codes.length ≤ labelLen then codes ++ List.replicate (labelLen - codes.length) space
  else Config.padLong codes

/-- MAKE_LABEL (R131). -/
def makeLabel (codes : List Byte) : List Byte := pad16 (remap (upcase (trunc16 codes)))

/-- The load address: raw[0] + 256·raw[1] (R72, R42 a). -/
def loadAddr (raw : List Byte) : Half := BitVec.ofNat 16 ((raw.getD 0 0).toNat + 256 * (raw.getD 1 0).toNat)

/-- The program bytes: raw without its load address (R72). -/
def programOf (raw : List Byte) : List Byte := raw.drop 2

/-- END = (START + n + 1) mod 2^16 (R15, R72). -/
def endAddrOf (startAddr : Half) (n : Nat) : Half := BitVec.ofNat 16 (startAddr.toNat + n + 1)

end Sys2Proof.Machine
end

