-- ==== Sys2Proof/Machine/Flags.lean ====
section
/-! DEFINITION. The flag and check computations: the parity accumulator (R23), the checksum accumulator (R24,
R115), STATUS bit by bit (R26) and the control and status registers (R25). -/

namespace Sys2Proof.Machine

open Sys2Proof

/-- PAR after the eight data bits of a byte: 1, then xor each bit from bit 0 to bit 7 (R23, R112). -/
def parityBit (b : Byte) : Bool := (List.range 8).foldl (fun p i => p ^^ b.getLsbD i) true

/-- CHK over a byte sequence: 0x00, then xor each byte in order (R24, R115). -/
def xorsum (bytes : List Byte) : Byte := bytes.foldl (fun chk b => chk ^^^ b) 0x00

/-- STATUS: bit 0 SEALED, 1 OUTPEND, 2 WLABEL, 3 ERRSEEN, 4 IMGOVF, 5 DOTSEEN, 6 NOVER, 7 reads 0 (R26). -/
def statusByte (s : State) : Byte :=
  zext8 (s.mode == .isSealed) ||| zext8 (!s.out.isEmpty) <<< 1 ||| zext8 s.wLabel <<< 2
    ||| zext8 s.errSeen <<< 3 ||| zext8 s.imgOvf <<< 4 ||| zext8 s.dotSeen <<< 5 ||| zext8 s.nover <<< 6

/-- CSR[k] (R25); none for the reserved numbers 0x10..0xFF. OUTREM shows bytes 0..3 of len(OUT) (assumption
21). -/
def csr (s : State) (k : Byte) : Option Byte :=
  match k.toNat with
  | 0x00 => some (statusByte s)
  | 0x01 => some s.lastRsp
  | 0x02 => some (byteOf s.nameLen 0)
  | 0x03 => some version
  | 0x04 => some (byteOf s.imgLen 0)
  | 0x05 => some (byteOf s.imgLen 1)
  | 0x06 => some (byteOf s.imgLen 2)
  | 0x07 => some (byteOf s.imgLen 3)
  | 0x08 => some (byteOf s.payLen 0)
  | 0x09 => some (byteOf s.payLen 1)
  | 0x0A => some (byteOf s.payLen 2)
  | 0x0B => some (byteOf s.payLen 3)
  | 0x0C => some (byteOf s.out.length 0)
  | 0x0D => some (byteOf s.out.length 1)
  | 0x0E => some (byteOf s.out.length 2)
  | 0x0F => some (byteOf s.out.length 3)
  | _ => none

end Sys2Proof.Machine
end

