-- ==== Sys2Proof/Machine/BitEncoder.lean ====
section
/-! DEFINITION. Unit U1, the bit encoder (40_bit_encoder.md). -/

namespace Sys2Proof.Machine

open Sys2Proof

/-- ENCODE_BIT: 1 is (MEDIUM, SHORT), 0 is (SHORT, MEDIUM) (R100). -/
def encodeBit (bit : Bool) : List Byte := if bit then [pMedium, pShort] else [pShort, pMedium]

/-- ENCODE_BIT as an instruction: no state but the unit's output (R100). -/
def execEncodeBit (bit : Bool) (s : State) : Result := .next (s.setUnitOut (encodeBit bit))

end Sys2Proof.Machine
end

