-- ==== Sys2Proof/Machine/ByteBlock.lean ====
section
/-! DEFINITION. Unit U2, the byte-block encoder (41_byte_block_encoder.md). -/

namespace Sys2Proof.Machine

open Sys2Proof

/-- ENCODE_BYTE: marker, eight bits from bit 0 on, parity (R112). -/
def encodeByte (b : Byte) : List Byte :=
  byteMarker ++ (List.range 8).flatMap (fun i => encodeBit (b.getLsbD i)) ++ encodeBit (parityBit b)

/-- ENCODE_BYTES: the frames of the bytes in order (R113). -/
def encodeBytes (bytes : List Byte) : List Byte := bytes.flatMap encodeByte

/-- The byte sequence of a data block: the program bytes and their checksum byte (R69, R116). -/
def dataBlock (d : List Byte) : List Byte := d ++ [xorsum d]

/-- ENCODE_DATA_BLOCK (R116). -/
def encodeDataBlock (d : List Byte) : List Byte := encodeBytes (dataBlock d)

/-- The encoder's registers after the frames of the bytes: CUR the last byte, BIX 8, PAR its parity bit
(R112), the half-select a free value (assumption 7); nothing for no byte (R113). -/
def State.framed (s : State) (bytes : List Byte) : State :=
  { s with
    cur := bytes.getLastD s.cur
    bix := if bytes.isEmpty then s.bix else 8
    par := if bytes.isEmpty then s.par else parityBit (bytes.getLastD 0)
    half := if bytes.isEmpty then s.half else Config.halfAfterFrame (bytes.getLastD 0) }

/-- CHK after a checksum computation over the bytes (R24). -/
def State.summed (s : State) (bytes : List Byte) : State := { s with chk := xorsum bytes }

/-- ENCODE_BYTE as an instruction (R112). -/
def execEncodeByte (b : Byte) (s : State) : Result :=
  .next ((s.framed [b]).setUnitOut (encodeByte b))

/-- ENCODE_BYTES as an instruction (R113). -/
def execEncodeBytes (bytes : List Byte) (s : State) : Result :=
  .next ((s.framed bytes).setUnitOut (encodeBytes bytes))

/-- XORSUM as an instruction: CHK and the output hold the sum (R115). -/
def execXorsum (bytes : List Byte) (s : State) : Result :=
  .next ((s.summed bytes).setUnitOut [xorsum bytes])

/-- ENCODE_DATA_BLOCK as an instruction (R116). -/
def execEncodeDataBlock (d : List Byte) (s : State) : Result :=
  .next (((s.summed d).framed (dataBlock d)).setUnitOut (encodeDataBlock d))

end Sys2Proof.Machine
end

