-- ==== Sys2Proof/Machine/ControlBlock.lean ====
section
/-! DEFINITION. Unit U3, the control block builder (42_control_block_builder.md). -/

namespace Sys2Proof.Machine

open Sys2Proof

/-- CB[0..190]: type, start, end, label, 170 spaces (R70, R135). -/
def headerBody (t : Byte) (startAddr endAddr : Half) (lab : List Byte) : List Byte :=
  [t] ++ le16 startAddr ++ le16 endAddr ++ makeLabel lab ++ List.replicate cbPadLen space

/-- MAKE_HEADER: the 191 bytes and their checksum (R135). -/
def makeHeader (t : Byte) (startAddr endAddr : Half) (lab : List Byte) : List Byte :=
  headerBody t startAddr endAddr lab ++ [xorsum (headerBody t startAddr endAddr lab)]

/-- MAKE_HEADER's effect: CB[0..191] and CHK (R135). -/
def State.withHeader (s : State) (t : Byte) (startAddr endAddr : Half) (lab : List Byte) : State :=
  { s with
    cb := s.cb.store 0 (makeHeader t startAddr endAddr lab)
    chk := xorsum (headerBody t startAddr endAddr lab) }

/-- The arguments of the builder in TYPE, START and END (R15). -/
def State.withAddrs (s : State) (t : Byte) (startAddr endAddr : Half) : State :=
  { s with blockType := t, startAddr := startAddr, endAddr := endAddr }

/-- STEM as an instruction (R126). -/
def execStem (dispName : List Byte) (s : State) : Result := .next (s.setUnitOut (stem dispName))

/-- TRUNC16 as an instruction (R127). -/
def execTrunc16 (codes : List Byte) (s : State) : Result := .next (s.setUnitOut (trunc16 codes))

/-- UPCASE as an instruction (R128). -/
def execUpcase (codes : List Byte) (s : State) : Result := .next (s.setUnitOut (upcase codes))

/-- REMAP as an instruction (R129). -/
def execRemap (codes : List Byte) (s : State) : Result := .next (s.setUnitOut (remap codes))

/-- PAD16 as an instruction (R130). -/
def execPad16 (codes : List Byte) (s : State) : Result := .next (s.setUnitOut (pad16 codes))

/-- MAKE_LABEL as an instruction (R131). -/
def execMakeLabel (codes : List Byte) (s : State) : Result := .next (s.setUnitOut (makeLabel codes))

/-- MAKE_HEADER as an instruction (R135). -/
def execMakeHeader (t : Byte) (startAddr endAddr : Half) (lab : List Byte) (s : State) : Result :=
  .next ((s.withHeader t startAddr endAddr lab).setUnitOut (makeHeader t startAddr endAddr lab))

end Sys2Proof.Machine
end

