-- ==== Sys2Proof/Machine/MicroOps.lean ====
section
/-! DEFINITION. Unit U4, the micro-operations (43_tape_assembler.md section 2) and the sequencer that runs
them (section 1). -/

namespace Sys2Proof.Machine

open Sys2Proof

/-- upc ← UPC + 1 (R22); past address 31 a free value (assumption 9). -/
def upcNext (a : BitVec 5) : BitVec 5 := if a = 31 then Config.upcAfterLast else a + 1

/-- The end of every micro-operation except END (R22). -/
def State.nextUop (s : State) : State := { s with upc := upcNext s.upc }

/-- A pulse or byte counter that has run down (R148, R150 to R152). -/
def State.counted (s : State) : State := { s with cnt := 0 }

/-- emit_seq of the frames of the bytes, one after another (R112, R113). -/
def emitFrames (bytes : List Byte) (s : State) : Result :=
  andThen (emitSeq (encodeBytes bytes) s) (fun t => .next (t.framed bytes))

/-- The nine bytes of a sync sequence: base+9 down to base+1 (R64, R150). Where base[7:0] + 9 has no u8 value
they are free values (assumption 8). -/
def syncBytes (base : Half) : List Byte :=
  let b : Byte := base.extractLsb' 0 8
  (List.range 9).map (fun i => if b.toNat + 9 < 256 then b + 9 - BitVec.ofNat 8 i else Config.syncFree b i)

/-- SYNCV after the ninth decrement (R150). -/
def syncLast (base : Half) : Byte :=
  let b : Byte := base.extractLsb' 0 8
  if b.toNat + 9 < 256 then b else Config.syncFree b 9

/-- SYNCV at the end of SYNC (R150). -/
def State.synced (s : State) (base : Half) : State := { s with syncV := syncLast base }

/-- The program bytes IMG[2..IMGLEN−1]; none when IMGLEN ≤ 2 (R152, 00_scope.md section 5, assumption 15). -/
def State.stagedProgram (s : State) : List Byte := s.img.load 2 (s.imgLen - 2)

/-- RAW4: the recording marker as it is (R147). -/
def execURaw4 (s : State) : Result :=
  andThen (emitSeq recMark s) (fun t => .next t.nextUop)

/-- TONE k: k short pulses (R148). -/
def execUTone (k : Half) (s : State) : Result :=
  andThen (emitSeq (List.replicate k.toNat pShort) s) (fun t => .next t.counted.nextUop)

/-- SYNC base: the frames of base+9 down to base+1 (R150). -/
def execUSync (base : Half) (s : State) : Result :=
  andThen (emitFrames (syncBytes base) s) (fun t => .next ((t.synced base).counted.nextUop))

/-- HDR: the frames of CB[0..191] (R151). -/
def execUHdr (s : State) : Result :=
  andThen (emitFrames (s.cb.load 0 cbLen) s) (fun t => .next t.counted.nextUop)

/-- DATA, the micro-operation: the frames of the program bytes and of their checksum (R152). -/
def execUData (s : State) : Result :=
  if s.imgLen ≤ s.cfg.imgMax then
    andThen (emitFrames (dataBlock s.stagedProgram) (s.summed s.stagedProgram))
      (fun t => .next t.counted.nextUop)
  else .fault .imgOutside

/-- EOB: the two raw pulses of the end-of-block marker (R149). -/
def execUEob (s : State) : Result :=
  andThen (emitSeq eobMarker s) (fun t => .next t.nextUop)

/-- END: emits nothing, leaves UPC, stops the sequencer (R153). -/
def execUEnd (s : State) : Result := .next { s with uw := none }

/-- The micro-operation an instruction is; the sequencer treats what is none as END (I8, assumption 10). -/
def microOp (i : Instr) (s : State) : Result :=
  match i with
  | .uRaw4 => execURaw4 s
  | .uTone k => execUTone k s
  | .uSync base => execUSync base s
  | .uHdr => execUHdr s
  | .uData => execUData s
  | .uEob => execUEob s
  | .uEnd => execUEnd s
  | .nop | .name _ | .data _ | .discard | .encfile | .finish | .rdsr _ | .reset => execUEnd s
  | .encodeBit _ | .encodeByte _ | .encodeBytes _ | .xorsum _ | .encodeDataBlock _ => execUEnd s
  | .stem _ | .trunc16 _ | .upcase _ | .remap _ | .pad16 _ | .makeLabel _ => execUEnd s
  | .makeHeader _ _ _ _ | .encodeFile _ _ | .encodeEot | .encodeTape _ | .writeContainer _ | .pop => execUEnd s

/-- w ← UROM[UPC] while the sequencer runs (R145); nothing when it has stopped. -/
def State.refetch (s : State) : State := { s with uw := s.uw.map (fun _ => uromAt s.upc) }

/-- upc ← entry and the first fetch (R22, R145). -/
def State.enterProg (s : State) (entry : BitVec 5) : State := { s with upc := entry, uw := some (uromAt entry) }

/-- One turn of the sequencer's loop: execute the fetched word, fetch the next (R145). -/
def microCycle (w : MicroWord) (s : State) : Result :=
  andThen (microOp (microOf w) s) (fun t => .next t.refetch)

/-- Run the sequencer to END (R145). The fuel is one more than the 32 words of UROM: the programs are
straight-line (R162). -/
def runSequencer : Nat → State → Result
  | 0, _ => .fault .sequencerStuck
  | fuel + 1, s =>
    match s.uw with
    | none => .next s
    | some w => andThen (microCycle w s) (runSequencer fuel)

/-- The fuel of a micro-program (R40: 32 words). -/
def seqFuel : Nat := 33

end Sys2Proof.Machine
end

