-- ==== Sys2Proof/Machine/TapeAssembler.lean ====
section
/-! DEFINITION. Unit U4, the tape assembler's functions ENCODE_FILE, ENCODE_EOT and ENCODE_TAPE
(43_tape_assembler.md sections 4 to 6), written from their own pseudocode and not from the micro-programs. -/

namespace Sys2Proof.Machine

open Sys2Proof

/-- T(k): k short pulses (R165). -/
def tone (k : Half) : List Byte := List.replicate k.toNat pShort

/-- SP: the primary sync sequence (R165). -/
def syncPrimary : List Byte :=
  encodeBytes [0x89, 0x88, 0x87, 0x86, 0x85, 0x84, 0x83, 0x82, 0x81]

/-- The bytes of the repeat sync sequence (R64). -/
def syncRepeatBytes : List Byte := [0x09, 0x08, 0x07, 0x06, 0x05, 0x04, 0x03, 0x02, 0x01]

/-- SR: the repeat sync sequence (R165). -/
def syncRepeat : List Byte := encodeBytes syncRepeatBytes

/-- The control block of a file (R165). -/
def fileHeader (dispName raw : List Byte) : List Byte :=
  makeHeader typeProgram (loadAddr raw) (endAddrOf (loadAddr raw) (programOf raw).length) (stem dispName)

/-- The region of a file from its control block and its program bytes (R73, R165). -/
def fileRegion (header d : List Byte) : List Byte :=
  recMark ++ tone leader1Len
    ++ syncPrimary ++ encodeBytes header ++ eobMarker ++ tone gapALen
    ++ syncRepeat ++ encodeBytes header ++ eobMarker ++ tone gapBLen
    ++ recMark ++ tone leader2Len
    ++ syncPrimary ++ encodeDataBlock d ++ eobMarker ++ tone gapALen
    ++ syncRepeat ++ encodeDataBlock d ++ eobMarker ++ tone trailerLen

/-- ENCODE_FILE; none is MalformedInputError: fewer than two raw bytes (R165, R222). -/
def encodeFile (dispName raw : List Byte) : Option (List Byte) :=
  if raw.length < 2 then none else some (fileRegion (fileHeader dispName raw) (programOf raw))

/-- The control block of the end-of-tape region (R137). -/
def eotHeader : List Byte := makeHeader typeEot 0 0 []

/-- The end-of-tape region from its control block (R74, R170). -/
def eotRegion (header : List Byte) : List Byte :=
  syncPrimary ++ encodeBytes header ++ eobMarker ++ tone gapALen
    ++ syncRepeat ++ encodeBytes header ++ eobMarker
    ++ eobMarker ++ tone gapALen
    ++ tone trailerLen

/-- ENCODE_EOT (R170). -/
def encodeEot : List Byte := eotRegion eotHeader

/-- The regions of the files whose ENCODE_FILE does not raise, in order (R172). -/
def encodeFiles (files : List (List Byte × List Byte)) : List Byte :=
  files.flatMap (fun f => (encodeFile f.1 f.2).getD [])

/-- ENCODE_TAPE (R172). -/
def encodeTape (files : List (List Byte × List Byte)) : List Byte := encodeFiles files ++ encodeEot

/-- What ENCODE_FILE leaves in CB and the working registers: MAKE_HEADER, then the frames in the order of its
pseudocode, the repeat sync sequence last (R165, assumption 20). -/
def State.filed (s : State) (dispName raw : List Byte) : State :=
  ((s.withHeader typeProgram (loadAddr raw) (endAddrOf (loadAddr raw) (programOf raw).length)
    (stem dispName)).summed (programOf raw)).framed syncRepeatBytes

/-- What ENCODE_EOT leaves in CB and the working registers (R170, assumption 20). -/
def State.ended (s : State) : State := (s.withHeader typeEot 0 0 []).framed syncRepeatBytes

/-- What ENCODE_TAPE leaves: that of each file that does not raise, then of ENCODE_EOT (R172). -/
def State.taped (s : State) (files : List (List Byte × List Byte)) : State :=
  (files.foldl (fun t f => if f.2.length < 2 then t else t.filed f.1 f.2) s).ended

/-- ENCODE_FILE as an instruction. MalformedInputError is taken as ENCFILE takes it, its only caller: staging
cleared, E_MALFORMED, no output (R165, R226, assumption 18). -/
def execEncodeFile (dispName raw : List Byte) (s : State) : Result :=
  match encodeFile dispName raw with
  | none => .next ((s.clearStaging.raise eMalformed).setUnitOut [])
  | some region => .next ((s.filed dispName raw).setUnitOut region)

/-- ENCODE_EOT as an instruction (R170). -/
def execEncodeEot (s : State) : Result := .next (s.ended.setUnitOut encodeEot)

/-- ENCODE_TAPE as an instruction (R172, assumption 19). -/
def execEncodeTape (files : List (List Byte × List Byte)) (s : State) : Result :=
  .next ((s.taped files).setUnitOut (encodeTape files))

end Sys2Proof.Machine
end

