-- ==== Sys2Proof/Machine/Container.lean ====
section
/-! DEFINITION. Unit U5, the container framer (44_container_framer.md), and the host's pop of its output
(R203). -/

namespace Sys2Proof.Machine

open Sys2Proof

/-- The 20 header bytes for a payload of n bytes (R78, R180). -/
def containerHeader (n : Nat) : List Byte := signature ++ [version] ++ [0x00, 0x00, 0x00] ++ le32 n

/-- WRITE_CONTAINER (R180). -/
def writeContainer (payload : List Byte) : List Byte := containerHeader payload.length ++ payload

/-- OUT ← WRITE_CONTAINER(payload), through the header generator (R180, R184). -/
def State.contained (s : State) (payload : List Byte) : State :=
  { s with frameHdr := containerHeader payload.length, out := writeContainer payload }

/-- WRITE_CONTAINER as an instruction: its output is placed in OUT (R180). -/
def execWriteContainer (payload : List Byte) (s : State) : Result :=
  .next ((s.contained payload).setUnitOut (writeContainer payload))

/-- A command is executing (R204): one is latched, or the sequencer runs inside one. -/
def State.executing (s : State) : Bool := s.cmd.isSome || s.uw.isSome

/-- `cmd_ready`: no command executing, no response waiting (R204). -/
def State.cmdReady (s : State) : Bool := !s.executing && s.rsp.isNone

/-- `rsp_valid` (R204). -/
def State.rspValid (s : State) : Bool := s.rsp.isSome

/-- `out_valid`: OUT not empty and no command executing (R204). -/
def State.outValid (s : State) : Bool := !s.out.isEmpty && !s.executing

/-- `out_data` while `out_valid` (R204). -/
def State.outData (s : State) : Byte := s.out.headD 0

/-- `out_last` while `out_valid`: one byte is left (R204). -/
def State.outLast (s : State) : Bool := s.out.length == 1

/-- The pop's effect: the head of OUT goes to the host with `out_last` (R203, assumption 3). -/
def State.popped (s : State) : State :=
  { s with
    out := s.out.tail
    host := { s.host with received := s.host.received ++ [(s.outData, s.outLast)] } }

/-- POP (R203): where it is not enabled nothing happens, and it is no error (assumption 24). -/
def execPop (s : State) : Result := if s.outValid then .next s.popped else .next s

end Sys2Proof.Machine
end

