-- ==== Sys2Proof/Machine/HostCommands.lean ====
section
/-! DEFINITION. The host commands (45_host_commands.md sections 2 and 3). -/

namespace Sys2Proof.Machine

open Sys2Proof

/-- NAME, DATA, DISCARD, ENCFILE and FINISH in SEALED mode answer E_SEQUENCE (R190, R227). -/
def whenOpen (s : State) (k : State → Result) : Result :=
  match s.mode with
  | .isSealed => .next (s.raise eSequence)
  | .isOpen => k s

/-- A word that is no command: E_ILLEGAL (R83, R190). -/
def execReserved (s : State) : Result := .next (s.raise eIllegal)

/-- NOP (R191). -/
def execNop (s : State) : Result := .next (s.complete codeOk 0x00)

/-- NAME[NAMELEN] ← c, NAMELEN ← NAMELEN + 1 (R192). -/
def State.nameStored (s : State) (c : Byte) : State :=
  { s with name := s.name.store s.nameLen [c], nameLen := s.nameLen + 1 }

/-- NAME c (R192). -/
def execName (c : Byte) (s : State) : Result :=
  whenOpen s fun s =>
    if s.dotSeen then .next (s.complete codeOk 0x00)
    else if c = dot then .next ({ s with dotSeen := true }.complete codeOk 0x00)
    else if s.nameLen = 16 then .next ({ s with nover := true }.complete codeOk 0x00)
    else if s.nameLen < 16 then .next ((s.nameStored c).complete codeOk 0x00)
    else .fault .nameOutside

/-- IMG[IMGLEN] ← b, IMGLEN ← IMGLEN + 1 (R194). -/
def State.imgStored (s : State) (b : Byte) : State :=
  { s with img := s.img.store s.imgLen [b], imgLen := s.imgLen + 1 }

/-- DATA b (R194). -/
def execData (b : Byte) (s : State) : Result :=
  whenOpen s fun s =>
    if s.imgLen = s.cfg.imgMax then .next ({ s with imgOvf := true }.raise eCapacity)
    else if s.imgLen < s.cfg.imgMax then .next ((s.imgStored b).complete codeOk 0x00)
    else .fault .imgOutside

/-- DISCARD (R195). -/
def execDiscard (s : State) : Result :=
  whenOpen s fun s => .next (s.clearStaging.complete codeOk 0x00)

/-- The end of a successful ENCFILE: WLABEL, staging, the warning bit of the response (R89, R197). -/
def State.fileDone (s : State) : State :=
  { s with wLabel := s.wLabel || s.nover }.clearStaging.complete codeOk (zext8 s.nover)

/-- ENCFILE once its checks have passed (R197). -/
def encodeStaged (s : State) : Result :=
  withImage s fun raw =>
    withName s fun codes =>
      let startAddr := loadAddr raw
      let endAddr := endAddrOf startAddr (programOf raw).length
      andThen
        (runSequencer seqFuel
          (((s.withAddrs typeProgram startAddr endAddr).withHeader typeProgram startAddr endAddr codes).enterProg
            fileEntry))
        (fun t => .next t.fileDone)

/-- ENCFILE (R197). -/
def execEncfile (s : State) : Result :=
  whenOpen s fun s =>
    if s.imgOvf then .next (s.clearStaging.raise eCapacity)
    else if s.imgLen < 2 then .next (s.clearStaging.raise eMalformed)
    else if s.cfg.payMax < s.payLen + fileRegionLen (s.imgLen - 2) then .next (s.clearStaging.raise eCapacity)
    else encodeStaged s

/-- The end of a successful FINISH: the container in OUT, SEALED (R199). -/
def State.tapeDone (s : State) : State :=
  { s.contained s.payload with mode := .isSealed }.complete codeOk 0x00

/-- FINISH (R199). -/
def execFinish (s : State) : Result :=
  whenOpen s fun s =>
    if s.cfg.payMax < s.payLen + eotRegionLen then .next (s.raise eCapacity)
    else
      andThen
        (runSequencer seqFuel
          (((s.clearStaging.withAddrs typeEot 0 0).withHeader typeEot 0 0 []).enterProg eotEntry))
        (fun t => .next t.tapeDone)

/-- RDSR k (R201): no state changes, LASTRSP and ERRSEEN included (R27). -/
def execRdsr (k : Byte) (s : State) : Result :=
  match csr s k with
  | some v => .next (s.respond codeOk v)
  | none => .next (s.respond eIllegal 0x00)

/-- RESET (R202). -/
def execReset (s : State) : Result := .next (s.resetBlock.respond codeOk 0x00)

end Sys2Proof.Machine
end

