-- ==== Sys2Proof/Machine/Dispatch.lean ====
section
/-! DEFINITION. The dispatch: one arm per constructor of Instr, one direct call of its meaning each. -/

namespace Sys2Proof.Machine

open Sys2Proof

/-- What an instruction does. -/
def exec (i : Instr) (s : State) : Host.Outcome State Fault Refusal :=
  match i with
  | .nop => Sys2Proof.Machine.execNop s
  | .name c => Sys2Proof.Machine.execName c s
  | .data b => Sys2Proof.Machine.execData b s
  | .discard => Sys2Proof.Machine.execDiscard s
  | .encfile => Sys2Proof.Machine.execEncfile s
  | .finish => Sys2Proof.Machine.execFinish s
  | .rdsr k => Sys2Proof.Machine.execRdsr k s
  | .reset => Sys2Proof.Machine.execReset s
  | .uEnd => Sys2Proof.Machine.execUEnd s
  | .uRaw4 => Sys2Proof.Machine.execURaw4 s
  | .uTone k => Sys2Proof.Machine.execUTone k s
  | .uSync base => Sys2Proof.Machine.execUSync base s
  | .uHdr => Sys2Proof.Machine.execUHdr s
  | .uData => Sys2Proof.Machine.execUData s
  | .uEob => Sys2Proof.Machine.execUEob s
  | .encodeBit bit => Sys2Proof.Machine.execEncodeBit bit s
  | .encodeByte b => Sys2Proof.Machine.execEncodeByte b s
  | .encodeBytes bytes => Sys2Proof.Machine.execEncodeBytes bytes s
  | .xorsum bytes => Sys2Proof.Machine.execXorsum bytes s
  | .encodeDataBlock d => Sys2Proof.Machine.execEncodeDataBlock d s
  | .stem dispName => Sys2Proof.Machine.execStem dispName s
  | .trunc16 codes => Sys2Proof.Machine.execTrunc16 codes s
  | .upcase codes => Sys2Proof.Machine.execUpcase codes s
  | .remap codes => Sys2Proof.Machine.execRemap codes s
  | .pad16 codes => Sys2Proof.Machine.execPad16 codes s
  | .makeLabel codes => Sys2Proof.Machine.execMakeLabel codes s
  | .makeHeader t startAddr endAddr lab => Sys2Proof.Machine.execMakeHeader t startAddr endAddr lab s
  | .encodeFile dispName raw => Sys2Proof.Machine.execEncodeFile dispName raw s
  | .encodeEot => Sys2Proof.Machine.execEncodeEot s
  | .encodeTape files => Sys2Proof.Machine.execEncodeTape files s
  | .writeContainer payload => Sys2Proof.Machine.execWriteContainer payload s
  | .pop => Sys2Proof.Machine.execPop s

end Sys2Proof.Machine
end

