-- ==== Sys2Proof/Machine/Ports.lean ====
section
/-! DEFINITION. The ports (R204, R250 to R252): which thing a step is about, and what a handshake does. -/

namespace Sys2Proof.Machine

open Sys2Proof

/-- The port event at the head of the host's list; idle when there is none. -/
def State.event (s : State) : PortEvent := s.host.events.headD .idle

/-- The event has been dealt with. -/
def State.dropEvent (s : State) : State := { s with host := { s.host with events := s.host.events.tail } }

/-- What this step is about. `rst` goes before everything (R204, R252); a running sequencer before the command
it runs in; a command being executed before any handshake, which waits (R50, R204; assumptions 1, 25). -/
def State.agenda (s : State) : Agenda :=
  match s.event with
  | .rst => .reset
  | e =>
    match s.uw, s.cmd with
    | some w, _ => .micro w
    | none, some w => .command w
    | none, none => .port e

/-- A command word is accepted where `cmd_ready` is 1; where it is 0 it is not (R204, assumption 2). -/
def State.accept (s : State) (w : CmdWord) : State := if s.cmdReady then { s with cmd := some w } else s

/-- The response is taken where `rsp_valid` is 1 (R204, assumption 3). -/
def State.takeRsp (s : State) : State :=
  match s.rsp with
  | none => s
  | some w => { s with rsp := none, host := { s.host with responses := s.host.responses ++ [w] } }

/-- The state in which an accepted command word is what the next step executes (assumption 17). -/
def State.latchCommand (s : State) (w : CmdWord) : State :=
  { s with
    cmd := some w
    uw := none
    rsp := none
    host := { s.host with events := s.host.events.dropWhile (· == .rst) } }

/-- The state in which a micro-word is what the next step executes (assumption 17). -/
def State.latchMicro (s : State) (w : MicroWord) : State :=
  { s with uw := some w, host := { s.host with events := s.host.events.dropWhile (· == .rst) } }

end Sys2Proof.Machine
end

