-- ==== Sys2Proof/Machine/Step.lean ====
section
/-! DEFINITION. One step of the machine: a reset, one micro-operation of a running sequencer, one command, or
one handshake at the ports (D1, R204). -/

namespace Sys2Proof.Machine

open Sys2Proof

/-- The step. Everything it does is done by operations of the other files of this folder. -/
def step (s : State) : Host.Outcome State Fault Refusal :=
  match s.agenda with
  | .reset => .next s.dropEvent.resetBlock
  | .micro w => andThen (exec (microOf w) s) (fun t => .next t.refetch)
  | .command w =>
    match decodeCmd w with
    | .ok i => exec i s
    | .error _ => execReserved s
  | .port .takeByte => exec .pop s.dropEvent
  | .port .takeResponse => .next s.dropEvent.takeRsp
  | .port (.offer w) => .next (s.dropEvent.accept w)
  | .port .idle => .next s.dropEvent
  | .port .rst => .next s.dropEvent.resetBlock

/-- The host's placement of one instruction where the next step takes it (assumption 17). -/
def State.withFetchWord (s : State) (nbits w : Nat) : State :=
  if nbits = 16 then s.latchCommand (BitVec.ofNat 16 w)
  else if nbits = 24 then s.latchMicro (BitVec.ofNat 24 w)
  else s

end Sys2Proof.Machine
end

