-- ==== Sys2Proof/Safety.lean ====
section
/-! DEFINITION. What the claims are stated in: the invariant of R29 with what R12, R17 to R19, R50 and R204 add
to it, the canonical form of the buffers, and what an access leaves alone. -/

namespace Sys2Proof.Machine

open Sys2Proof

/-- Every buffer is in its canonical form. -/
abbrev State.memoryWf (s : State) : Prop := s.name.wf ∧ s.img.wf ∧ s.cb.wf ∧ s.pay.wf

/-- The lengths are within their buffers and the parameters within their ranges (R29 a, b, c;
00_scope.md section 4). -/
abbrev State.withinCapacity (s : State) : Prop :=
  s.cfg.wf ∧ s.nameLen ≤ 16 ∧ s.imgLen ≤ s.cfg.imgMax ∧ s.payLen ≤ s.cfg.payMax

/-- No cell lies outside its buffer (R40). -/
abbrev State.cellsInside (s : State) : Prop :=
  (∀ c ∈ s.name, c.1 < 16) ∧ (∀ c ∈ s.img, c.1 < s.cfg.imgMax) ∧ (∀ c ∈ s.cb, c.1 < 192) ∧
    ∀ c ∈ s.pay, c.1 < s.payLen

/-- Staging is clear (R196). -/
abbrev State.stagingClear (s : State) : Prop :=
  s.nameLen = 0 ∧ s.dotSeen = false ∧ s.nover = false ∧ s.imgLen = 0 ∧ s.imgOvf = false

/-- Between two commands (R50): the sequencer is idle, and at most one command is outstanding (R204). -/
abbrev State.quiet (s : State) : Prop := s.uw = none ∧ (s.cmd ≠ none → s.rsp = none)

/-- The staging flags mean what R12 and R13 say (R29 g, h), no '.' is stored (R12), and in SEALED mode staging
is clear (R196). -/
abbrev State.stagingOk (s : State) : Prop :=
  (s.nover = true → s.nameLen = 16) ∧ (s.imgOvf = true → s.imgLen = s.cfg.imgMax) ∧
    (∀ c ∈ s.stagedName, c ≠ (0x2E : Byte)) ∧ (s.mode = .isSealed → s.stagingClear)

/-- PAY is the regions of these files in order, followed in SEALED mode by one end-of-tape region
(R29 e, f). -/
abbrev State.holdsTape (s : State) (files : List (List Byte × List Byte)) : Prop :=
  (∀ f ∈ files, 2 ≤ f.2.length) ∧
    s.payload = encodeFiles files ++ (match s.mode with | .isOpen => [] | .isSealed => encodeEot)

/-- OUT is empty in OPEN mode, and in SEALED mode what is left of the container (R18, R53, R29 d). -/
abbrev State.outOk (s : State) : Prop :=
  match s.mode with
  | .isOpen => s.out = []
  | .isSealed => s.out <:+ writeContainer s.payload

/-- The invariant of the whole machine. -/
structure State.Inv (s : State) : Prop where
  memory : s.memoryWf
  capacity : s.withinCapacity
  inside : s.cellsInside
  quiet : s.quiet
  staging : s.stagingOk
  tape : ∃ files, s.holdsTape files
  out : s.outOk

/-- Every byte of m' outside the n bytes from offset a on reads as it does in m. -/
abbrev SameOutside (m m' : Memory) (a n : Nat) : Prop :=
  ∀ b, b < a ∨ a + n ≤ b → m'.read b = m.read b

/-- The host asserts `rst` in this step (R204). -/
abbrev State.rstNow (s : State) : Prop := s.host.events.headD .idle = .rst

/-- A safe step: it answers a next state (neither a fault nor a refusal). -/
abbrev Safe (s : State) : Prop := ∃ t, step s = .next t

/-! ### Command lists (R132, R205, R253) -/

/-- A command list, one command after another. -/
def runCommands (cmds : List Instr) (s : State) : Result :=
  cmds.foldl (fun r i => andThen r (exec i)) (.next s)

/-- The code a NAME command delivers. -/
def nameCode : Instr → Option Byte
  | .name c => some c
  | .nop | .data _ | .discard | .encfile | .finish | .rdsr _ | .reset => none
  | .uEnd | .uRaw4 | .uTone _ | .uSync _ | .uHdr | .uData | .uEob => none
  | .encodeBit _ | .encodeByte _ | .encodeBytes _ | .xorsum _ | .encodeDataBlock _ => none
  | .stem _ | .trunc16 _ | .upcase _ | .remap _ | .pad16 _ | .makeLabel _ => none
  | .makeHeader _ _ _ _ | .encodeFile _ _ | .encodeEot | .encodeTape _ | .writeContainer _ | .pop => none

/-- The byte a DATA command delivers. -/
def rawByte : Instr → Option Byte
  | .data b => some b
  | .nop | .name _ | .discard | .encfile | .finish | .rdsr _ | .reset => none
  | .uEnd | .uRaw4 | .uTone _ | .uSync _ | .uHdr | .uData | .uEob => none
  | .encodeBit _ | .encodeByte _ | .encodeBytes _ | .xorsum _ | .encodeDataBlock _ => none
  | .stem _ | .trunc16 _ | .upcase _ | .remap _ | .pad16 _ | .makeLabel _ => none
  | .makeHeader _ _ _ _ | .encodeFile _ _ | .encodeEot | .encodeTape _ | .writeContainer _ | .pop => none

/-- A command that delivers a code or a byte, or (NOP, RDSR) leaves staging as it is. -/
def delivers : Instr → Bool
  | .name _ | .data _ | .nop | .rdsr _ => true
  | .discard | .encfile | .finish | .reset => false
  | .uEnd | .uRaw4 | .uTone _ | .uSync _ | .uHdr | .uData | .uEob => false
  | .encodeBit _ | .encodeByte _ | .encodeBytes _ | .xorsum _ | .encodeDataBlock _ => false
  | .stem _ | .trunc16 _ | .upcase _ | .remap _ | .pad16 _ | .makeLabel _ => false
  | .makeHeader _ _ _ _ | .encodeFile _ _ | .encodeEot | .encodeTape _ | .writeContainer _ | .pop => false

/-- The display name a command list delivers. -/
def nameCodes (cmds : List Instr) : List Byte := cmds.filterMap nameCode

/-- The raw bytes a command list delivers. -/
def rawBytes (cmds : List Instr) : List Byte := cmds.filterMap rawByte

end Sys2Proof.Machine
end

