-- ==== Sys2Proof/Certificates/Slice0/Obligations.lean ====
section
/-! DEFINITION. The statements for the provers. Each docstring names the rules it rests on. In the statements about
unit operations the field `unitOut`, which holds the result, is the model's choice (assumption 4); wherever the
field `half` has a value it is a free value, the model's choice too (assumption 7). -/

open Sys2Proof Sys2Proof.Machine

/-! ### U1 and U2: bits, byte frames, checksums -/

/-- ENCODE_BIT completes with the pair of R100 on the unit's output and changes nothing else. -/
def Obligations.EncodeBitCompletes : Prop :=
  ∀ (s : State) (bit : Bool),
    exec (.encodeBit bit) s = .next { s with unitOut := if bit = true then [0x42, 0x30] else [0x30, 0x42] }

/-- R101: the two encodings differ, at both positions; ENCODE_BIT is injective and either pulse identifies the
bit. -/
def Obligations.EncodeBitDistinguishesBits : Prop :=
  encodeBit false ≠ encodeBit true ∧
    (∀ b c, encodeBit b = encodeBit c → b = c) ∧
    (∀ b c, (encodeBit b)[0]? = (encodeBit c)[0]? → b = c) ∧
    (∀ b c, (encodeBit b)[1]? = (encodeBit c)[1]? → b = c)

/-- ENCODE_BYTE completes (R62, R112): the marker, the pairs of bits 0 to 7, the pair of the parity bit; CUR, BIX
and PAR as the rule leaves them, the half-select a free value (assumption 7), nothing else. -/
def Obligations.EncodeByteCompletes : Prop :=
  ∀ (s : State) (b : Byte),
    let p := !(b[0] ^^ b[1] ^^ b[2] ^^ b[3] ^^ b[4] ^^ b[5] ^^ b[6] ^^ b[7])
    exec (.encodeByte b) s = .next { s with
      cur := b, bix := 8, par := p, half := Config.halfAfterFrame b
      unitOut := ([0x56, 0x42] : List Byte) ++ encodeBit b[0] ++ encodeBit b[1] ++ encodeBit b[2] ++ encodeBit b[3]
        ++ encodeBit b[4] ++ encodeBit b[5] ++ encodeBit b[6] ++ encodeBit b[7] ++ encodeBit p }

/-- R114: in every byte frame of an encoded sequence the number of 1 bits among the nine encoded bits is odd. -/
def Obligations.EveryFrameHasOddParity : Prop :=
  ∀ (bytes : List Byte) (i : Nat), i < bytes.length →
    ((List.range 9).countP
      (fun j => ((encodeBytes bytes).drop (20 * i + 2 * j + 2)).take 2 == encodeBit true)) % 2 = 1

/-- ENCODE_BYTES completes (R63, R113): 20·k pulses, the i-th frame the frame of the i-th byte, concatenation to
concatenation; the registers are those of the last byte, untouched when there is none. -/
def Obligations.EncodeBytesCompletes : Prop :=
  (∀ (s : State) (bytes : List Byte), ∃ t,
    exec (.encodeBytes bytes) s = .next t ∧
      t.unitOut.length = 20 * bytes.length ∧
      (∀ i (h : i < bytes.length), (t.unitOut.drop (20 * i)).take 20 = encodeByte bytes[i]) ∧
      t = { s with unitOut := t.unitOut, cur := t.cur, bix := t.bix, par := t.par, half := t.half } ∧
      (bytes = [] → t = { s with unitOut := [] }) ∧
      (∀ b, bytes.getLast? = some b → t.cur = b ∧ t.bix = 8 ∧ t.par = parityBit b)) ∧
  (∀ xs ys : List Byte, encodeBytes (xs ++ ys) = encodeBytes xs ++ encodeBytes ys)

/-- R118: P_LONG stands at position 20·i of the frames and nowhere else, P_MEDIUM at 20·i + 1, and the positions
20·i + 2·j + 2 and 20·i + 2·j + 3 hold one of the two pairs; ENCODE_BYTES is injective, and a frame tells its
byte. -/
def Obligations.FramesCanBeDecoded : Prop :=
  (∀ xs ys : List Byte, encodeBytes xs = encodeBytes ys → xs = ys) ∧
  (∀ b c : Byte, encodeByte b = encodeByte c → b = c) ∧
  (∀ (bytes : List Byte) (k : Nat), k < 20 * bytes.length →
    ((encodeBytes bytes)[k]? = some 0x56 ↔ k % 20 = 0) ∧
    (k % 20 = 1 → (encodeBytes bytes)[k]? = some 0x42)) ∧
  ∀ (bytes : List Byte) (i j : Nat), i < bytes.length → j < 9 →
    ((encodeBytes bytes).drop (20 * i + 2 * j + 2)).take 2 = [0x42, 0x30] ∨
      ((encodeBytes bytes).drop (20 * i + 2 * j + 2)).take 2 = [0x30, 0x42]

/-- XORSUM and ENCODE_DATA_BLOCK complete (R115, R116, R69): CHK and the output. -/
def Obligations.ChecksumUnitsComplete : Prop :=
  ∀ (s : State) (d : List Byte),
    exec (.xorsum d) s = .next { s with chk := xorsum d, unitOut := [xorsum d] } ∧
    exec (.encodeDataBlock d) s = .next { s with
      chk := xorsum d, unitOut := encodeBytes d ++ encodeByte (xorsum d)
      cur := xorsum d, bix := 8, par := parityBit (xorsum d), half := Config.halfAfterFrame (xorsum d) }

/-- XORSUM is the bitwise exclusive-or (R115): each bit is the parity of the number of bytes that have it; 0x00
for no byte, b for one, 0x00 for a sequence followed by its own XORSUM, the same in every order. -/
def Obligations.XorsumIsTheExclusiveOr : Prop :=
  (∀ (d : List Byte) (i : Nat), i < 8 →
    (xorsum d).getLsbD i = decide (d.countP (fun b => b.getLsbD i) % 2 = 1)) ∧
  xorsum [] = 0x00 ∧ (∀ b, xorsum [b] = b) ∧
  (∀ d : List Byte, xorsum (d ++ [xorsum d]) = 0x00) ∧
  (∀ d e : List Byte, d.Perm e → xorsum d = xorsum e)

/-! ### U3: labels and control blocks -/

/-- The label steps complete (R126 to R130), each with its value in every case the rule states, and change
nothing but the unit's output; UPCASE keeps the length and commutes with TRUNC16 and STEM (R128). A name is `pre`
with or without a '.' after it. The last clause of the first part is the model's choice (assumption 11): on more
than 16 codes, where R130 states no label, PAD16 completes with a free value. -/
def Obligations.LabelStepsComplete : Prop :=
  (∀ (s : State) (pre post codes : List Byte),
    ((0x2E : Byte) ∉ pre → exec (.stem (pre ++ 0x2E :: post)) s = .next { s with unitOut := pre }) ∧
    ((0x2E : Byte) ∉ pre → exec (.stem pre) s = .next { s with unitOut := pre }) ∧
    exec (.trunc16 codes) s =
      .next { s with unitOut := if 16 < codes.length then codes.take 16 else codes } ∧
    exec (.upcase codes) s =
      .next { s with
        unitOut := codes.map (fun c => if 0x61 ≤ c.toNat ∧ c.toNat ≤ 0x7A then c - 0x20 else c) } ∧
    exec (.remap codes) s = .next { s with unitOut := codes } ∧
    (codes.length ≤ 16 →
      exec (.pad16 codes) s =
        .next { s with unitOut := codes ++ List.replicate (16 - codes.length) 0x20 }) ∧
    (16 < codes.length → exec (.pad16 codes) s = .next { s with unitOut := Config.padLong codes })) ∧
  ∀ codes : List Byte,
    upcase (trunc16 codes) = trunc16 (upcase codes) ∧ upcase (stem codes) = stem (upcase codes) ∧
      (upcase codes).length = codes.length

/-- MAKE_LABEL completes (R131): always 16 bytes; the first min(len, 16) are the upper-cased codes, the rest are
spaces. -/
def Obligations.MakeLabelCompletes : Prop :=
  ∀ (s : State) (codes : List Byte), ∃ lab : List Byte,
    exec (.makeLabel codes) s = .next { s with unitOut := lab } ∧ lab.length = 16 ∧
      ∀ i, i < 16 → lab[i]? = some (if h : i < codes.length then upcaseCode codes[i] else 0x20)

/-- MAKE_HEADER completes (R70, R135): the control block field by field in CB and on the output, CHK the
checksum; nothing else changes, and no byte outside CB[0..191]. -/
def Obligations.MakeHeaderCompletes : Prop :=
  ∀ (s : State) (t : Byte) (a e : Half) (lab : List Byte), ∃ u,
    exec (.makeHeader t a e lab) s = .next u ∧
      u = { s with cb := u.cb, chk := u.cb.read 191, unitOut := u.cb.load 0 192 } ∧
      u.cb.read 0 = t ∧
      u.cb.read 1 = a.extractLsb' 0 8 ∧ u.cb.read 2 = a.extractLsb' 8 8 ∧
      u.cb.read 3 = e.extractLsb' 0 8 ∧ u.cb.read 4 = e.extractLsb' 8 8 ∧
      u.cb.load 5 16 = makeLabel lab ∧
      (∀ i, i < 170 → u.cb.read (21 + i) = 0x20) ∧
      u.cb.read 191 = xorsum (u.cb.load 0 191) ∧
      SameOutside s.cb u.cb 0 192

/-- R136: for every result of MAKE_HEADER the last byte is the XORSUM of the 191 before it, equivalently the
XORSUM of all 192 is 0x00. -/
def Obligations.ControlBlockChecksum : Prop :=
  ∀ (t : Byte) (a e : Half) (lab : List Byte),
    (makeHeader t a e lab).length = 192 ∧
    (makeHeader t a e lab)[191]? = some (xorsum ((makeHeader t a e lab).take 191)) ∧
    xorsum (makeHeader t a e lab) = 0x00

/-! ### U4: regions -/

/-- ENCODE_FILE completes (R165): on two or more raw bytes the output is the function's value, whose regions
FileRegionLayout gives; CB holds the file's control block; MODE, staging, PAY, OUT, the flags, the ports and the
host stay. CB[1..2] are the two load-address bytes and CB[3..4] the end address, in plain arithmetic (R42, R72). The
working registers are the model's choice: the order of the pseudocode (assumption 20). -/
def Obligations.EncodeFileCompletes : Prop :=
  ∀ (s : State) (dispName raw : List Byte), 2 ≤ raw.length → ∃ t region,
    exec (.encodeFile dispName raw) s = .next t ∧ encodeFile dispName raw = some region ∧
      t = { s with
        unitOut := region, cb := t.cb, chk := xorsum (raw.drop 2)
        cur := 0x01, bix := 8, par := parityBit 0x01, half := Config.halfAfterFrame 0x01 } ∧
      t.cb.load 0 192 = makeHeader 3 (loadAddr raw) (endAddrOf (loadAddr raw) (raw.length - 2)) (stem dispName) ∧
      t.cb.read 1 = raw.getD 0 0 ∧ t.cb.read 2 = raw.getD 1 0 ∧
      (t.cb.read 3).toNat + 256 * (t.cb.read 4).toNat =
        ((raw.getD 0 0).toNat + 256 * (raw.getD 1 0).toNat + (raw.length - 2) + 1) % 65536 ∧
      SameOutside s.cb t.cb 0 192

/-- R222: MalformedInputError on fewer than two raw bytes, whatever the name: the exception is taken (R226) as
ENCFILE takes it; no output exists. That the exception is taken so outside a command is the model's choice
(assumption 18). -/
def Obligations.EncodeFileMalformed : Prop :=
  ∀ (s : State) (dispName raw : List Byte), raw.length < 2 →
    encodeFile dispName raw = none ∧
    exec (.encodeFile dispName raw) s = .next { s with
      nameLen := 0, dotSeen := false, nover := false, imgLen := 0, imgOvf := false
      lastRsp := 0x01, errSeen := true, rsp := some 0x0100, cmd := none, unitOut := [] }

/-- R166: the length of a file's region, as the closed form and as the sum by the step list, and its values for
n = 0, 1, 254, 1000. -/
def Obligations.EncodeFileLength : Prop :=
  ∀ dispName raw region : List Byte, encodeFile dispName raw = some region →
    let n := raw.length - 2
    let B := 20 * (n + 1)
    region.length = 42068 + 40 * (n + 1) ∧
    region.length = 4 + 27136 + 180 + 3840 + 2 + 79 + 180 + 3840 + 2 + 78 + 4 + 5376 + 180 + B + 2 + 79 + 180 + B
      + 2 + 904 ∧
    (n = 0 → region.length = 42108) ∧ (n = 1 → region.length = 42148) ∧
    (n = 254 → region.length = 52268) ∧ (n = 1000 → region.length = 82108)

/-- R73: the twenty regions of an encoded file at their offsets, B = 20·(n + 1); the two addresses its control
block is built from, in plain arithmetic (R72). -/
def Obligations.FileRegionLayout : Prop :=
  ∀ dispName raw region : List Byte, encodeFile dispName raw = some region →
    let B := 20 * ((raw.length - 2) + 1)
    let at' := fun (o n : Nat) => (region.drop o).take n
    let header := encodeBytes
      (makeHeader 3 (loadAddr raw) (endAddrOf (loadAddr raw) (raw.length - 2)) (stem dispName))
    let block := encodeBytes (raw.drop 2 ++ [xorsum (raw.drop 2)])
    let primary := encodeBytes [0x89, 0x88, 0x87, 0x86, 0x85, 0x84, 0x83, 0x82, 0x81]
    let repeated := encodeBytes [0x09, 0x08, 0x07, 0x06, 0x05, 0x04, 0x03, 0x02, 0x01]
    (loadAddr raw).toNat = (raw.getD 0 0).toNat + 256 * (raw.getD 1 0).toNat ∧
    (endAddrOf (loadAddr raw) (raw.length - 2)).toNat =
      ((raw.getD 0 0).toNat + 256 * (raw.getD 1 0).toNat + (raw.length - 2) + 1) % 65536 ∧
    at' 0 4 = [0x00, 0x14, 0x00, 0x05] ∧ at' 4 27136 = List.replicate 27136 0x30 ∧
    at' 27140 180 = primary ∧ at' 27320 3840 = header ∧ at' 31160 2 = [0x56, 0x30] ∧
    at' 31162 79 = List.replicate 79 0x30 ∧
    at' 31241 180 = repeated ∧ at' 31421 3840 = header ∧ at' 35261 2 = [0x56, 0x30] ∧
    at' 35263 78 = List.replicate 78 0x30 ∧
    at' 35341 4 = [0x00, 0x14, 0x00, 0x05] ∧ at' 35345 5376 = List.replicate 5376 0x30 ∧
    at' 40721 180 = primary ∧ at' 40901 B = block ∧ at' (40901 + B) 2 = [0x56, 0x30] ∧
    at' (40903 + B) 79 = List.replicate 79 0x30 ∧
    at' (40982 + B) 180 = repeated ∧ at' (41162 + B) B = block ∧ at' (41162 + 2 * B) 2 = [0x56, 0x30] ∧
    at' (41164 + 2 * B) 904 = List.replicate 904 0x30

/-- R76: a byte of a file's region or of the end-of-tape region is a pulse code, but for the recording markers at
offsets 0 and 35341 of a file's region. -/
def Obligations.PayloadAlphabet : Prop :=
  (∀ dispName raw region : List Byte, encodeFile dispName raw = some region →
    ∀ (k : Nat) (h : k < region.length), ¬ k < 4 → ¬ (35341 ≤ k ∧ k < 35345) →
      region[k] = 0x30 ∨ region[k] = 0x42 ∨ region[k] = 0x56) ∧
  ∀ b ∈ encodeEot, b = 0x30 ∨ b = 0x42 ∨ b = 0x56

/-- ENCODE_EOT completes (R74, R170): 9108 bytes, the ten regions at their offsets; CB holds the type-5 control
block. The working registers are the model's choice: the order of the pseudocode (assumption 20). -/
def Obligations.EncodeEotCompletes : Prop :=
  ∀ s : State, ∃ t,
    exec .encodeEot s = .next t ∧ t.unitOut = encodeEot ∧
      t = { s with
        unitOut := t.unitOut, cb := t.cb, chk := 0x05
        cur := 0x01, bix := 8, par := parityBit 0x01, half := Config.halfAfterFrame 0x01 } ∧
      t.cb.load 0 192 = ([0x05, 0x00, 0x00, 0x00, 0x00] : List Byte) ++ List.replicate 186 0x20 ++ [0x05] ∧
      SameOutside s.cb t.cb 0 192 ∧
      t.unitOut.length = 9108 ∧
      (let at' := fun (o n : Nat) => (t.unitOut.drop o).take n
      at' 0 180 = encodeBytes [0x89, 0x88, 0x87, 0x86, 0x85, 0x84, 0x83, 0x82, 0x81] ∧
      at' 180 3840 = encodeBytes (t.cb.load 0 192) ∧ at' 4020 2 = [0x56, 0x30] ∧
      at' 4022 79 = List.replicate 79 0x30 ∧
      at' 4101 180 = encodeBytes [0x09, 0x08, 0x07, 0x06, 0x05, 0x04, 0x03, 0x02, 0x01] ∧
      at' 4281 3840 = encodeBytes (t.cb.load 0 192) ∧ at' 8121 2 = [0x56, 0x30] ∧
      at' 8123 2 = [0x56, 0x30] ∧ at' 8125 79 = List.replicate 79 0x30 ∧
      at' 8204 904 = List.replicate 904 0x30)

/-- ENCODE_TAPE completes (R75, R172): the regions of the files that do not raise, in order, then the
end-of-tape region; its length; CB[0..191] is the type-5 control block at the end; only the output, CB and the
working registers change. What the working registers
hold, and that nothing is recorded of a file that raises, is the model's choice (assumptions 19, 20). -/
def Obligations.EncodeTapeCompletes : Prop :=
  ∀ (s : State) (files : List (List Byte × List Byte)), ∃ t,
    exec (.encodeTape files) s = .next t ∧
      t.unitOut = (files.filterMap (fun f => encodeFile f.1 f.2)).flatten ++ encodeEot ∧
      t.unitOut.length =
        ((files.filter (fun f => 2 ≤ f.2.length)).map (fun f => 42108 + 40 * (f.2.length - 2))).sum + 9108 ∧
      t = { s with
        unitOut := t.unitOut, cb := t.cb, chk := 0x05
        cur := 0x01, bix := 8, par := parityBit 0x01, half := Config.halfAfterFrame 0x01 } ∧
      t.cb.load 0 192 = ([0x05, 0x00, 0x00, 0x00, 0x00] : List Byte) ++ List.replicate 186 0x20 ++ [0x05] ∧
      SameOutside s.cb t.cb 0 192

/-! ### U5 and the pop -/

/-- WRITE_CONTAINER completes (R78, R180, R181): signature, version, reserved bytes, a little-endian length
field equal to the number of bytes that follow it, the payload unchanged; OUT holds it. The field `frameHdr` is
the model's choice (assumption 22). -/
def Obligations.WriteContainerCompletes : Prop :=
  ∀ (s : State) (payload : List Byte), payload.length ≤ 2 ^ 32 - 1 → ∃ t,
    exec (.writeContainer payload) s = .next t ∧
      t = { s with out := t.out, frameHdr := t.out.take 20, unitOut := t.out } ∧
      t.out.take 16 = [0x43, 0x36, 0x34, 0x2D, 0x54, 0x41, 0x50, 0x45, 0x2D, 0x52, 0x41, 0x57,
        0x01, 0x00, 0x00, 0x00] ∧
      (t.out.getD 16 0).toNat + 256 * (t.out.getD 17 0).toNat + 65536 * (t.out.getD 18 0).toNat
        + 16777216 * (t.out.getD 19 0).toNat = (t.out.drop 20).length ∧
      t.out.drop 20 = payload

/-- POP completes (R203): enabled, it takes the head of OUT to the host with `out_last` exactly on the last
byte; not enabled, nothing happens and it is no error (the model's choice, assumption 24). -/
def Obligations.PopCompletes : Prop :=
  ∀ s : State,
    (∀ b rest, s.out = b :: rest → s.cmd = none → s.uw = none →
      exec .pop s = .next { s with
        out := rest, host := { s.host with received := s.host.received ++ [(b, decide (rest = []))] } }) ∧
    ((s.out = [] ∨ s.cmd ≠ none ∨ s.uw ≠ none) → exec .pop s = .next s)

/-- R53, R203: with nothing executing, as many pops as OUT has bytes deliver them in container order, `out_last`
with the last one only. -/
def Obligations.PopsDeliverTheContainer : Prop :=
  ∀ (s : State) (front : List Byte) (last : Byte) (rest : List PortEvent),
    s.out = front ++ [last] → s.cmd = none → s.uw = none →
    s.host.events = List.replicate (front.length + 1) .takeByte ++ rest →
      Sys2Proof.core.run (front.length + 1) s = .next { s with
        out := []
        host := { s.host with
          events := rest
          received := s.host.received ++ front.map (fun b => (b, false)) ++ [(last, true)] } }

/-! ### U4: micro-operations -/

/-- RAW4 and EOB complete (R147, R149): the four bytes of the recording marker, the two raw pulses LONG, SHORT, at
the end of PAY, PAYLEN up by 4 and by 2, UPC up by 1 (a free value past address 31, assumption 9), nothing else;
no other byte of PAY changes. -/
def Obligations.MarkersComplete : Prop :=
  (∀ s : State, s.payLen + 4 ≤ s.cfg.payMax → ∃ t,
    exec .uRaw4 s = .next t ∧
      t = { s with pay := t.pay, payLen := s.payLen + 4, upc := t.upc } ∧
      t.payload = s.payload ++ [0x00, 0x14, 0x00, 0x05] ∧ SameOutside s.pay t.pay s.payLen 4 ∧
      (s.upc ≠ 31 → t.upc = s.upc + 1) ∧ (s.upc = 31 → t.upc = Config.upcAfterLast)) ∧
  ∀ s : State, s.payLen + 2 ≤ s.cfg.payMax → ∃ t,
    exec .uEob s = .next t ∧
      t = { s with pay := t.pay, payLen := s.payLen + 2, upc := t.upc } ∧
      t.payload = s.payload ++ [0x56, 0x30] ∧ SameOutside s.pay t.pay s.payLen 2 ∧
      (s.upc ≠ 31 → t.upc = s.upc + 1) ∧ (s.upc = 31 → t.upc = Config.upcAfterLast)

/-- TONE k completes for every k (R148): k bytes 0x30, CNT run down to 0. k = 0, which R86 does not list, runs
the pseudocode's loop no time. -/
def Obligations.ToneCompletes : Prop :=
  ∀ (s : State) (k : Half), s.payLen + k.toNat ≤ s.cfg.payMax → ∃ t,
    exec (.uTone k) s = .next t ∧
      t = { s with pay := t.pay, payLen := s.payLen + k.toNat, cnt := 0, upc := t.upc } ∧
      t.payload = s.payload ++ List.replicate k.toNat 0x30 ∧ SameOutside s.pay t.pay s.payLen k.toNat ∧
      (s.upc ≠ 31 → t.upc = s.upc + 1) ∧ (s.upc = 31 → t.upc = Config.upcAfterLast)

/-- SYNC base completes (R150): 180 bytes, the frames of base+9 down to base+1, SYNCV at base, CNT at 0, CUR, BIX
and PAR those of the last frame. The third clause is for a base R86 does not list but R150's arithmetic fits; the
first holds for every argument, also where base[7:0] + 9 is no u8 (free values, assumption 8). -/
def Obligations.SyncCompletes : Prop :=
  ∀ (s : State) (base : Half), s.payLen + 180 ≤ s.cfg.payMax → ∃ t,
    exec (.uSync base) s = .next t ∧
      t = { s with
        pay := t.pay, payLen := s.payLen + 180, cnt := 0, syncV := t.syncV, cur := t.cur, bix := 8
        par := parityBit t.cur, half := Config.halfAfterFrame t.cur, upc := t.upc } ∧
      SameOutside s.pay t.pay s.payLen 180 ∧ t.payload.length = s.payload.length + 180 ∧
      (base = 0x0080 → t.payload =
        s.payload ++ encodeBytes [0x89, 0x88, 0x87, 0x86, 0x85, 0x84, 0x83, 0x82, 0x81]) ∧
      (base = 0x0000 → t.payload =
        s.payload ++ encodeBytes [0x09, 0x08, 0x07, 0x06, 0x05, 0x04, 0x03, 0x02, 0x01]) ∧
      (base.toNat % 256 + 9 < 256 →
        t.payload = s.payload ++
          encodeBytes ((List.range 9).map (fun i => BitVec.ofNat 8 (base.toNat % 256 + 9 - i))) ∧
        t.syncV = BitVec.ofNat 8 (base.toNat % 256) ∧
        t.cur = BitVec.ofNat 8 (base.toNat % 256 + 1)) ∧
      (s.upc ≠ 31 → t.upc = s.upc + 1) ∧ (s.upc = 31 → t.upc = Config.upcAfterLast)

/-- HDR completes (R151, R68): the 3840 pulses of CB[0..191], CB unchanged. -/
def Obligations.HdrCompletes : Prop :=
  ∀ s : State, s.payLen + 3840 ≤ s.cfg.payMax → ∃ t,
    exec .uHdr s = .next t ∧
      t = { s with
        pay := t.pay, payLen := s.payLen + 3840, cnt := 0, cur := s.cb.read 191, bix := 8
        par := parityBit (s.cb.read 191), half := Config.halfAfterFrame (s.cb.read 191), upc := t.upc } ∧
      t.payload = s.payload ++ encodeBytes (s.cb.load 0 192) ∧ SameOutside s.pay t.pay s.payLen 3840 ∧
      (s.upc ≠ 31 → t.upc = s.upc + 1) ∧ (s.upc = 31 → t.upc = Config.upcAfterLast)

/-- DATA, the micro-operation, completes (R152): the frames of IMG[2..IMGLEN−1] and of their checksum, which CHK
holds; IMG unchanged, so a second one emits the same bytes. -/
def Obligations.DataMicroOpCompletes : Prop :=
  ∀ s : State, 2 ≤ s.imgLen → s.imgLen ≤ s.cfg.imgMax →
    s.payLen + 20 * ((s.imgLen - 2) + 1) ≤ s.cfg.payMax → ∃ t,
      let d := s.img.load 2 (s.imgLen - 2)
      exec .uData s = .next t ∧
        t = { s with
          pay := t.pay, payLen := s.payLen + 20 * ((s.imgLen - 2) + 1), cnt := 0, chk := xorsum d
          cur := xorsum d, bix := 8, par := parityBit (xorsum d), half := Config.halfAfterFrame (xorsum d)
          upc := t.upc } ∧
        t.payload = s.payload ++ encodeBytes d ++ encodeByte (xorsum d) ∧
        SameOutside s.pay t.pay s.payLen (20 * ((s.imgLen - 2) + 1)) ∧
        (s.upc ≠ 31 → t.upc = s.upc + 1) ∧ (s.upc = 31 → t.upc = Config.upcAfterLast)

/-- R153: END emits nothing and leaves UPC; the sequencer stops. -/
def Obligations.EndStopsTheSequencer : Prop :=
  ∀ s : State, exec .uEnd s = .next { s with uw := none } ∧ ∀ n, runSequencer (n + 1) { s with uw := none } =
    .next { s with uw := none }

/-- R17, R40: what does not fit below PAY_MAX is not emitted: an access outside PAY stops by name. The names of
the faults are the model's choice (assumption 14). -/
def Obligations.EmittingPastPayStops : Prop :=
  ∀ (s : State) (k base : Half),
    (s.cfg.payMax < s.payLen + 4 → exec .uRaw4 s = .fault .payOutside) ∧
    (s.cfg.payMax < s.payLen + 2 → exec .uEob s = .fault .payOutside) ∧
    (k ≠ 0 → s.cfg.payMax < s.payLen + k.toNat → exec (.uTone k) s = .fault .payOutside) ∧
    (s.cfg.payMax < s.payLen + 180 → exec (.uSync base) s = .fault .payOutside) ∧
    (s.cfg.payMax < s.payLen + 3840 → exec .uHdr s = .fault .payOutside) ∧
    (s.imgLen ≤ s.cfg.imgMax → s.cfg.payMax < s.payLen + 20 * ((s.imgLen - 2) + 1) →
      exec .uData s = .fault .payOutside)

/-- R165: the 21 micro-operations of FILEPROG, one step each, append ENCODE_FILE(name, raw) to PAY when CB holds
the file's control block and IMG its raw bytes, and stop at address 20. CB[1..4] are then the load address and the
end address of IMG in plain arithmetic (R42, R72). -/
def Obligations.FileProgIsEncodeFile : Prop :=
  ∀ (s : State) (dispName : List Byte), s.pay.wf → s.host.events = [] →
    2 ≤ s.imgLen → s.imgLen ≤ s.cfg.imgMax →
    s.payLen + (42068 + 40 * ((s.imgLen - 2) + 1)) ≤ s.cfg.payMax →
    s.cb.load 0 192 = makeHeader 3 (loadAddr s.stagedRaw)
      (endAddrOf (loadAddr s.stagedRaw) (s.imgLen - 2)) (stem dispName) →
    ∃ t region,
      Sys2Proof.core.run 21 { s with upc := 0, uw := some 0x100000 } = .next t ∧
        encodeFile dispName s.stagedRaw = some region ∧ t.payload = s.payload ++ region ∧
        t.upc = 20 ∧ t.uw = none ∧ t.cb = s.cb ∧ t.img = s.img ∧ t.imgLen = s.imgLen ∧ t.mode = s.mode ∧
        t.out = s.out ∧ t.rsp = s.rsp ∧ t.cmd = s.cmd ∧
        t.cb.read 1 = s.img.read 0 ∧ t.cb.read 2 = s.img.read 1 ∧
        (t.cb.read 3).toNat + 256 * (t.cb.read 4).toNat =
          ((s.img.read 0).toNat + 256 * (s.img.read 1).toNat + (s.imgLen - 2) + 1) % 65536

/-- R170: the 11 micro-operations of EOTPROG, one step each, append ENCODE_EOT() to PAY when CB holds the type-5
control block, and stop at address 31. -/
def Obligations.EotProgIsEncodeEot : Prop :=
  ∀ s : State, s.pay.wf → s.host.events = [] → s.payLen + 9108 ≤ s.cfg.payMax →
    s.cb.load 0 192 = ([0x05, 0x00, 0x00, 0x00, 0x00] : List Byte) ++ List.replicate 186 0x20 ++ [0x05] →
    ∃ t,
      Sys2Proof.core.run 11 { s with upc := 21, uw := some 0x300080 } = .next t ∧
        t.payload = s.payload ++ encodeEot ∧ t.upc = 31 ∧ t.uw = none ∧ t.cb = s.cb ∧ t.img = s.img ∧
        t.imgLen = s.imgLen ∧ t.mode = s.mode ∧ t.out = s.out ∧ t.rsp = s.rsp ∧ t.cmd = s.cmd

/-! ### The host commands -/

/-- NOP completes in both modes (R191): LASTRSP is OK, the response 0x0000, nothing else. -/
def Obligations.NopCompletes : Prop :=
  ∀ s : State, exec .nop s = .next { s with lastRsp := 0x00, rsp := some 0x0000, cmd := none }

/-- NAME c completes in OPEN mode (R192): after a '.' ignored; '.' sets DOTSEEN; a seventeenth code sets NOVER;
any other code is stored at NAMELEN as it is. The response is 0x0000 in every case, and nothing else changes. -/
def Obligations.NameCompletes : Prop :=
  ∀ (s : State) (c : Byte), s.mode = .isOpen → s.nameLen ≤ 16 → ∃ t,
    exec (.name c) s = .next t ∧
      t = { s with
        dotSeen := t.dotSeen, nover := t.nover, name := t.name, nameLen := t.nameLen
        lastRsp := 0x00, rsp := some 0x0000, cmd := none } ∧
      (if s.dotSeen = true then
        t.dotSeen = true ∧ t.nover = s.nover ∧ t.name = s.name ∧ t.nameLen = s.nameLen
      else if c = 0x2E then
        t.dotSeen = true ∧ t.nover = s.nover ∧ t.name = s.name ∧ t.nameLen = s.nameLen
      else if s.nameLen = 16 then
        t.dotSeen = false ∧ t.nover = true ∧ t.name = s.name ∧ t.nameLen = s.nameLen
      else
        t.dotSeen = false ∧ t.nover = s.nover ∧ t.nameLen = s.nameLen + 1 ∧ t.name.read s.nameLen = c ∧
          SameOutside s.name t.name s.nameLen 1)

/-- R132: after any NAME and DATA commands in any order (and NOP and RDSR between them) on clear staging in OPEN
mode NAME[0..NAMELEN−1] is TRUNC16(STEM(name)) of the codes the NAME commands delivered, NOVER is 1 exactly when the
stem is longer than 16; and IMG[0..IMGLEN−1] is the bytes the DATA commands delivered when they fit (R194). -/
def Obligations.NamesCaptureTheStem : Prop :=
  ∀ (s : State) (cmds : List Instr), s.mode = .isOpen → s.stagingClear → (∀ i ∈ cmds, delivers i = true) → ∃ t,
    runCommands cmds s = .next t ∧
      t.stagedName = trunc16 (stem (nameCodes cmds)) ∧
      (t.nover = true ↔ 16 < (stem (nameCodes cmds)).length) ∧
      (t.dotSeen = true ↔ (0x2E : Byte) ∈ nameCodes cmds) ∧
      pad16 (remap (upcase t.stagedName)) = makeLabel (stem (nameCodes cmds)) ∧
      ((rawBytes cmds).length ≤ s.cfg.imgMax → t.stagedRaw = rawBytes cmds ∧ t.imgOvf = false)

/-- DATA b completes in OPEN mode (R194): the byte goes to IMG[IMGLEN]; a full buffer answers E_CAPACITY, sets
IMGOVF and loses it. -/
def Obligations.DataCompletes : Prop :=
  ∀ (s : State) (b : Byte), s.mode = .isOpen → s.imgLen ≤ s.cfg.imgMax →
    (s.imgLen < s.cfg.imgMax → ∃ t,
      exec (.data b) s = .next t ∧
        t = { s with img := t.img, imgLen := s.imgLen + 1, lastRsp := 0x00, rsp := some 0x0000, cmd := none } ∧
        t.img.read s.imgLen = b ∧ SameOutside s.img t.img s.imgLen 1) ∧
    (s.imgLen = s.cfg.imgMax →
      exec (.data b) s = .next { s with
        imgOvf := true, lastRsp := 0x04, errSeen := true, rsp := some 0x0400, cmd := none })

/-- DISCARD completes in OPEN mode (R195, R196): staging is clear, PAY untouched. -/
def Obligations.DiscardCompletes : Prop :=
  ∀ s : State, s.mode = .isOpen →
    exec .discard s = .next { s with
      nameLen := 0, dotSeen := false, nover := false, imgLen := 0, imgOvf := false
      lastRsp := 0x00, rsp := some 0x0000, cmd := none }

/-- The errors of ENCFILE in OPEN mode in the order tested (R197, R221, R227), IMGOVF, then fewer than two bytes,
then the payload capacity, each clearing staging and emitting nothing; and FINISH without room (R199), which
changes nothing but LASTRSP and ERRSEEN: MODE stays OPEN, staging is kept. -/
def Obligations.EncodingErrors : Prop :=
  ∀ s : State, s.mode = .isOpen →
    (s.imgOvf = true →
      exec .encfile s = .next { s with
        nameLen := 0, dotSeen := false, nover := false, imgLen := 0, imgOvf := false
        lastRsp := 0x04, errSeen := true, rsp := some 0x0400, cmd := none }) ∧
    (s.imgOvf = false → s.imgLen < 2 →
      exec .encfile s = .next { s with
        nameLen := 0, dotSeen := false, nover := false, imgLen := 0, imgOvf := false
        lastRsp := 0x01, errSeen := true, rsp := some 0x0100, cmd := none }) ∧
    (s.imgOvf = false → 2 ≤ s.imgLen → s.cfg.payMax < s.payLen + 42068 + 40 * (s.imgLen - 1) →
      exec .encfile s = .next { s with
        nameLen := 0, dotSeen := false, nover := false, imgLen := 0, imgOvf := false
        lastRsp := 0x04, errSeen := true, rsp := some 0x0400, cmd := none }) ∧
    (s.cfg.payMax < s.payLen + 9108 →
      exec .finish s = .next { s with lastRsp := 0x04, errSeen := true, rsp := some 0x0400, cmd := none })

/-- ENCFILE completes (R197): PAY grows by ENCODE_FILE(name, raw) for any display name whose truncated stem is
staged, nothing below the old PAYLEN changes; CB, START, END and TYPE are the file's, START and END in plain
arithmetic too (R15, R42); the warning bit; staging is cleared; MODE, OUT, NAME, IMG and the parameters stay. -/
def Obligations.EncfileCompletes : Prop :=
  ∀ (s : State) (dispName : List Byte), s.mode = .isOpen → s.imgOvf = false → s.pay.wf →
    s.nameLen ≤ 16 → 2 ≤ s.imgLen → s.imgLen ≤ s.cfg.imgMax →
    s.payLen + (42068 + 40 * ((s.imgLen - 2) + 1)) ≤ s.cfg.payMax →
    s.stagedName = trunc16 (stem dispName) →
    ∃ t region,
      exec .encfile s = .next t ∧ encodeFile dispName s.stagedRaw = some region ∧
        t.payload = s.payload ++ region ∧
        SameOutside s.pay t.pay s.payLen (42068 + 40 * ((s.imgLen - 2) + 1)) ∧
        t.cb.load 0 192 = makeHeader 3 (loadAddr s.stagedRaw)
          (endAddrOf (loadAddr s.stagedRaw) (s.imgLen - 2)) (stem dispName) ∧
        SameOutside s.cb t.cb 0 192 ∧
        t.startAddr.toNat = (s.img.read 0).toNat + 256 * (s.img.read 1).toNat ∧
        t.endAddr.toNat = (t.startAddr.toNat + (s.imgLen - 2) + 1) % 65536 ∧
        t = { s with
          pay := t.pay, payLen := s.payLen + (42068 + 40 * ((s.imgLen - 2) + 1)), cb := t.cb
          startAddr := loadAddr s.stagedRaw, endAddr := endAddrOf (loadAddr s.stagedRaw) (s.imgLen - 2)
          blockType := 3
          nameLen := 0, dotSeen := false, nover := false, imgLen := 0, imgOvf := false
          wLabel := s.wLabel || s.nover, lastRsp := 0x00
          rsp := some (if s.nover = true then 0x0001 else 0x0000), cmd := none
          cur := xorsum (s.img.load 2 (s.imgLen - 2)), bix := 8
          par := parityBit (xorsum (s.img.load 2 (s.imgLen - 2)))
          half := Config.halfAfterFrame (xorsum (s.img.load 2 (s.imgLen - 2)))
          chk := xorsum (s.img.load 2 (s.imgLen - 2)), cnt := 0, syncV := 0, upc := 20, uw := none }

/-- FINISH completes (R199): PAY grows by ENCODE_EOT(), OUT is WRITE_CONTAINER of the whole payload, MODE is
SEALED, staging is cleared, the response 0x0000; NAME, IMG and the parameters stay. The field `frameHdr` is the
model's choice (assumption 22). -/
def Obligations.FinishCompletes : Prop :=
  ∀ s : State, s.mode = .isOpen → s.pay.wf → s.payLen + 9108 ≤ s.cfg.payMax → ∃ t,
    exec .finish s = .next t ∧
      t.payload = s.payload ++ encodeEot ∧ SameOutside s.pay t.pay s.payLen 9108 ∧
      t.cb.load 0 192 = ([0x05, 0x00, 0x00, 0x00, 0x00] : List Byte) ++ List.replicate 186 0x20 ++ [0x05] ∧
      SameOutside s.cb t.cb 0 192 ∧
      t = { s with
        mode := .isSealed, pay := t.pay, payLen := s.payLen + 9108, cb := t.cb
        out := writeContainer (s.payload ++ encodeEot), frameHdr := containerHeader (s.payLen + 9108)
        startAddr := 0, endAddr := 0, blockType := 5
        nameLen := 0, dotSeen := false, nover := false, imgLen := 0, imgOvf := false
        lastRsp := 0x00, rsp := some 0x0000, cmd := none
        cur := 0x05, bix := 8, par := parityBit 0x05, half := Config.halfAfterFrame 0x05
        chk := 0x05, cnt := 0, syncV := 0, upc := 31, uw := none }

/-- RDSR completes (R201, R25): the response holds OK and the register; the multi-byte counters are
little-endian; no state changes, LASTRSP and ERRSEEN included (R27). That OUTREM shows the low 32 bits of
len(OUT) is the model's choice (assumption 21). -/
def Obligations.RdsrReadsTheRegisters : Prop :=
  ∀ (s : State) (k : Byte), k.toNat < 16 → ∃ v : Byte,
    exec (.rdsr k) s = .next { s with rsp := some (0x00#8 ++ v), cmd := none } ∧
      (k = 0x01 → v = s.lastRsp) ∧ (k = 0x02 → s.nameLen ≤ 16 → v.toNat = s.nameLen) ∧ (k = 0x03 → v = 0x01) ∧
      (∀ j, j < 4 → k.toNat = 4 + j → v.toNat = s.imgLen / 256 ^ j % 256) ∧
      (∀ j, j < 4 → k.toNat = 8 + j → v.toNat = s.payLen / 256 ^ j % 256) ∧
      (∀ j, j < 4 → k.toNat = 12 + j → v.toNat = s.out.length / 256 ^ j % 256)

/-- STATUS bit by bit (R26), read by RDSR 0x00. -/
def Obligations.StatusBits : Prop :=
  ∀ s : State, ∃ v : Byte,
    exec (.rdsr 0x00) s = .next { s with rsp := some (0x00#8 ++ v), cmd := none } ∧
      v[0] = decide (s.mode = .isSealed) ∧ v[1] = decide (0 < s.out.length) ∧ v[2] = s.wLabel ∧
      v[3] = s.errSeen ∧ v[4] = s.imgOvf ∧ v[5] = s.dotSeen ∧ v[6] = s.nover ∧ v[7] = false

/-- RESET completes in both modes (R202, R30): every value the spec gives for reset, the response 0x0000; the
parameters and the host stay. (The values R30 leaves unspecified are the model's, assumptions 5 and 6, and are
not stated.) -/
def Obligations.ResetCommandCompletes : Prop :=
  ∀ s : State, ∃ t,
    exec .reset s = .next t ∧ t.rsp = some 0x0000 ∧ t.cmd = none ∧ t.uw = none ∧
      t.mode = .isOpen ∧ t.stagingClear ∧ t.payLen = 0 ∧ t.payload = [] ∧ t.out = [] ∧ t.wLabel = false ∧
      t.errSeen = false ∧ t.lastRsp = 0x00 ∧ t.cfg = s.cfg ∧ t.host = s.host

/-- R190, R221: NAME, DATA, DISCARD, ENCFILE and FINISH in SEALED mode answer E_SEQUENCE and change nothing but
LASTRSP and ERRSEEN. -/
def Obligations.SealedRefusesInput : Prop :=
  ∀ (s : State) (c b : Byte), s.mode = .isSealed →
    ∀ i ∈ [Instr.name c, .data b, .discard, .encfile, .finish],
      exec i s = .next { s with lastRsp := 0x03, errSeen := true, rsp := some 0x0300, cmd := none }

/-- R226: when one of the eight commands ends with a non-zero code, PAY, PAYLEN, OUT, MODE, CB and WLABEL are as
before, LASTRSP and ERRSEEN record it unless the command is RDSR, staging is as before unless the command is
ENCFILE in OPEN mode (cleared) or DATA out of room (IMGOVF set), the data byte is 0x00, and no command is being
executed. -/
def Obligations.ErrorsLeaveTheOutput : Prop :=
  ∀ (s t : State) (c b k : Byte),
    ∀ i ∈ [Instr.nop, .name c, .data b, .discard, .encfile, .finish, .rdsr k, .reset],
      exec i s = .next t → ∀ w : RspWord, t.rsp = some w → w.extractLsb' 8 8 ≠ 0x00#8 →
        t.pay = s.pay ∧ t.payLen = s.payLen ∧ t.out = s.out ∧ t.mode = s.mode ∧ t.cb = s.cb ∧
          t.wLabel = s.wLabel ∧ t.name = s.name ∧ t.img = s.img ∧ t.cmd = none ∧ w.extractLsb' 0 8 = 0x00#8 ∧
          (if i = .rdsr k then t.lastRsp = s.lastRsp ∧ t.errSeen = s.errSeen
          else t.lastRsp = w.extractLsb' 8 8 ∧ t.errSeen = true) ∧
          (if i = .encfile ∧ s.mode = .isOpen then t.stagingClear
          else t.nameLen = s.nameLen ∧ t.dotSeen = s.dotSeen ∧ t.nover = s.nover ∧ t.imgLen = s.imgLen ∧
            t.imgOvf = (s.imgOvf || (i == .data b && s.mode == .isOpen)))

/-! ### Decoding and stepping -/

/-- R80, R81, R85, R86: decoding the word of a well-formed instruction gives it back, with every operand at every
value its encoding admits. -/
def Obligations.DecodeOfEncode : Prop :=
  ∀ (i : Instr) (n w : Nat), i.wf = true → encode i = some (n, w) → decodeTableWord n w = some i

/-- A word that decodes is the word of what it decodes to: no two words are one instruction and no reserved word
falls through to a neighbour (R80 to R86). -/
def Obligations.EncodeOfDecode : Prop :=
  ∀ (n w : Nat) (i : Instr), decodeTableWord n w = some i → encode i = some (n, w)

/-- Words of the spec's examples (R90, R92, R160) and what they are. -/
def Obligations.WordsOfTheSpecDecode : Prop :=
  decodeTableWord 16 0x0000 = some .nop ∧ decodeTableWord 16 0x0154 = some (.name 0x54) ∧
  decodeTableWord 16 0x02A9 = some (.data 0xA9) ∧ decodeTableWord 16 0x0300 = some .discard ∧
  decodeTableWord 16 0x0400 = some .encfile ∧ decodeTableWord 16 0x0500 = some .finish ∧
  decodeTableWord 16 0x0608 = some (.rdsr 0x08) ∧ decodeTableWord 16 0x0700 = some .reset ∧
  decodeTableWord 16 0x0001 = none ∧ decodeTableWord 16 0x0800 = none ∧
  decodeTableWord 24 0x000000 = some .uEnd ∧ decodeTableWord 24 0x100000 = some .uRaw4 ∧
  decodeTableWord 24 0x206A00 = some (.uTone 0x6A00) ∧ decodeTableWord 24 0x300080 = some (.uSync 0x80) ∧
  decodeTableWord 24 0x400000 = some .uHdr ∧ decodeTableWord 24 0x500000 = some .uData ∧
  decodeTableWord 24 0x600000 = some .uEob ∧ decodeTableWord 24 0x700000 = none

/-- A step runs the decoded instruction: a command being executed while the sequencer is idle and `rst` is not
asserted is exec of it; the host's placement of a word makes the next step run it (assumption 17). That a
command is one step is R50's permission, taken (assumption 1). -/
def Obligations.StepRunsTheCommand : Prop :=
  ∀ (s : State) (w : CmdWord) (i : Instr), decodeCmd w = .ok i →
    (¬ s.rstNow → s.uw = none → s.cmd = some w → step s = exec i s) ∧
    step (s.withFetchWord 16 w.toNat) = exec i (s.withFetchWord 16 w.toNat)

/-- A step of a running sequencer is exec of the fetched micro-operation followed by the fetch of UROM[UPC],
which END leaves out (R145, R153). The fetched word in State and its placement are the model's choice
(assumptions 16, 17). -/
def Obligations.StepRunsTheMicroOp : Prop :=
  ∀ (s : State) (w : MicroWord) (i : Instr), decodeMicro w = .ok i →
    (¬ s.rstNow → s.uw = some w →
      step s = andThen (exec i s) (fun t => .next { t with uw := t.uw.map (fun _ => uromAt t.upc) })) ∧
    step (s.withFetchWord 24 w.toNat) = andThen (exec i (s.withFetchWord 24 w.toNat))
      (fun t => .next { t with uw := t.uw.map (fun _ => uromAt t.upc) })

/-- R83: a command word is no command exactly when its opcode is 0x08..0xFF or its imm8 is not 0 on NOP, DISCARD,
ENCFILE, FINISH or RESET; it is answered E_ILLEGAL and changes nothing but LASTRSP and ERRSEEN; RDSR of
0x10..0xFF is answered E_ILLEGAL and changes not even those. -/
def Obligations.ReservedEncodings : Prop :=
  (∀ w : CmdWord, (decodeCmd w).toOption = none ↔
    (8 ≤ w.toNat / 256 ∨ ((w.toNat / 256) ∈ [0x00, 0x03, 0x04, 0x05, 0x07] ∧ w.toNat % 256 ≠ 0))) ∧
  ∀ (s : State) (w : CmdWord), ¬ s.rstNow → s.uw = none → s.cmd = some w →
    ((decodeCmd w).toOption = none →
      step s = .next { s with lastRsp := 0x02, errSeen := true, rsp := some 0x0200, cmd := none }) ∧
    (w.toNat / 256 = 0x06 → 0x10 ≤ w.toNat % 256 → step s = .next { s with rsp := some 0x0200, cmd := none })

/-- R204: with nothing executing, a command word is accepted exactly when no response waits; a waiting response
is taken, and with none waiting `rsp_ready` does nothing; with no event the block stays as it is. One handshake a step and the record of the host are the
model's choice (assumptions 2, 3). -/
def Obligations.PortHandshakes : Prop :=
  ∀ (s : State) (w : CmdWord) (rest : List PortEvent), s.uw = none → s.cmd = none →
    (s.host.events = .offer w :: rest → s.rsp = none →
      step s = .next { s with cmd := some w, host := { s.host with events := rest } }) ∧
    (s.host.events = .offer w :: rest → s.rsp ≠ none →
      step s = .next { s with host := { s.host with events := rest } }) ∧
    (∀ v, s.host.events = .takeResponse :: rest → s.rsp = some v →
      step s = .next { s with
        rsp := none, host := { s.host with events := rest, responses := s.host.responses ++ [v] } }) ∧
    (s.host.events = .takeResponse :: rest → s.rsp = none →
      step s = .next { s with host := { s.host with events := rest } }) ∧
    (s.host.events = .takeByte :: rest →
      step s = exec .pop { s with host := { s.host with events := rest } }) ∧
    (s.host.events = .idle :: rest → step s = .next { s with host := { s.host with events := rest } }) ∧
    (s.host.events = [] → step s = .next s)

/-- R250, R252: `rst` in any state, a command executing or a response waiting included, puts the block in its
reset state with no response and no command; the parameters stay. -/
def Obligations.RstAbandonsEverything : Prop :=
  ∀ (s : State) (rest : List PortEvent), s.host.events = .rst :: rest → ∃ t,
    step s = .next t ∧ t.rsp = none ∧ t.cmd = none ∧ t.uw = none ∧
      t.mode = .isOpen ∧ t.stagingClear ∧ t.payLen = 0 ∧ t.payload = [] ∧ t.out = [] ∧ t.wLabel = false ∧
      t.errSeen = false ∧ t.lastRsp = 0x00 ∧ t.cmdReady = true ∧ t.rspValid = false ∧ t.outValid = false ∧
      t.cfg = s.cfg ∧ t.host = { s.host with events := rest }

/-! ### The whole machine -/

/-- Under the invariant no step faults or is refused (R220, R224, R228), and every command being executed is over
after one step, with a response (R50, R87, R270). -/
def Obligations.EveryCommandIsAnswered : Prop :=
  ∀ s : State, s.Inv →
    Safe s ∧ ∀ w, ¬ s.rstNow → s.cmd = some w → ∃ t, step s = .next t ∧ t.cmd = none ∧ t.rsp ≠ none

/-- Every step keeps the canonical form of the four buffers, in every state. The form is the model's choice:
strictly rising offsets, no cell that holds what an unlisted byte reads as (assumption 5). -/
def Obligations.StepKeepsMemoryCanonical : Prop :=
  ∀ s t : State, s.memoryWf → step s = .next t → t.memoryWf

/-- Every step keeps the lengths within the buffers, in every state (R29 a, b, c, R17). -/
def Obligations.StepKeepsCapacity : Prop :=
  ∀ s t : State, s.withinCapacity → step s = .next t → t.withinCapacity

/-- R17, R30: no step changes a byte of PAY below PAYLEN or lowers PAYLEN but a reset (after which PAYLEN is 0),
and no step changes the parameters (R11). -/
def Obligations.PayIsAppendOnly : Prop :=
  ∀ s t : State, step s = .next t →
    t.cfg = s.cfg ∧
      ((s.payLen ≤ t.payLen ∧ ∀ a, a < s.payLen → t.pay.read a = s.pay.read a) ∨
        (t.payLen = 0 ∧ (s.rstNow ∨ (s.uw = none ∧ s.cmd = some 0x0700))))

/-- R19: SEALED is left by a reset only, and entered by a FINISH only. -/
def Obligations.ModeChangesOnlyByFinishAndReset : Prop :=
  ∀ s t : State, step s = .next t → t.mode ≠ s.mode →
    (s.mode = .isSealed ∧ (s.rstNow ∨ (s.uw = none ∧ s.cmd = some 0x0700))) ∨
      (s.mode = .isOpen ∧ s.uw = none ∧ s.cmd = some 0x0500)

/-- R29: every step keeps the invariant: PAY is the regions of the encoded files in order, in SEALED mode followed
by exactly one end-of-tape region, and OUT is what is left of its container. -/
def Obligations.StepKeepsInvariant : Prop :=
  ∀ s t : State, s.Inv → step s = .next t → t.Inv

/-- The invariant holds at reset, for all parameters in their ranges (R30; 00_scope.md section 4). -/
def Obligations.ResetMeetsInvariant : Prop :=
  State.reset.Inv ∧ ∀ c : Config, c.wf → State.Inv { State.reset with cfg := c }

/-- R205, the contract of the block: from a block in OPEN mode with clear staging and an empty payload, for each
file NAME and DATA commands in any order (R253; NOP and RDSR between them) that deliver its name and its raw bytes,
followed by ENCFILE, and then FINISH, leave the container of ENCODE_TAPE of the files in OUT, when no capacity is
reached; a file of fewer than two raw bytes contributes nothing. (PopsDeliverTheContainer says what the host then
receives.) -/
def Obligations.SessionMakesTheContainer : Prop :=
  ∀ (s : State) (session : List (List Instr)),
    let files := session.map (fun cmds => (nameCodes cmds, rawBytes cmds))
    s.mode = .isOpen → s.stagingClear → s.pay.wf → s.payLen = 0 →
    (∀ cmds ∈ session, ∀ i ∈ cmds, delivers i = true) →
    (∀ f ∈ files, f.2.length ≤ s.cfg.imgMax) → (encodeTape files).length ≤ s.cfg.payMax →
    ∃ t : State,
      runCommands (session.flatMap (fun cmds => cmds ++ [.encfile]) ++ [.finish]) s = .next t ∧
        t.mode = .isSealed ∧ t.payload = encodeTape files ∧ t.out = writeContainer (encodeTape files) ∧
        t.rsp = some 0x0000 ∧ t.host = s.host ∧ t.cfg = s.cfg ∧
        (t.errSeen = true ↔ s.errSeen = true ∨ ∃ f ∈ files, f.2.length < 2) ∧
        (t.wLabel = true ↔ s.wLabel = true ∨ ∃ f ∈ files, 2 ≤ f.2.length ∧ 16 < (stem f.1).length)
end

