-- ==== Sys2Proof/Laws/State.lean ====
section
/-! SUPPORT. One lemma per field per update of State, each true by rfl, so that no proof unfolds a record
update. -/

namespace Sys2Proof.Machine

open Sys2Proof


/-! ### respond: The response word is set and the command is over. -/

section

variable (s : State) (code data : Byte)

@[simp] theorem respond_cfg : (s.respond code data).cfg = s.cfg := rfl
@[simp] theorem respond_mode : (s.respond code data).mode = s.mode := rfl
@[simp] theorem respond_name : (s.respond code data).name = s.name := rfl
@[simp] theorem respond_nameLen : (s.respond code data).nameLen = s.nameLen := rfl
@[simp] theorem respond_dotSeen : (s.respond code data).dotSeen = s.dotSeen := rfl
@[simp] theorem respond_nover : (s.respond code data).nover = s.nover := rfl
@[simp] theorem respond_img : (s.respond code data).img = s.img := rfl
@[simp] theorem respond_imgLen : (s.respond code data).imgLen = s.imgLen := rfl
@[simp] theorem respond_imgOvf : (s.respond code data).imgOvf = s.imgOvf := rfl
@[simp] theorem respond_cb : (s.respond code data).cb = s.cb := rfl
@[simp] theorem respond_startAddr : (s.respond code data).startAddr = s.startAddr := rfl
@[simp] theorem respond_endAddr : (s.respond code data).endAddr = s.endAddr := rfl
@[simp] theorem respond_blockType : (s.respond code data).blockType = s.blockType := rfl
@[simp] theorem respond_pay : (s.respond code data).pay = s.pay := rfl
@[simp] theorem respond_payLen : (s.respond code data).payLen = s.payLen := rfl
@[simp] theorem respond_out : (s.respond code data).out = s.out := rfl
@[simp] theorem respond_wLabel : (s.respond code data).wLabel = s.wLabel := rfl
@[simp] theorem respond_errSeen : (s.respond code data).errSeen = s.errSeen := rfl
@[simp] theorem respond_lastRsp : (s.respond code data).lastRsp = s.lastRsp := rfl
@[simp] theorem respond_cur : (s.respond code data).cur = s.cur := rfl
@[simp] theorem respond_bix : (s.respond code data).bix = s.bix := rfl
@[simp] theorem respond_par : (s.respond code data).par = s.par := rfl
@[simp] theorem respond_half : (s.respond code data).half = s.half := rfl
@[simp] theorem respond_chk : (s.respond code data).chk = s.chk := rfl
@[simp] theorem respond_cnt : (s.respond code data).cnt = s.cnt := rfl
@[simp] theorem respond_syncV : (s.respond code data).syncV = s.syncV := rfl
@[simp] theorem respond_upc : (s.respond code data).upc = s.upc := rfl
@[simp] theorem respond_uw : (s.respond code data).uw = s.uw := rfl
@[simp] theorem respond_frameHdr : (s.respond code data).frameHdr = s.frameHdr := rfl
@[simp] theorem respond_cmd : (s.respond code data).cmd = none := rfl
@[simp] theorem respond_rsp : (s.respond code data).rsp = some (code ++ data) := rfl
@[simp] theorem respond_unitOut : (s.respond code data).unitOut = s.unitOut := rfl
@[simp] theorem respond_host : (s.respond code data).host = s.host := rfl

end

/-! ### complete: LASTRSP, ERRSEEN and the response; nothing else. -/

section

variable (s : State) (code data : Byte)

@[simp] theorem complete_cfg : (s.complete code data).cfg = s.cfg := rfl
@[simp] theorem complete_mode : (s.complete code data).mode = s.mode := rfl
@[simp] theorem complete_name : (s.complete code data).name = s.name := rfl
@[simp] theorem complete_nameLen : (s.complete code data).nameLen = s.nameLen := rfl
@[simp] theorem complete_dotSeen : (s.complete code data).dotSeen = s.dotSeen := rfl
@[simp] theorem complete_nover : (s.complete code data).nover = s.nover := rfl
@[simp] theorem complete_img : (s.complete code data).img = s.img := rfl
@[simp] theorem complete_imgLen : (s.complete code data).imgLen = s.imgLen := rfl
@[simp] theorem complete_imgOvf : (s.complete code data).imgOvf = s.imgOvf := rfl
@[simp] theorem complete_cb : (s.complete code data).cb = s.cb := rfl
@[simp] theorem complete_startAddr : (s.complete code data).startAddr = s.startAddr := rfl
@[simp] theorem complete_endAddr : (s.complete code data).endAddr = s.endAddr := rfl
@[simp] theorem complete_blockType : (s.complete code data).blockType = s.blockType := rfl
@[simp] theorem complete_pay : (s.complete code data).pay = s.pay := rfl
@[simp] theorem complete_payLen : (s.complete code data).payLen = s.payLen := rfl
@[simp] theorem complete_out : (s.complete code data).out = s.out := rfl
@[simp] theorem complete_wLabel : (s.complete code data).wLabel = s.wLabel := rfl
@[simp] theorem complete_errSeen : (s.complete code data).errSeen = (s.errSeen || code != codeOk) := rfl
@[simp] theorem complete_lastRsp : (s.complete code data).lastRsp = code := rfl
@[simp] theorem complete_cur : (s.complete code data).cur = s.cur := rfl
@[simp] theorem complete_bix : (s.complete code data).bix = s.bix := rfl
@[simp] theorem complete_par : (s.complete code data).par = s.par := rfl
@[simp] theorem complete_half : (s.complete code data).half = s.half := rfl
@[simp] theorem complete_chk : (s.complete code data).chk = s.chk := rfl
@[simp] theorem complete_cnt : (s.complete code data).cnt = s.cnt := rfl
@[simp] theorem complete_syncV : (s.complete code data).syncV = s.syncV := rfl
@[simp] theorem complete_upc : (s.complete code data).upc = s.upc := rfl
@[simp] theorem complete_uw : (s.complete code data).uw = s.uw := rfl
@[simp] theorem complete_frameHdr : (s.complete code data).frameHdr = s.frameHdr := rfl
@[simp] theorem complete_cmd : (s.complete code data).cmd = none := rfl
@[simp] theorem complete_rsp : (s.complete code data).rsp = some (code ++ data) := rfl
@[simp] theorem complete_unitOut : (s.complete code data).unitOut = s.unitOut := rfl
@[simp] theorem complete_host : (s.complete code data).host = s.host := rfl

end

/-! ### raise: An exception is a completion with data 0x00. -/

section

variable (s : State) (code : Byte)

@[simp] theorem raise_cfg : (s.raise code).cfg = s.cfg := rfl
@[simp] theorem raise_mode : (s.raise code).mode = s.mode := rfl
@[simp] theorem raise_name : (s.raise code).name = s.name := rfl
@[simp] theorem raise_nameLen : (s.raise code).nameLen = s.nameLen := rfl
@[simp] theorem raise_dotSeen : (s.raise code).dotSeen = s.dotSeen := rfl
@[simp] theorem raise_nover : (s.raise code).nover = s.nover := rfl
@[simp] theorem raise_img : (s.raise code).img = s.img := rfl
@[simp] theorem raise_imgLen : (s.raise code).imgLen = s.imgLen := rfl
@[simp] theorem raise_imgOvf : (s.raise code).imgOvf = s.imgOvf := rfl
@[simp] theorem raise_cb : (s.raise code).cb = s.cb := rfl
@[simp] theorem raise_startAddr : (s.raise code).startAddr = s.startAddr := rfl
@[simp] theorem raise_endAddr : (s.raise code).endAddr = s.endAddr := rfl
@[simp] theorem raise_blockType : (s.raise code).blockType = s.blockType := rfl
@[simp] theorem raise_pay : (s.raise code).pay = s.pay := rfl
@[simp] theorem raise_payLen : (s.raise code).payLen = s.payLen := rfl
@[simp] theorem raise_out : (s.raise code).out = s.out := rfl
@[simp] theorem raise_wLabel : (s.raise code).wLabel = s.wLabel := rfl
@[simp] theorem raise_errSeen : (s.raise code).errSeen = (s.errSeen || code != codeOk) := rfl
@[simp] theorem raise_lastRsp : (s.raise code).lastRsp = code := rfl
@[simp] theorem raise_cur : (s.raise code).cur = s.cur := rfl
@[simp] theorem raise_bix : (s.raise code).bix = s.bix := rfl
@[simp] theorem raise_par : (s.raise code).par = s.par := rfl
@[simp] theorem raise_half : (s.raise code).half = s.half := rfl
@[simp] theorem raise_chk : (s.raise code).chk = s.chk := rfl
@[simp] theorem raise_cnt : (s.raise code).cnt = s.cnt := rfl
@[simp] theorem raise_syncV : (s.raise code).syncV = s.syncV := rfl
@[simp] theorem raise_upc : (s.raise code).upc = s.upc := rfl
@[simp] theorem raise_uw : (s.raise code).uw = s.uw := rfl
@[simp] theorem raise_frameHdr : (s.raise code).frameHdr = s.frameHdr := rfl
@[simp] theorem raise_cmd : (s.raise code).cmd = none := rfl
@[simp] theorem raise_rsp : (s.raise code).rsp = some (code ++ (0x00 : Byte)) := rfl
@[simp] theorem raise_unitOut : (s.raise code).unitOut = s.unitOut := rfl
@[simp] theorem raise_host : (s.raise code).host = s.host := rfl

end

/-! ### clearStaging: The five staging registers. -/

section

variable (s : State)

@[simp] theorem clearStaging_cfg : (s.clearStaging).cfg = s.cfg := rfl
@[simp] theorem clearStaging_mode : (s.clearStaging).mode = s.mode := rfl
@[simp] theorem clearStaging_name : (s.clearStaging).name = s.name := rfl
@[simp] theorem clearStaging_nameLen : (s.clearStaging).nameLen = 0 := rfl
@[simp] theorem clearStaging_dotSeen : (s.clearStaging).dotSeen = false := rfl
@[simp] theorem clearStaging_nover : (s.clearStaging).nover = false := rfl
@[simp] theorem clearStaging_img : (s.clearStaging).img = s.img := rfl
@[simp] theorem clearStaging_imgLen : (s.clearStaging).imgLen = 0 := rfl
@[simp] theorem clearStaging_imgOvf : (s.clearStaging).imgOvf = false := rfl
@[simp] theorem clearStaging_cb : (s.clearStaging).cb = s.cb := rfl
@[simp] theorem clearStaging_startAddr : (s.clearStaging).startAddr = s.startAddr := rfl
@[simp] theorem clearStaging_endAddr : (s.clearStaging).endAddr = s.endAddr := rfl
@[simp] theorem clearStaging_blockType : (s.clearStaging).blockType = s.blockType := rfl
@[simp] theorem clearStaging_pay : (s.clearStaging).pay = s.pay := rfl
@[simp] theorem clearStaging_payLen : (s.clearStaging).payLen = s.payLen := rfl
@[simp] theorem clearStaging_out : (s.clearStaging).out = s.out := rfl
@[simp] theorem clearStaging_wLabel : (s.clearStaging).wLabel = s.wLabel := rfl
@[simp] theorem clearStaging_errSeen : (s.clearStaging).errSeen = s.errSeen := rfl
@[simp] theorem clearStaging_lastRsp : (s.clearStaging).lastRsp = s.lastRsp := rfl
@[simp] theorem clearStaging_cur : (s.clearStaging).cur = s.cur := rfl
@[simp] theorem clearStaging_bix : (s.clearStaging).bix = s.bix := rfl
@[simp] theorem clearStaging_par : (s.clearStaging).par = s.par := rfl
@[simp] theorem clearStaging_half : (s.clearStaging).half = s.half := rfl
@[simp] theorem clearStaging_chk : (s.clearStaging).chk = s.chk := rfl
@[simp] theorem clearStaging_cnt : (s.clearStaging).cnt = s.cnt := rfl
@[simp] theorem clearStaging_syncV : (s.clearStaging).syncV = s.syncV := rfl
@[simp] theorem clearStaging_upc : (s.clearStaging).upc = s.upc := rfl
@[simp] theorem clearStaging_uw : (s.clearStaging).uw = s.uw := rfl
@[simp] theorem clearStaging_frameHdr : (s.clearStaging).frameHdr = s.frameHdr := rfl
@[simp] theorem clearStaging_cmd : (s.clearStaging).cmd = s.cmd := rfl
@[simp] theorem clearStaging_rsp : (s.clearStaging).rsp = s.rsp := rfl
@[simp] theorem clearStaging_unitOut : (s.clearStaging).unitOut = s.unitOut := rfl
@[simp] theorem clearStaging_host : (s.clearStaging).host = s.host := rfl

end

/-! ### resetBlock: Every field of the block at its reset value; the parameters and the host stay. -/

section

variable (s : State)

@[simp] theorem resetBlock_cfg : (s.resetBlock).cfg = s.cfg := rfl
@[simp] theorem resetBlock_mode : (s.resetBlock).mode = State.reset.mode := rfl
@[simp] theorem resetBlock_name : (s.resetBlock).name = State.reset.name := rfl
@[simp] theorem resetBlock_nameLen : (s.resetBlock).nameLen = State.reset.nameLen := rfl
@[simp] theorem resetBlock_dotSeen : (s.resetBlock).dotSeen = State.reset.dotSeen := rfl
@[simp] theorem resetBlock_nover : (s.resetBlock).nover = State.reset.nover := rfl
@[simp] theorem resetBlock_img : (s.resetBlock).img = State.reset.img := rfl
@[simp] theorem resetBlock_imgLen : (s.resetBlock).imgLen = State.reset.imgLen := rfl
@[simp] theorem resetBlock_imgOvf : (s.resetBlock).imgOvf = State.reset.imgOvf := rfl
@[simp] theorem resetBlock_cb : (s.resetBlock).cb = State.reset.cb := rfl
@[simp] theorem resetBlock_startAddr : (s.resetBlock).startAddr = State.reset.startAddr := rfl
@[simp] theorem resetBlock_endAddr : (s.resetBlock).endAddr = State.reset.endAddr := rfl
@[simp] theorem resetBlock_blockType : (s.resetBlock).blockType = State.reset.blockType := rfl
@[simp] theorem resetBlock_pay : (s.resetBlock).pay = State.reset.pay := rfl
@[simp] theorem resetBlock_payLen : (s.resetBlock).payLen = State.reset.payLen := rfl
@[simp] theorem resetBlock_out : (s.resetBlock).out = State.reset.out := rfl
@[simp] theorem resetBlock_wLabel : (s.resetBlock).wLabel = State.reset.wLabel := rfl
@[simp] theorem resetBlock_errSeen : (s.resetBlock).errSeen = State.reset.errSeen := rfl
@[simp] theorem resetBlock_lastRsp : (s.resetBlock).lastRsp = State.reset.lastRsp := rfl
@[simp] theorem resetBlock_cur : (s.resetBlock).cur = State.reset.cur := rfl
@[simp] theorem resetBlock_bix : (s.resetBlock).bix = State.reset.bix := rfl
@[simp] theorem resetBlock_par : (s.resetBlock).par = State.reset.par := rfl
@[simp] theorem resetBlock_half : (s.resetBlock).half = State.reset.half := rfl
@[simp] theorem resetBlock_chk : (s.resetBlock).chk = State.reset.chk := rfl
@[simp] theorem resetBlock_cnt : (s.resetBlock).cnt = State.reset.cnt := rfl
@[simp] theorem resetBlock_syncV : (s.resetBlock).syncV = State.reset.syncV := rfl
@[simp] theorem resetBlock_upc : (s.resetBlock).upc = State.reset.upc := rfl
@[simp] theorem resetBlock_uw : (s.resetBlock).uw = State.reset.uw := rfl
@[simp] theorem resetBlock_frameHdr : (s.resetBlock).frameHdr = State.reset.frameHdr := rfl
@[simp] theorem resetBlock_cmd : (s.resetBlock).cmd = State.reset.cmd := rfl
@[simp] theorem resetBlock_rsp : (s.resetBlock).rsp = State.reset.rsp := rfl
@[simp] theorem resetBlock_unitOut : (s.resetBlock).unitOut = State.reset.unitOut := rfl
@[simp] theorem resetBlock_host : (s.resetBlock).host = s.host := rfl

end

/-! ### appended: PAY and PAYLEN. -/

section

variable (s : State) (vs : List Byte)

@[simp] theorem appended_cfg : (s.appended vs).cfg = s.cfg := rfl
@[simp] theorem appended_mode : (s.appended vs).mode = s.mode := rfl
@[simp] theorem appended_name : (s.appended vs).name = s.name := rfl
@[simp] theorem appended_nameLen : (s.appended vs).nameLen = s.nameLen := rfl
@[simp] theorem appended_dotSeen : (s.appended vs).dotSeen = s.dotSeen := rfl
@[simp] theorem appended_nover : (s.appended vs).nover = s.nover := rfl
@[simp] theorem appended_img : (s.appended vs).img = s.img := rfl
@[simp] theorem appended_imgLen : (s.appended vs).imgLen = s.imgLen := rfl
@[simp] theorem appended_imgOvf : (s.appended vs).imgOvf = s.imgOvf := rfl
@[simp] theorem appended_cb : (s.appended vs).cb = s.cb := rfl
@[simp] theorem appended_startAddr : (s.appended vs).startAddr = s.startAddr := rfl
@[simp] theorem appended_endAddr : (s.appended vs).endAddr = s.endAddr := rfl
@[simp] theorem appended_blockType : (s.appended vs).blockType = s.blockType := rfl
@[simp] theorem appended_pay : (s.appended vs).pay = s.pay.store s.payLen vs := rfl
@[simp] theorem appended_payLen : (s.appended vs).payLen = s.payLen + vs.length := rfl
@[simp] theorem appended_out : (s.appended vs).out = s.out := rfl
@[simp] theorem appended_wLabel : (s.appended vs).wLabel = s.wLabel := rfl
@[simp] theorem appended_errSeen : (s.appended vs).errSeen = s.errSeen := rfl
@[simp] theorem appended_lastRsp : (s.appended vs).lastRsp = s.lastRsp := rfl
@[simp] theorem appended_cur : (s.appended vs).cur = s.cur := rfl
@[simp] theorem appended_bix : (s.appended vs).bix = s.bix := rfl
@[simp] theorem appended_par : (s.appended vs).par = s.par := rfl
@[simp] theorem appended_half : (s.appended vs).half = s.half := rfl
@[simp] theorem appended_chk : (s.appended vs).chk = s.chk := rfl
@[simp] theorem appended_cnt : (s.appended vs).cnt = s.cnt := rfl
@[simp] theorem appended_syncV : (s.appended vs).syncV = s.syncV := rfl
@[simp] theorem appended_upc : (s.appended vs).upc = s.upc := rfl
@[simp] theorem appended_uw : (s.appended vs).uw = s.uw := rfl
@[simp] theorem appended_frameHdr : (s.appended vs).frameHdr = s.frameHdr := rfl
@[simp] theorem appended_cmd : (s.appended vs).cmd = s.cmd := rfl
@[simp] theorem appended_rsp : (s.appended vs).rsp = s.rsp := rfl
@[simp] theorem appended_unitOut : (s.appended vs).unitOut = s.unitOut := rfl
@[simp] theorem appended_host : (s.appended vs).host = s.host := rfl

end

/-! ### setUnitOut: The unit's output. -/

section

variable (s : State) (vs : List Byte)

@[simp] theorem setUnitOut_cfg : (s.setUnitOut vs).cfg = s.cfg := rfl
@[simp] theorem setUnitOut_mode : (s.setUnitOut vs).mode = s.mode := rfl
@[simp] theorem setUnitOut_name : (s.setUnitOut vs).name = s.name := rfl
@[simp] theorem setUnitOut_nameLen : (s.setUnitOut vs).nameLen = s.nameLen := rfl
@[simp] theorem setUnitOut_dotSeen : (s.setUnitOut vs).dotSeen = s.dotSeen := rfl
@[simp] theorem setUnitOut_nover : (s.setUnitOut vs).nover = s.nover := rfl
@[simp] theorem setUnitOut_img : (s.setUnitOut vs).img = s.img := rfl
@[simp] theorem setUnitOut_imgLen : (s.setUnitOut vs).imgLen = s.imgLen := rfl
@[simp] theorem setUnitOut_imgOvf : (s.setUnitOut vs).imgOvf = s.imgOvf := rfl
@[simp] theorem setUnitOut_cb : (s.setUnitOut vs).cb = s.cb := rfl
@[simp] theorem setUnitOut_startAddr : (s.setUnitOut vs).startAddr = s.startAddr := rfl
@[simp] theorem setUnitOut_endAddr : (s.setUnitOut vs).endAddr = s.endAddr := rfl
@[simp] theorem setUnitOut_blockType : (s.setUnitOut vs).blockType = s.blockType := rfl
@[simp] theorem setUnitOut_pay : (s.setUnitOut vs).pay = s.pay := rfl
@[simp] theorem setUnitOut_payLen : (s.setUnitOut vs).payLen = s.payLen := rfl
@[simp] theorem setUnitOut_out : (s.setUnitOut vs).out = s.out := rfl
@[simp] theorem setUnitOut_wLabel : (s.setUnitOut vs).wLabel = s.wLabel := rfl
@[simp] theorem setUnitOut_errSeen : (s.setUnitOut vs).errSeen = s.errSeen := rfl
@[simp] theorem setUnitOut_lastRsp : (s.setUnitOut vs).lastRsp = s.lastRsp := rfl
@[simp] theorem setUnitOut_cur : (s.setUnitOut vs).cur = s.cur := rfl
@[simp] theorem setUnitOut_bix : (s.setUnitOut vs).bix = s.bix := rfl
@[simp] theorem setUnitOut_par : (s.setUnitOut vs).par = s.par := rfl
@[simp] theorem setUnitOut_half : (s.setUnitOut vs).half = s.half := rfl
@[simp] theorem setUnitOut_chk : (s.setUnitOut vs).chk = s.chk := rfl
@[simp] theorem setUnitOut_cnt : (s.setUnitOut vs).cnt = s.cnt := rfl
@[simp] theorem setUnitOut_syncV : (s.setUnitOut vs).syncV = s.syncV := rfl
@[simp] theorem setUnitOut_upc : (s.setUnitOut vs).upc = s.upc := rfl
@[simp] theorem setUnitOut_uw : (s.setUnitOut vs).uw = s.uw := rfl
@[simp] theorem setUnitOut_frameHdr : (s.setUnitOut vs).frameHdr = s.frameHdr := rfl
@[simp] theorem setUnitOut_cmd : (s.setUnitOut vs).cmd = s.cmd := rfl
@[simp] theorem setUnitOut_rsp : (s.setUnitOut vs).rsp = s.rsp := rfl
@[simp] theorem setUnitOut_unitOut : (s.setUnitOut vs).unitOut = vs := rfl
@[simp] theorem setUnitOut_host : (s.setUnitOut vs).host = s.host := rfl

end

/-! ### framed: The byte encoder's registers. -/

section

variable (s : State) (bytes : List Byte)

@[simp] theorem framed_cfg : (s.framed bytes).cfg = s.cfg := rfl
@[simp] theorem framed_mode : (s.framed bytes).mode = s.mode := rfl
@[simp] theorem framed_name : (s.framed bytes).name = s.name := rfl
@[simp] theorem framed_nameLen : (s.framed bytes).nameLen = s.nameLen := rfl
@[simp] theorem framed_dotSeen : (s.framed bytes).dotSeen = s.dotSeen := rfl
@[simp] theorem framed_nover : (s.framed bytes).nover = s.nover := rfl
@[simp] theorem framed_img : (s.framed bytes).img = s.img := rfl
@[simp] theorem framed_imgLen : (s.framed bytes).imgLen = s.imgLen := rfl
@[simp] theorem framed_imgOvf : (s.framed bytes).imgOvf = s.imgOvf := rfl
@[simp] theorem framed_cb : (s.framed bytes).cb = s.cb := rfl
@[simp] theorem framed_startAddr : (s.framed bytes).startAddr = s.startAddr := rfl
@[simp] theorem framed_endAddr : (s.framed bytes).endAddr = s.endAddr := rfl
@[simp] theorem framed_blockType : (s.framed bytes).blockType = s.blockType := rfl
@[simp] theorem framed_pay : (s.framed bytes).pay = s.pay := rfl
@[simp] theorem framed_payLen : (s.framed bytes).payLen = s.payLen := rfl
@[simp] theorem framed_out : (s.framed bytes).out = s.out := rfl
@[simp] theorem framed_wLabel : (s.framed bytes).wLabel = s.wLabel := rfl
@[simp] theorem framed_errSeen : (s.framed bytes).errSeen = s.errSeen := rfl
@[simp] theorem framed_lastRsp : (s.framed bytes).lastRsp = s.lastRsp := rfl
@[simp] theorem framed_cur : (s.framed bytes).cur = bytes.getLastD s.cur := rfl
@[simp] theorem framed_bix : (s.framed bytes).bix = (if bytes.isEmpty then s.bix else 8) := rfl
@[simp] theorem framed_par : (s.framed bytes).par = (if bytes.isEmpty then s.par else parityBit (bytes.getLastD 0)) := rfl
@[simp] theorem framed_half : (s.framed bytes).half = (if bytes.isEmpty then s.half else Config.halfAfterFrame (bytes.getLastD 0)) := rfl
@[simp] theorem framed_chk : (s.framed bytes).chk = s.chk := rfl
@[simp] theorem framed_cnt : (s.framed bytes).cnt = s.cnt := rfl
@[simp] theorem framed_syncV : (s.framed bytes).syncV = s.syncV := rfl
@[simp] theorem framed_upc : (s.framed bytes).upc = s.upc := rfl
@[simp] theorem framed_uw : (s.framed bytes).uw = s.uw := rfl
@[simp] theorem framed_frameHdr : (s.framed bytes).frameHdr = s.frameHdr := rfl
@[simp] theorem framed_cmd : (s.framed bytes).cmd = s.cmd := rfl
@[simp] theorem framed_rsp : (s.framed bytes).rsp = s.rsp := rfl
@[simp] theorem framed_unitOut : (s.framed bytes).unitOut = s.unitOut := rfl
@[simp] theorem framed_host : (s.framed bytes).host = s.host := rfl

end

/-! ### summed: CHK. -/

section

variable (s : State) (bytes : List Byte)

@[simp] theorem summed_cfg : (s.summed bytes).cfg = s.cfg := rfl
@[simp] theorem summed_mode : (s.summed bytes).mode = s.mode := rfl
@[simp] theorem summed_name : (s.summed bytes).name = s.name := rfl
@[simp] theorem summed_nameLen : (s.summed bytes).nameLen = s.nameLen := rfl
@[simp] theorem summed_dotSeen : (s.summed bytes).dotSeen = s.dotSeen := rfl
@[simp] theorem summed_nover : (s.summed bytes).nover = s.nover := rfl
@[simp] theorem summed_img : (s.summed bytes).img = s.img := rfl
@[simp] theorem summed_imgLen : (s.summed bytes).imgLen = s.imgLen := rfl
@[simp] theorem summed_imgOvf : (s.summed bytes).imgOvf = s.imgOvf := rfl
@[simp] theorem summed_cb : (s.summed bytes).cb = s.cb := rfl
@[simp] theorem summed_startAddr : (s.summed bytes).startAddr = s.startAddr := rfl
@[simp] theorem summed_endAddr : (s.summed bytes).endAddr = s.endAddr := rfl
@[simp] theorem summed_blockType : (s.summed bytes).blockType = s.blockType := rfl
@[simp] theorem summed_pay : (s.summed bytes).pay = s.pay := rfl
@[simp] theorem summed_payLen : (s.summed bytes).payLen = s.payLen := rfl
@[simp] theorem summed_out : (s.summed bytes).out = s.out := rfl
@[simp] theorem summed_wLabel : (s.summed bytes).wLabel = s.wLabel := rfl
@[simp] theorem summed_errSeen : (s.summed bytes).errSeen = s.errSeen := rfl
@[simp] theorem summed_lastRsp : (s.summed bytes).lastRsp = s.lastRsp := rfl
@[simp] theorem summed_cur : (s.summed bytes).cur = s.cur := rfl
@[simp] theorem summed_bix : (s.summed bytes).bix = s.bix := rfl
@[simp] theorem summed_par : (s.summed bytes).par = s.par := rfl
@[simp] theorem summed_half : (s.summed bytes).half = s.half := rfl
@[simp] theorem summed_chk : (s.summed bytes).chk = xorsum bytes := rfl
@[simp] theorem summed_cnt : (s.summed bytes).cnt = s.cnt := rfl
@[simp] theorem summed_syncV : (s.summed bytes).syncV = s.syncV := rfl
@[simp] theorem summed_upc : (s.summed bytes).upc = s.upc := rfl
@[simp] theorem summed_uw : (s.summed bytes).uw = s.uw := rfl
@[simp] theorem summed_frameHdr : (s.summed bytes).frameHdr = s.frameHdr := rfl
@[simp] theorem summed_cmd : (s.summed bytes).cmd = s.cmd := rfl
@[simp] theorem summed_rsp : (s.summed bytes).rsp = s.rsp := rfl
@[simp] theorem summed_unitOut : (s.summed bytes).unitOut = s.unitOut := rfl
@[simp] theorem summed_host : (s.summed bytes).host = s.host := rfl

end

/-! ### withHeader: CB and CHK. -/

section

variable (s : State) (t : Byte) (a e : Half) (lab : List Byte)

@[simp] theorem withHeader_cfg : (s.withHeader t a e lab).cfg = s.cfg := rfl
@[simp] theorem withHeader_mode : (s.withHeader t a e lab).mode = s.mode := rfl
@[simp] theorem withHeader_name : (s.withHeader t a e lab).name = s.name := rfl
@[simp] theorem withHeader_nameLen : (s.withHeader t a e lab).nameLen = s.nameLen := rfl
@[simp] theorem withHeader_dotSeen : (s.withHeader t a e lab).dotSeen = s.dotSeen := rfl
@[simp] theorem withHeader_nover : (s.withHeader t a e lab).nover = s.nover := rfl
@[simp] theorem withHeader_img : (s.withHeader t a e lab).img = s.img := rfl
@[simp] theorem withHeader_imgLen : (s.withHeader t a e lab).imgLen = s.imgLen := rfl
@[simp] theorem withHeader_imgOvf : (s.withHeader t a e lab).imgOvf = s.imgOvf := rfl
@[simp] theorem withHeader_cb : (s.withHeader t a e lab).cb = s.cb.store 0 (makeHeader t a e lab) := rfl
@[simp] theorem withHeader_startAddr : (s.withHeader t a e lab).startAddr = s.startAddr := rfl
@[simp] theorem withHeader_endAddr : (s.withHeader t a e lab).endAddr = s.endAddr := rfl
@[simp] theorem withHeader_blockType : (s.withHeader t a e lab).blockType = s.blockType := rfl
@[simp] theorem withHeader_pay : (s.withHeader t a e lab).pay = s.pay := rfl
@[simp] theorem withHeader_payLen : (s.withHeader t a e lab).payLen = s.payLen := rfl
@[simp] theorem withHeader_out : (s.withHeader t a e lab).out = s.out := rfl
@[simp] theorem withHeader_wLabel : (s.withHeader t a e lab).wLabel = s.wLabel := rfl
@[simp] theorem withHeader_errSeen : (s.withHeader t a e lab).errSeen = s.errSeen := rfl
@[simp] theorem withHeader_lastRsp : (s.withHeader t a e lab).lastRsp = s.lastRsp := rfl
@[simp] theorem withHeader_cur : (s.withHeader t a e lab).cur = s.cur := rfl
@[simp] theorem withHeader_bix : (s.withHeader t a e lab).bix = s.bix := rfl
@[simp] theorem withHeader_par : (s.withHeader t a e lab).par = s.par := rfl
@[simp] theorem withHeader_half : (s.withHeader t a e lab).half = s.half := rfl
@[simp] theorem withHeader_chk : (s.withHeader t a e lab).chk = xorsum (headerBody t a e lab) := rfl
@[simp] theorem withHeader_cnt : (s.withHeader t a e lab).cnt = s.cnt := rfl
@[simp] theorem withHeader_syncV : (s.withHeader t a e lab).syncV = s.syncV := rfl
@[simp] theorem withHeader_upc : (s.withHeader t a e lab).upc = s.upc := rfl
@[simp] theorem withHeader_uw : (s.withHeader t a e lab).uw = s.uw := rfl
@[simp] theorem withHeader_frameHdr : (s.withHeader t a e lab).frameHdr = s.frameHdr := rfl
@[simp] theorem withHeader_cmd : (s.withHeader t a e lab).cmd = s.cmd := rfl
@[simp] theorem withHeader_rsp : (s.withHeader t a e lab).rsp = s.rsp := rfl
@[simp] theorem withHeader_unitOut : (s.withHeader t a e lab).unitOut = s.unitOut := rfl
@[simp] theorem withHeader_host : (s.withHeader t a e lab).host = s.host := rfl

end

/-! ### withAddrs: TYPE, START and END. -/

section

variable (s : State) (t : Byte) (a e : Half)

@[simp] theorem withAddrs_cfg : (s.withAddrs t a e).cfg = s.cfg := rfl
@[simp] theorem withAddrs_mode : (s.withAddrs t a e).mode = s.mode := rfl
@[simp] theorem withAddrs_name : (s.withAddrs t a e).name = s.name := rfl
@[simp] theorem withAddrs_nameLen : (s.withAddrs t a e).nameLen = s.nameLen := rfl
@[simp] theorem withAddrs_dotSeen : (s.withAddrs t a e).dotSeen = s.dotSeen := rfl
@[simp] theorem withAddrs_nover : (s.withAddrs t a e).nover = s.nover := rfl
@[simp] theorem withAddrs_img : (s.withAddrs t a e).img = s.img := rfl
@[simp] theorem withAddrs_imgLen : (s.withAddrs t a e).imgLen = s.imgLen := rfl
@[simp] theorem withAddrs_imgOvf : (s.withAddrs t a e).imgOvf = s.imgOvf := rfl
@[simp] theorem withAddrs_cb : (s.withAddrs t a e).cb = s.cb := rfl
@[simp] theorem withAddrs_startAddr : (s.withAddrs t a e).startAddr = a := rfl
@[simp] theorem withAddrs_endAddr : (s.withAddrs t a e).endAddr = e := rfl
@[simp] theorem withAddrs_blockType : (s.withAddrs t a e).blockType = t := rfl
@[simp] theorem withAddrs_pay : (s.withAddrs t a e).pay = s.pay := rfl
@[simp] theorem withAddrs_payLen : (s.withAddrs t a e).payLen = s.payLen := rfl
@[simp] theorem withAddrs_out : (s.withAddrs t a e).out = s.out := rfl
@[simp] theorem withAddrs_wLabel : (s.withAddrs t a e).wLabel = s.wLabel := rfl
@[simp] theorem withAddrs_errSeen : (s.withAddrs t a e).errSeen = s.errSeen := rfl
@[simp] theorem withAddrs_lastRsp : (s.withAddrs t a e).lastRsp = s.lastRsp := rfl
@[simp] theorem withAddrs_cur : (s.withAddrs t a e).cur = s.cur := rfl
@[simp] theorem withAddrs_bix : (s.withAddrs t a e).bix = s.bix := rfl
@[simp] theorem withAddrs_par : (s.withAddrs t a e).par = s.par := rfl
@[simp] theorem withAddrs_half : (s.withAddrs t a e).half = s.half := rfl
@[simp] theorem withAddrs_chk : (s.withAddrs t a e).chk = s.chk := rfl
@[simp] theorem withAddrs_cnt : (s.withAddrs t a e).cnt = s.cnt := rfl
@[simp] theorem withAddrs_syncV : (s.withAddrs t a e).syncV = s.syncV := rfl
@[simp] theorem withAddrs_upc : (s.withAddrs t a e).upc = s.upc := rfl
@[simp] theorem withAddrs_uw : (s.withAddrs t a e).uw = s.uw := rfl
@[simp] theorem withAddrs_frameHdr : (s.withAddrs t a e).frameHdr = s.frameHdr := rfl
@[simp] theorem withAddrs_cmd : (s.withAddrs t a e).cmd = s.cmd := rfl
@[simp] theorem withAddrs_rsp : (s.withAddrs t a e).rsp = s.rsp := rfl
@[simp] theorem withAddrs_unitOut : (s.withAddrs t a e).unitOut = s.unitOut := rfl
@[simp] theorem withAddrs_host : (s.withAddrs t a e).host = s.host := rfl

end

/-! ### nextUop: UPC. -/

section

variable (s : State)

@[simp] theorem nextUop_cfg : (s.nextUop).cfg = s.cfg := rfl
@[simp] theorem nextUop_mode : (s.nextUop).mode = s.mode := rfl
@[simp] theorem nextUop_name : (s.nextUop).name = s.name := rfl
@[simp] theorem nextUop_nameLen : (s.nextUop).nameLen = s.nameLen := rfl
@[simp] theorem nextUop_dotSeen : (s.nextUop).dotSeen = s.dotSeen := rfl
@[simp] theorem nextUop_nover : (s.nextUop).nover = s.nover := rfl
@[simp] theorem nextUop_img : (s.nextUop).img = s.img := rfl
@[simp] theorem nextUop_imgLen : (s.nextUop).imgLen = s.imgLen := rfl
@[simp] theorem nextUop_imgOvf : (s.nextUop).imgOvf = s.imgOvf := rfl
@[simp] theorem nextUop_cb : (s.nextUop).cb = s.cb := rfl
@[simp] theorem nextUop_startAddr : (s.nextUop).startAddr = s.startAddr := rfl
@[simp] theorem nextUop_endAddr : (s.nextUop).endAddr = s.endAddr := rfl
@[simp] theorem nextUop_blockType : (s.nextUop).blockType = s.blockType := rfl
@[simp] theorem nextUop_pay : (s.nextUop).pay = s.pay := rfl
@[simp] theorem nextUop_payLen : (s.nextUop).payLen = s.payLen := rfl
@[simp] theorem nextUop_out : (s.nextUop).out = s.out := rfl
@[simp] theorem nextUop_wLabel : (s.nextUop).wLabel = s.wLabel := rfl
@[simp] theorem nextUop_errSeen : (s.nextUop).errSeen = s.errSeen := rfl
@[simp] theorem nextUop_lastRsp : (s.nextUop).lastRsp = s.lastRsp := rfl
@[simp] theorem nextUop_cur : (s.nextUop).cur = s.cur := rfl
@[simp] theorem nextUop_bix : (s.nextUop).bix = s.bix := rfl
@[simp] theorem nextUop_par : (s.nextUop).par = s.par := rfl
@[simp] theorem nextUop_half : (s.nextUop).half = s.half := rfl
@[simp] theorem nextUop_chk : (s.nextUop).chk = s.chk := rfl
@[simp] theorem nextUop_cnt : (s.nextUop).cnt = s.cnt := rfl
@[simp] theorem nextUop_syncV : (s.nextUop).syncV = s.syncV := rfl
@[simp] theorem nextUop_upc : (s.nextUop).upc = upcNext s.upc := rfl
@[simp] theorem nextUop_uw : (s.nextUop).uw = s.uw := rfl
@[simp] theorem nextUop_frameHdr : (s.nextUop).frameHdr = s.frameHdr := rfl
@[simp] theorem nextUop_cmd : (s.nextUop).cmd = s.cmd := rfl
@[simp] theorem nextUop_rsp : (s.nextUop).rsp = s.rsp := rfl
@[simp] theorem nextUop_unitOut : (s.nextUop).unitOut = s.unitOut := rfl
@[simp] theorem nextUop_host : (s.nextUop).host = s.host := rfl

end

/-! ### counted: CNT. -/

section

variable (s : State)

@[simp] theorem counted_cfg : (s.counted).cfg = s.cfg := rfl
@[simp] theorem counted_mode : (s.counted).mode = s.mode := rfl
@[simp] theorem counted_name : (s.counted).name = s.name := rfl
@[simp] theorem counted_nameLen : (s.counted).nameLen = s.nameLen := rfl
@[simp] theorem counted_dotSeen : (s.counted).dotSeen = s.dotSeen := rfl
@[simp] theorem counted_nover : (s.counted).nover = s.nover := rfl
@[simp] theorem counted_img : (s.counted).img = s.img := rfl
@[simp] theorem counted_imgLen : (s.counted).imgLen = s.imgLen := rfl
@[simp] theorem counted_imgOvf : (s.counted).imgOvf = s.imgOvf := rfl
@[simp] theorem counted_cb : (s.counted).cb = s.cb := rfl
@[simp] theorem counted_startAddr : (s.counted).startAddr = s.startAddr := rfl
@[simp] theorem counted_endAddr : (s.counted).endAddr = s.endAddr := rfl
@[simp] theorem counted_blockType : (s.counted).blockType = s.blockType := rfl
@[simp] theorem counted_pay : (s.counted).pay = s.pay := rfl
@[simp] theorem counted_payLen : (s.counted).payLen = s.payLen := rfl
@[simp] theorem counted_out : (s.counted).out = s.out := rfl
@[simp] theorem counted_wLabel : (s.counted).wLabel = s.wLabel := rfl
@[simp] theorem counted_errSeen : (s.counted).errSeen = s.errSeen := rfl
@[simp] theorem counted_lastRsp : (s.counted).lastRsp = s.lastRsp := rfl
@[simp] theorem counted_cur : (s.counted).cur = s.cur := rfl
@[simp] theorem counted_bix : (s.counted).bix = s.bix := rfl
@[simp] theorem counted_par : (s.counted).par = s.par := rfl
@[simp] theorem counted_half : (s.counted).half = s.half := rfl
@[simp] theorem counted_chk : (s.counted).chk = s.chk := rfl
@[simp] theorem counted_cnt : (s.counted).cnt = 0 := rfl
@[simp] theorem counted_syncV : (s.counted).syncV = s.syncV := rfl
@[simp] theorem counted_upc : (s.counted).upc = s.upc := rfl
@[simp] theorem counted_uw : (s.counted).uw = s.uw := rfl
@[simp] theorem counted_frameHdr : (s.counted).frameHdr = s.frameHdr := rfl
@[simp] theorem counted_cmd : (s.counted).cmd = s.cmd := rfl
@[simp] theorem counted_rsp : (s.counted).rsp = s.rsp := rfl
@[simp] theorem counted_unitOut : (s.counted).unitOut = s.unitOut := rfl
@[simp] theorem counted_host : (s.counted).host = s.host := rfl

end

/-! ### synced: SYNCV. -/

section

variable (s : State) (base : Half)

@[simp] theorem synced_cfg : (s.synced base).cfg = s.cfg := rfl
@[simp] theorem synced_mode : (s.synced base).mode = s.mode := rfl
@[simp] theorem synced_name : (s.synced base).name = s.name := rfl
@[simp] theorem synced_nameLen : (s.synced base).nameLen = s.nameLen := rfl
@[simp] theorem synced_dotSeen : (s.synced base).dotSeen = s.dotSeen := rfl
@[simp] theorem synced_nover : (s.synced base).nover = s.nover := rfl
@[simp] theorem synced_img : (s.synced base).img = s.img := rfl
@[simp] theorem synced_imgLen : (s.synced base).imgLen = s.imgLen := rfl
@[simp] theorem synced_imgOvf : (s.synced base).imgOvf = s.imgOvf := rfl
@[simp] theorem synced_cb : (s.synced base).cb = s.cb := rfl
@[simp] theorem synced_startAddr : (s.synced base).startAddr = s.startAddr := rfl
@[simp] theorem synced_endAddr : (s.synced base).endAddr = s.endAddr := rfl
@[simp] theorem synced_blockType : (s.synced base).blockType = s.blockType := rfl
@[simp] theorem synced_pay : (s.synced base).pay = s.pay := rfl
@[simp] theorem synced_payLen : (s.synced base).payLen = s.payLen := rfl
@[simp] theorem synced_out : (s.synced base).out = s.out := rfl
@[simp] theorem synced_wLabel : (s.synced base).wLabel = s.wLabel := rfl
@[simp] theorem synced_errSeen : (s.synced base).errSeen = s.errSeen := rfl
@[simp] theorem synced_lastRsp : (s.synced base).lastRsp = s.lastRsp := rfl
@[simp] theorem synced_cur : (s.synced base).cur = s.cur := rfl
@[simp] theorem synced_bix : (s.synced base).bix = s.bix := rfl
@[simp] theorem synced_par : (s.synced base).par = s.par := rfl
@[simp] theorem synced_half : (s.synced base).half = s.half := rfl
@[simp] theorem synced_chk : (s.synced base).chk = s.chk := rfl
@[simp] theorem synced_cnt : (s.synced base).cnt = s.cnt := rfl
@[simp] theorem synced_syncV : (s.synced base).syncV = syncLast base := rfl
@[simp] theorem synced_upc : (s.synced base).upc = s.upc := rfl
@[simp] theorem synced_uw : (s.synced base).uw = s.uw := rfl
@[simp] theorem synced_frameHdr : (s.synced base).frameHdr = s.frameHdr := rfl
@[simp] theorem synced_cmd : (s.synced base).cmd = s.cmd := rfl
@[simp] theorem synced_rsp : (s.synced base).rsp = s.rsp := rfl
@[simp] theorem synced_unitOut : (s.synced base).unitOut = s.unitOut := rfl
@[simp] theorem synced_host : (s.synced base).host = s.host := rfl

end

/-! ### refetch: The fetched micro-word. -/

section

variable (s : State)

@[simp] theorem refetch_cfg : (s.refetch).cfg = s.cfg := rfl
@[simp] theorem refetch_mode : (s.refetch).mode = s.mode := rfl
@[simp] theorem refetch_name : (s.refetch).name = s.name := rfl
@[simp] theorem refetch_nameLen : (s.refetch).nameLen = s.nameLen := rfl
@[simp] theorem refetch_dotSeen : (s.refetch).dotSeen = s.dotSeen := rfl
@[simp] theorem refetch_nover : (s.refetch).nover = s.nover := rfl
@[simp] theorem refetch_img : (s.refetch).img = s.img := rfl
@[simp] theorem refetch_imgLen : (s.refetch).imgLen = s.imgLen := rfl
@[simp] theorem refetch_imgOvf : (s.refetch).imgOvf = s.imgOvf := rfl
@[simp] theorem refetch_cb : (s.refetch).cb = s.cb := rfl
@[simp] theorem refetch_startAddr : (s.refetch).startAddr = s.startAddr := rfl
@[simp] theorem refetch_endAddr : (s.refetch).endAddr = s.endAddr := rfl
@[simp] theorem refetch_blockType : (s.refetch).blockType = s.blockType := rfl
@[simp] theorem refetch_pay : (s.refetch).pay = s.pay := rfl
@[simp] theorem refetch_payLen : (s.refetch).payLen = s.payLen := rfl
@[simp] theorem refetch_out : (s.refetch).out = s.out := rfl
@[simp] theorem refetch_wLabel : (s.refetch).wLabel = s.wLabel := rfl
@[simp] theorem refetch_errSeen : (s.refetch).errSeen = s.errSeen := rfl
@[simp] theorem refetch_lastRsp : (s.refetch).lastRsp = s.lastRsp := rfl
@[simp] theorem refetch_cur : (s.refetch).cur = s.cur := rfl
@[simp] theorem refetch_bix : (s.refetch).bix = s.bix := rfl
@[simp] theorem refetch_par : (s.refetch).par = s.par := rfl
@[simp] theorem refetch_half : (s.refetch).half = s.half := rfl
@[simp] theorem refetch_chk : (s.refetch).chk = s.chk := rfl
@[simp] theorem refetch_cnt : (s.refetch).cnt = s.cnt := rfl
@[simp] theorem refetch_syncV : (s.refetch).syncV = s.syncV := rfl
@[simp] theorem refetch_upc : (s.refetch).upc = s.upc := rfl
@[simp] theorem refetch_uw : (s.refetch).uw = s.uw.map (fun _ => uromAt s.upc) := rfl
@[simp] theorem refetch_frameHdr : (s.refetch).frameHdr = s.frameHdr := rfl
@[simp] theorem refetch_cmd : (s.refetch).cmd = s.cmd := rfl
@[simp] theorem refetch_rsp : (s.refetch).rsp = s.rsp := rfl
@[simp] theorem refetch_unitOut : (s.refetch).unitOut = s.unitOut := rfl
@[simp] theorem refetch_host : (s.refetch).host = s.host := rfl

end

/-! ### enterProg: UPC and the fetched micro-word. -/

section

variable (s : State) (entry : BitVec 5)

@[simp] theorem enterProg_cfg : (s.enterProg entry).cfg = s.cfg := rfl
@[simp] theorem enterProg_mode : (s.enterProg entry).mode = s.mode := rfl
@[simp] theorem enterProg_name : (s.enterProg entry).name = s.name := rfl
@[simp] theorem enterProg_nameLen : (s.enterProg entry).nameLen = s.nameLen := rfl
@[simp] theorem enterProg_dotSeen : (s.enterProg entry).dotSeen = s.dotSeen := rfl
@[simp] theorem enterProg_nover : (s.enterProg entry).nover = s.nover := rfl
@[simp] theorem enterProg_img : (s.enterProg entry).img = s.img := rfl
@[simp] theorem enterProg_imgLen : (s.enterProg entry).imgLen = s.imgLen := rfl
@[simp] theorem enterProg_imgOvf : (s.enterProg entry).imgOvf = s.imgOvf := rfl
@[simp] theorem enterProg_cb : (s.enterProg entry).cb = s.cb := rfl
@[simp] theorem enterProg_startAddr : (s.enterProg entry).startAddr = s.startAddr := rfl
@[simp] theorem enterProg_endAddr : (s.enterProg entry).endAddr = s.endAddr := rfl
@[simp] theorem enterProg_blockType : (s.enterProg entry).blockType = s.blockType := rfl
@[simp] theorem enterProg_pay : (s.enterProg entry).pay = s.pay := rfl
@[simp] theorem enterProg_payLen : (s.enterProg entry).payLen = s.payLen := rfl
@[simp] theorem enterProg_out : (s.enterProg entry).out = s.out := rfl
@[simp] theorem enterProg_wLabel : (s.enterProg entry).wLabel = s.wLabel := rfl
@[simp] theorem enterProg_errSeen : (s.enterProg entry).errSeen = s.errSeen := rfl
@[simp] theorem enterProg_lastRsp : (s.enterProg entry).lastRsp = s.lastRsp := rfl
@[simp] theorem enterProg_cur : (s.enterProg entry).cur = s.cur := rfl
@[simp] theorem enterProg_bix : (s.enterProg entry).bix = s.bix := rfl
@[simp] theorem enterProg_par : (s.enterProg entry).par = s.par := rfl
@[simp] theorem enterProg_half : (s.enterProg entry).half = s.half := rfl
@[simp] theorem enterProg_chk : (s.enterProg entry).chk = s.chk := rfl
@[simp] theorem enterProg_cnt : (s.enterProg entry).cnt = s.cnt := rfl
@[simp] theorem enterProg_syncV : (s.enterProg entry).syncV = s.syncV := rfl
@[simp] theorem enterProg_upc : (s.enterProg entry).upc = entry := rfl
@[simp] theorem enterProg_uw : (s.enterProg entry).uw = some (uromAt entry) := rfl
@[simp] theorem enterProg_frameHdr : (s.enterProg entry).frameHdr = s.frameHdr := rfl
@[simp] theorem enterProg_cmd : (s.enterProg entry).cmd = s.cmd := rfl
@[simp] theorem enterProg_rsp : (s.enterProg entry).rsp = s.rsp := rfl
@[simp] theorem enterProg_unitOut : (s.enterProg entry).unitOut = s.unitOut := rfl
@[simp] theorem enterProg_host : (s.enterProg entry).host = s.host := rfl

end

/-! ### nameStored: NAME and NAMELEN. -/

section

variable (s : State) (c : Byte)

@[simp] theorem nameStored_cfg : (s.nameStored c).cfg = s.cfg := rfl
@[simp] theorem nameStored_mode : (s.nameStored c).mode = s.mode := rfl
@[simp] theorem nameStored_name : (s.nameStored c).name = s.name.store s.nameLen [c] := rfl
@[simp] theorem nameStored_nameLen : (s.nameStored c).nameLen = s.nameLen + 1 := rfl
@[simp] theorem nameStored_dotSeen : (s.nameStored c).dotSeen = s.dotSeen := rfl
@[simp] theorem nameStored_nover : (s.nameStored c).nover = s.nover := rfl
@[simp] theorem nameStored_img : (s.nameStored c).img = s.img := rfl
@[simp] theorem nameStored_imgLen : (s.nameStored c).imgLen = s.imgLen := rfl
@[simp] theorem nameStored_imgOvf : (s.nameStored c).imgOvf = s.imgOvf := rfl
@[simp] theorem nameStored_cb : (s.nameStored c).cb = s.cb := rfl
@[simp] theorem nameStored_startAddr : (s.nameStored c).startAddr = s.startAddr := rfl
@[simp] theorem nameStored_endAddr : (s.nameStored c).endAddr = s.endAddr := rfl
@[simp] theorem nameStored_blockType : (s.nameStored c).blockType = s.blockType := rfl
@[simp] theorem nameStored_pay : (s.nameStored c).pay = s.pay := rfl
@[simp] theorem nameStored_payLen : (s.nameStored c).payLen = s.payLen := rfl
@[simp] theorem nameStored_out : (s.nameStored c).out = s.out := rfl
@[simp] theorem nameStored_wLabel : (s.nameStored c).wLabel = s.wLabel := rfl
@[simp] theorem nameStored_errSeen : (s.nameStored c).errSeen = s.errSeen := rfl
@[simp] theorem nameStored_lastRsp : (s.nameStored c).lastRsp = s.lastRsp := rfl
@[simp] theorem nameStored_cur : (s.nameStored c).cur = s.cur := rfl
@[simp] theorem nameStored_bix : (s.nameStored c).bix = s.bix := rfl
@[simp] theorem nameStored_par : (s.nameStored c).par = s.par := rfl
@[simp] theorem nameStored_half : (s.nameStored c).half = s.half := rfl
@[simp] theorem nameStored_chk : (s.nameStored c).chk = s.chk := rfl
@[simp] theorem nameStored_cnt : (s.nameStored c).cnt = s.cnt := rfl
@[simp] theorem nameStored_syncV : (s.nameStored c).syncV = s.syncV := rfl
@[simp] theorem nameStored_upc : (s.nameStored c).upc = s.upc := rfl
@[simp] theorem nameStored_uw : (s.nameStored c).uw = s.uw := rfl
@[simp] theorem nameStored_frameHdr : (s.nameStored c).frameHdr = s.frameHdr := rfl
@[simp] theorem nameStored_cmd : (s.nameStored c).cmd = s.cmd := rfl
@[simp] theorem nameStored_rsp : (s.nameStored c).rsp = s.rsp := rfl
@[simp] theorem nameStored_unitOut : (s.nameStored c).unitOut = s.unitOut := rfl
@[simp] theorem nameStored_host : (s.nameStored c).host = s.host := rfl

end

/-! ### imgStored: IMG and IMGLEN. -/

section

variable (s : State) (b : Byte)

@[simp] theorem imgStored_cfg : (s.imgStored b).cfg = s.cfg := rfl
@[simp] theorem imgStored_mode : (s.imgStored b).mode = s.mode := rfl
@[simp] theorem imgStored_name : (s.imgStored b).name = s.name := rfl
@[simp] theorem imgStored_nameLen : (s.imgStored b).nameLen = s.nameLen := rfl
@[simp] theorem imgStored_dotSeen : (s.imgStored b).dotSeen = s.dotSeen := rfl
@[simp] theorem imgStored_nover : (s.imgStored b).nover = s.nover := rfl
@[simp] theorem imgStored_img : (s.imgStored b).img = s.img.store s.imgLen [b] := rfl
@[simp] theorem imgStored_imgLen : (s.imgStored b).imgLen = s.imgLen + 1 := rfl
@[simp] theorem imgStored_imgOvf : (s.imgStored b).imgOvf = s.imgOvf := rfl
@[simp] theorem imgStored_cb : (s.imgStored b).cb = s.cb := rfl
@[simp] theorem imgStored_startAddr : (s.imgStored b).startAddr = s.startAddr := rfl
@[simp] theorem imgStored_endAddr : (s.imgStored b).endAddr = s.endAddr := rfl
@[simp] theorem imgStored_blockType : (s.imgStored b).blockType = s.blockType := rfl
@[simp] theorem imgStored_pay : (s.imgStored b).pay = s.pay := rfl
@[simp] theorem imgStored_payLen : (s.imgStored b).payLen = s.payLen := rfl
@[simp] theorem imgStored_out : (s.imgStored b).out = s.out := rfl
@[simp] theorem imgStored_wLabel : (s.imgStored b).wLabel = s.wLabel := rfl
@[simp] theorem imgStored_errSeen : (s.imgStored b).errSeen = s.errSeen := rfl
@[simp] theorem imgStored_lastRsp : (s.imgStored b).lastRsp = s.lastRsp := rfl
@[simp] theorem imgStored_cur : (s.imgStored b).cur = s.cur := rfl
@[simp] theorem imgStored_bix : (s.imgStored b).bix = s.bix := rfl
@[simp] theorem imgStored_par : (s.imgStored b).par = s.par := rfl
@[simp] theorem imgStored_half : (s.imgStored b).half = s.half := rfl
@[simp] theorem imgStored_chk : (s.imgStored b).chk = s.chk := rfl
@[simp] theorem imgStored_cnt : (s.imgStored b).cnt = s.cnt := rfl
@[simp] theorem imgStored_syncV : (s.imgStored b).syncV = s.syncV := rfl
@[simp] theorem imgStored_upc : (s.imgStored b).upc = s.upc := rfl
@[simp] theorem imgStored_uw : (s.imgStored b).uw = s.uw := rfl
@[simp] theorem imgStored_frameHdr : (s.imgStored b).frameHdr = s.frameHdr := rfl
@[simp] theorem imgStored_cmd : (s.imgStored b).cmd = s.cmd := rfl
@[simp] theorem imgStored_rsp : (s.imgStored b).rsp = s.rsp := rfl
@[simp] theorem imgStored_unitOut : (s.imgStored b).unitOut = s.unitOut := rfl
@[simp] theorem imgStored_host : (s.imgStored b).host = s.host := rfl

end

/-! ### contained: The header generator and OUT. -/

section

variable (s : State) (p : List Byte)

@[simp] theorem contained_cfg : (s.contained p).cfg = s.cfg := rfl
@[simp] theorem contained_mode : (s.contained p).mode = s.mode := rfl
@[simp] theorem contained_name : (s.contained p).name = s.name := rfl
@[simp] theorem contained_nameLen : (s.contained p).nameLen = s.nameLen := rfl
@[simp] theorem contained_dotSeen : (s.contained p).dotSeen = s.dotSeen := rfl
@[simp] theorem contained_nover : (s.contained p).nover = s.nover := rfl
@[simp] theorem contained_img : (s.contained p).img = s.img := rfl
@[simp] theorem contained_imgLen : (s.contained p).imgLen = s.imgLen := rfl
@[simp] theorem contained_imgOvf : (s.contained p).imgOvf = s.imgOvf := rfl
@[simp] theorem contained_cb : (s.contained p).cb = s.cb := rfl
@[simp] theorem contained_startAddr : (s.contained p).startAddr = s.startAddr := rfl
@[simp] theorem contained_endAddr : (s.contained p).endAddr = s.endAddr := rfl
@[simp] theorem contained_blockType : (s.contained p).blockType = s.blockType := rfl
@[simp] theorem contained_pay : (s.contained p).pay = s.pay := rfl
@[simp] theorem contained_payLen : (s.contained p).payLen = s.payLen := rfl
@[simp] theorem contained_out : (s.contained p).out = writeContainer p := rfl
@[simp] theorem contained_wLabel : (s.contained p).wLabel = s.wLabel := rfl
@[simp] theorem contained_errSeen : (s.contained p).errSeen = s.errSeen := rfl
@[simp] theorem contained_lastRsp : (s.contained p).lastRsp = s.lastRsp := rfl
@[simp] theorem contained_cur : (s.contained p).cur = s.cur := rfl
@[simp] theorem contained_bix : (s.contained p).bix = s.bix := rfl
@[simp] theorem contained_par : (s.contained p).par = s.par := rfl
@[simp] theorem contained_half : (s.contained p).half = s.half := rfl
@[simp] theorem contained_chk : (s.contained p).chk = s.chk := rfl
@[simp] theorem contained_cnt : (s.contained p).cnt = s.cnt := rfl
@[simp] theorem contained_syncV : (s.contained p).syncV = s.syncV := rfl
@[simp] theorem contained_upc : (s.contained p).upc = s.upc := rfl
@[simp] theorem contained_uw : (s.contained p).uw = s.uw := rfl
@[simp] theorem contained_frameHdr : (s.contained p).frameHdr = containerHeader p.length := rfl
@[simp] theorem contained_cmd : (s.contained p).cmd = s.cmd := rfl
@[simp] theorem contained_rsp : (s.contained p).rsp = s.rsp := rfl
@[simp] theorem contained_unitOut : (s.contained p).unitOut = s.unitOut := rfl
@[simp] theorem contained_host : (s.contained p).host = s.host := rfl

end

/-! ### popped: OUT and what the host received. -/

section

variable (s : State)

@[simp] theorem popped_cfg : (s.popped).cfg = s.cfg := rfl
@[simp] theorem popped_mode : (s.popped).mode = s.mode := rfl
@[simp] theorem popped_name : (s.popped).name = s.name := rfl
@[simp] theorem popped_nameLen : (s.popped).nameLen = s.nameLen := rfl
@[simp] theorem popped_dotSeen : (s.popped).dotSeen = s.dotSeen := rfl
@[simp] theorem popped_nover : (s.popped).nover = s.nover := rfl
@[simp] theorem popped_img : (s.popped).img = s.img := rfl
@[simp] theorem popped_imgLen : (s.popped).imgLen = s.imgLen := rfl
@[simp] theorem popped_imgOvf : (s.popped).imgOvf = s.imgOvf := rfl
@[simp] theorem popped_cb : (s.popped).cb = s.cb := rfl
@[simp] theorem popped_startAddr : (s.popped).startAddr = s.startAddr := rfl
@[simp] theorem popped_endAddr : (s.popped).endAddr = s.endAddr := rfl
@[simp] theorem popped_blockType : (s.popped).blockType = s.blockType := rfl
@[simp] theorem popped_pay : (s.popped).pay = s.pay := rfl
@[simp] theorem popped_payLen : (s.popped).payLen = s.payLen := rfl
@[simp] theorem popped_out : (s.popped).out = s.out.tail := rfl
@[simp] theorem popped_wLabel : (s.popped).wLabel = s.wLabel := rfl
@[simp] theorem popped_errSeen : (s.popped).errSeen = s.errSeen := rfl
@[simp] theorem popped_lastRsp : (s.popped).lastRsp = s.lastRsp := rfl
@[simp] theorem popped_cur : (s.popped).cur = s.cur := rfl
@[simp] theorem popped_bix : (s.popped).bix = s.bix := rfl
@[simp] theorem popped_par : (s.popped).par = s.par := rfl
@[simp] theorem popped_half : (s.popped).half = s.half := rfl
@[simp] theorem popped_chk : (s.popped).chk = s.chk := rfl
@[simp] theorem popped_cnt : (s.popped).cnt = s.cnt := rfl
@[simp] theorem popped_syncV : (s.popped).syncV = s.syncV := rfl
@[simp] theorem popped_upc : (s.popped).upc = s.upc := rfl
@[simp] theorem popped_uw : (s.popped).uw = s.uw := rfl
@[simp] theorem popped_frameHdr : (s.popped).frameHdr = s.frameHdr := rfl
@[simp] theorem popped_cmd : (s.popped).cmd = s.cmd := rfl
@[simp] theorem popped_rsp : (s.popped).rsp = s.rsp := rfl
@[simp] theorem popped_unitOut : (s.popped).unitOut = s.unitOut := rfl
@[simp] theorem popped_host : (s.popped).host = { s.host with received := s.host.received ++ [(s.outData, s.outLast)] } := rfl

end

/-! ### dropEvent: The host's list of events. -/

section

variable (s : State)

@[simp] theorem dropEvent_cfg : (s.dropEvent).cfg = s.cfg := rfl
@[simp] theorem dropEvent_mode : (s.dropEvent).mode = s.mode := rfl
@[simp] theorem dropEvent_name : (s.dropEvent).name = s.name := rfl
@[simp] theorem dropEvent_nameLen : (s.dropEvent).nameLen = s.nameLen := rfl
@[simp] theorem dropEvent_dotSeen : (s.dropEvent).dotSeen = s.dotSeen := rfl
@[simp] theorem dropEvent_nover : (s.dropEvent).nover = s.nover := rfl
@[simp] theorem dropEvent_img : (s.dropEvent).img = s.img := rfl
@[simp] theorem dropEvent_imgLen : (s.dropEvent).imgLen = s.imgLen := rfl
@[simp] theorem dropEvent_imgOvf : (s.dropEvent).imgOvf = s.imgOvf := rfl
@[simp] theorem dropEvent_cb : (s.dropEvent).cb = s.cb := rfl
@[simp] theorem dropEvent_startAddr : (s.dropEvent).startAddr = s.startAddr := rfl
@[simp] theorem dropEvent_endAddr : (s.dropEvent).endAddr = s.endAddr := rfl
@[simp] theorem dropEvent_blockType : (s.dropEvent).blockType = s.blockType := rfl
@[simp] theorem dropEvent_pay : (s.dropEvent).pay = s.pay := rfl
@[simp] theorem dropEvent_payLen : (s.dropEvent).payLen = s.payLen := rfl
@[simp] theorem dropEvent_out : (s.dropEvent).out = s.out := rfl
@[simp] theorem dropEvent_wLabel : (s.dropEvent).wLabel = s.wLabel := rfl
@[simp] theorem dropEvent_errSeen : (s.dropEvent).errSeen = s.errSeen := rfl
@[simp] theorem dropEvent_lastRsp : (s.dropEvent).lastRsp = s.lastRsp := rfl
@[simp] theorem dropEvent_cur : (s.dropEvent).cur = s.cur := rfl
@[simp] theorem dropEvent_bix : (s.dropEvent).bix = s.bix := rfl
@[simp] theorem dropEvent_par : (s.dropEvent).par = s.par := rfl
@[simp] theorem dropEvent_half : (s.dropEvent).half = s.half := rfl
@[simp] theorem dropEvent_chk : (s.dropEvent).chk = s.chk := rfl
@[simp] theorem dropEvent_cnt : (s.dropEvent).cnt = s.cnt := rfl
@[simp] theorem dropEvent_syncV : (s.dropEvent).syncV = s.syncV := rfl
@[simp] theorem dropEvent_upc : (s.dropEvent).upc = s.upc := rfl
@[simp] theorem dropEvent_uw : (s.dropEvent).uw = s.uw := rfl
@[simp] theorem dropEvent_frameHdr : (s.dropEvent).frameHdr = s.frameHdr := rfl
@[simp] theorem dropEvent_cmd : (s.dropEvent).cmd = s.cmd := rfl
@[simp] theorem dropEvent_rsp : (s.dropEvent).rsp = s.rsp := rfl
@[simp] theorem dropEvent_unitOut : (s.dropEvent).unitOut = s.unitOut := rfl
@[simp] theorem dropEvent_host : (s.dropEvent).host = { s.host with events := s.host.events.tail } := rfl

end

/-! ### latchCommand: The command latch, the sequencer, the response, leading resets. -/

section

variable (s : State) (w : CmdWord)

@[simp] theorem latchCommand_cfg : (s.latchCommand w).cfg = s.cfg := rfl
@[simp] theorem latchCommand_mode : (s.latchCommand w).mode = s.mode := rfl
@[simp] theorem latchCommand_name : (s.latchCommand w).name = s.name := rfl
@[simp] theorem latchCommand_nameLen : (s.latchCommand w).nameLen = s.nameLen := rfl
@[simp] theorem latchCommand_dotSeen : (s.latchCommand w).dotSeen = s.dotSeen := rfl
@[simp] theorem latchCommand_nover : (s.latchCommand w).nover = s.nover := rfl
@[simp] theorem latchCommand_img : (s.latchCommand w).img = s.img := rfl
@[simp] theorem latchCommand_imgLen : (s.latchCommand w).imgLen = s.imgLen := rfl
@[simp] theorem latchCommand_imgOvf : (s.latchCommand w).imgOvf = s.imgOvf := rfl
@[simp] theorem latchCommand_cb : (s.latchCommand w).cb = s.cb := rfl
@[simp] theorem latchCommand_startAddr : (s.latchCommand w).startAddr = s.startAddr := rfl
@[simp] theorem latchCommand_endAddr : (s.latchCommand w).endAddr = s.endAddr := rfl
@[simp] theorem latchCommand_blockType : (s.latchCommand w).blockType = s.blockType := rfl
@[simp] theorem latchCommand_pay : (s.latchCommand w).pay = s.pay := rfl
@[simp] theorem latchCommand_payLen : (s.latchCommand w).payLen = s.payLen := rfl
@[simp] theorem latchCommand_out : (s.latchCommand w).out = s.out := rfl
@[simp] theorem latchCommand_wLabel : (s.latchCommand w).wLabel = s.wLabel := rfl
@[simp] theorem latchCommand_errSeen : (s.latchCommand w).errSeen = s.errSeen := rfl
@[simp] theorem latchCommand_lastRsp : (s.latchCommand w).lastRsp = s.lastRsp := rfl
@[simp] theorem latchCommand_cur : (s.latchCommand w).cur = s.cur := rfl
@[simp] theorem latchCommand_bix : (s.latchCommand w).bix = s.bix := rfl
@[simp] theorem latchCommand_par : (s.latchCommand w).par = s.par := rfl
@[simp] theorem latchCommand_half : (s.latchCommand w).half = s.half := rfl
@[simp] theorem latchCommand_chk : (s.latchCommand w).chk = s.chk := rfl
@[simp] theorem latchCommand_cnt : (s.latchCommand w).cnt = s.cnt := rfl
@[simp] theorem latchCommand_syncV : (s.latchCommand w).syncV = s.syncV := rfl
@[simp] theorem latchCommand_upc : (s.latchCommand w).upc = s.upc := rfl
@[simp] theorem latchCommand_uw : (s.latchCommand w).uw = none := rfl
@[simp] theorem latchCommand_frameHdr : (s.latchCommand w).frameHdr = s.frameHdr := rfl
@[simp] theorem latchCommand_cmd : (s.latchCommand w).cmd = some w := rfl
@[simp] theorem latchCommand_rsp : (s.latchCommand w).rsp = none := rfl
@[simp] theorem latchCommand_unitOut : (s.latchCommand w).unitOut = s.unitOut := rfl
@[simp] theorem latchCommand_host : (s.latchCommand w).host = { s.host with events := s.host.events.dropWhile (· == .rst) } := rfl

end

/-! ### latchMicro: The fetched micro-word, leading resets. -/

section

variable (s : State) (w : MicroWord)

@[simp] theorem latchMicro_cfg : (s.latchMicro w).cfg = s.cfg := rfl
@[simp] theorem latchMicro_mode : (s.latchMicro w).mode = s.mode := rfl
@[simp] theorem latchMicro_name : (s.latchMicro w).name = s.name := rfl
@[simp] theorem latchMicro_nameLen : (s.latchMicro w).nameLen = s.nameLen := rfl
@[simp] theorem latchMicro_dotSeen : (s.latchMicro w).dotSeen = s.dotSeen := rfl
@[simp] theorem latchMicro_nover : (s.latchMicro w).nover = s.nover := rfl
@[simp] theorem latchMicro_img : (s.latchMicro w).img = s.img := rfl
@[simp] theorem latchMicro_imgLen : (s.latchMicro w).imgLen = s.imgLen := rfl
@[simp] theorem latchMicro_imgOvf : (s.latchMicro w).imgOvf = s.imgOvf := rfl
@[simp] theorem latchMicro_cb : (s.latchMicro w).cb = s.cb := rfl
@[simp] theorem latchMicro_startAddr : (s.latchMicro w).startAddr = s.startAddr := rfl
@[simp] theorem latchMicro_endAddr : (s.latchMicro w).endAddr = s.endAddr := rfl
@[simp] theorem latchMicro_blockType : (s.latchMicro w).blockType = s.blockType := rfl
@[simp] theorem latchMicro_pay : (s.latchMicro w).pay = s.pay := rfl
@[simp] theorem latchMicro_payLen : (s.latchMicro w).payLen = s.payLen := rfl
@[simp] theorem latchMicro_out : (s.latchMicro w).out = s.out := rfl
@[simp] theorem latchMicro_wLabel : (s.latchMicro w).wLabel = s.wLabel := rfl
@[simp] theorem latchMicro_errSeen : (s.latchMicro w).errSeen = s.errSeen := rfl
@[simp] theorem latchMicro_lastRsp : (s.latchMicro w).lastRsp = s.lastRsp := rfl
@[simp] theorem latchMicro_cur : (s.latchMicro w).cur = s.cur := rfl
@[simp] theorem latchMicro_bix : (s.latchMicro w).bix = s.bix := rfl
@[simp] theorem latchMicro_par : (s.latchMicro w).par = s.par := rfl
@[simp] theorem latchMicro_half : (s.latchMicro w).half = s.half := rfl
@[simp] theorem latchMicro_chk : (s.latchMicro w).chk = s.chk := rfl
@[simp] theorem latchMicro_cnt : (s.latchMicro w).cnt = s.cnt := rfl
@[simp] theorem latchMicro_syncV : (s.latchMicro w).syncV = s.syncV := rfl
@[simp] theorem latchMicro_upc : (s.latchMicro w).upc = s.upc := rfl
@[simp] theorem latchMicro_uw : (s.latchMicro w).uw = some w := rfl
@[simp] theorem latchMicro_frameHdr : (s.latchMicro w).frameHdr = s.frameHdr := rfl
@[simp] theorem latchMicro_cmd : (s.latchMicro w).cmd = s.cmd := rfl
@[simp] theorem latchMicro_rsp : (s.latchMicro w).rsp = s.rsp := rfl
@[simp] theorem latchMicro_unitOut : (s.latchMicro w).unitOut = s.unitOut := rfl
@[simp] theorem latchMicro_host : (s.latchMicro w).host = { s.host with events := s.host.events.dropWhile (· == .rst) } := rfl

end

/-! ### accept and takeRsp -/

/-- Accepting a command word changes the command latch only. -/
theorem accept_eq (s : State) (w : CmdWord) :
    s.accept w = { s with cmd := if s.cmdReady then some w else s.cmd } := by
  unfold State.accept
  split <;> simp [*]

/-- Taking a response changes the response and the host's record only. -/
theorem takeRsp_eq (s : State) :
    s.takeRsp = { s with
      rsp := none
      host := { s.host with responses := s.host.responses ++ s.rsp.toList } } := by
  unfold State.takeRsp
  split
  · rename_i h
    cases s
    simp_all
  · rename_i h
    simp [h]

end Sys2Proof.Machine
end

