-- ==== Sys2Proof/Laws/Memory.lean ====
section
/-! SUPPORT. The laws of a byte buffer: a read after a write, appending writes, and that every write keeps the
canonical form. -/

namespace Sys2Proof.Machine

open Sys2Proof

theorem read_nil (a : Nat) : Memory.read [] a = Memory.unlisted := rfl

theorem read_cons (c : Host.Cell) (m : Memory) (a : Nat) :
    Memory.read (c :: m) a = if c.1 = a then c.2 else Memory.read m a := rfl

/-- A read passes over cells at other offsets. -/
theorem read_append_of_forall_ne (m n : Memory) (a : Nat) (h : ∀ c ∈ m, c.1 ≠ a) :
    Memory.read (m ++ n) a = Memory.read n a := by
  induction m with
  | nil => rfl
  | cons c m ih =>
    have hc : c.1 ≠ a := h c (by simp)
    simp [read_cons, hc, ih (fun d hd => h d (by simp [hd]))]

/-- A read of a part that is not looked past. -/
theorem read_append_of_forall_ne_right (m n : Memory) (a : Nat) (h : ∀ c ∈ n, c.1 ≠ a) :
    Memory.read (m ++ n) a = Memory.read m a := by
  induction m with
  | nil => simpa using read_append_of_forall_ne n [] a h
  | cons c m ih => simp only [List.cons_append, read_cons, ih]

/-- Dropping cells at other offsets changes no read. -/
theorem read_filter (m : Memory) (a : Nat) (p : Host.Cell → Bool) (h : ∀ c ∈ m, c.1 = a → p c = true) :
    Memory.read (m.filter p) a = Memory.read m a := by
  induction m with
  | nil => rfl
  | cons c m ih =>
    have ih' := ih (fun d hd => h d (by simp [hd]))
    by_cases hp : p c = true
    · simp [hp, read_cons, ih']
    · have hc : c.1 ≠ a := fun e => hp (h c (by simp) e)
      simp [hp, read_cons, hc, ih']

/-- The cells of a run lie inside it and hold no byte an unlisted offset reads as. -/
theorem mem_cells {a : Nat} {vs : List Byte} {c : Host.Cell} (h : c ∈ Memory.cells a vs) :
    a ≤ c.1 ∧ c.1 < a + vs.length ∧ c.2 ≠ Memory.unlisted := by
  induction vs generalizing a with
  | nil => simp [Memory.cells] at h
  | cons v vs ih =>
    unfold Memory.cells at h
    split at h
    · obtain ⟨h1, h2, h3⟩ := ih h
      exact ⟨by omega, by simp only [List.length_cons]; omega, h3⟩
    · rename_i hv
      rcases List.mem_cons.mp h with rfl | h
      · exact ⟨Nat.le_refl _, by simp, hv⟩
      · obtain ⟨h1, h2, h3⟩ := ih h
        exact ⟨by omega, by simp only [List.length_cons]; omega, h3⟩

theorem read_cells (a : Nat) (vs : List Byte) (b : Nat) (h : a ≤ b) :
    Memory.read (Memory.cells a vs) b = vs.getD (b - a) Memory.unlisted := by
  induction vs generalizing a with
  | nil => simp [Memory.cells, read_nil]
  | cons v vs ih =>
    by_cases hb : b = a
    · subst hb
      have hno : Memory.read (Memory.cells (b + 1) vs) b = Memory.unlisted := by
        have := read_append_of_forall_ne (Memory.cells (b + 1) vs) [] b
          (fun c hc => by have := mem_cells hc; omega)
        simpa [read_nil] using this
      unfold Memory.cells
      split
      · rename_i hv; simp [hno, hv]
      · simp [read_cons]
    · have hlt : a + 1 ≤ b := by omega
      have hsub : b - a = (b - (a + 1)) + 1 := by omega
      unfold Memory.cells
      split
      · rw [ih _ hlt, hsub]; simp
      · rw [read_cons, if_neg (by simpa using fun e => hb e.symm), ih _ hlt, hsub]; simp

/-- A read after a write: the written byte inside the run, the old byte outside it. -/
theorem read_store (m : Memory) (a : Nat) (vs : List Byte) (b : Nat) :
    Memory.read (m.store a vs) b =
      if a ≤ b ∧ b < a + vs.length then vs.getD (b - a) Memory.unlisted else Memory.read m b := by
  unfold Memory.store
  by_cases hb : b < a
  · have h1 : ∀ c ∈ m.filter (fun c => decide (a + vs.length ≤ c.1)), c.1 ≠ b := by
      intro c hc; simp at hc; omega
    have h2 : ∀ c ∈ Memory.cells a vs, c.1 ≠ b := fun c hc => by have := mem_cells hc; omega
    rw [read_append_of_forall_ne_right _ _ _ h1, read_append_of_forall_ne_right _ _ _ h2, if_neg (by omega)]
    exact read_filter _ _ _ (fun c _ e => by simpa [e] using hb)
  · have h0 : ∀ c ∈ m.filter (fun c => decide (c.1 < a)), c.1 ≠ b := by
      intro c hc; simp at hc; omega
    rw [List.append_assoc, read_append_of_forall_ne _ _ _ h0]
    by_cases hin : b < a + vs.length
    · have h1 : ∀ c ∈ m.filter (fun c => decide (a + vs.length ≤ c.1)), c.1 ≠ b := by
        intro c hc; simp at hc; omega
      rw [read_append_of_forall_ne_right _ _ _ h1, read_cells _ _ _ (by omega), if_pos (by omega)]
    · have h2 : ∀ c ∈ Memory.cells a vs, c.1 ≠ b := fun c hc => by have := mem_cells hc; omega
      rw [read_append_of_forall_ne _ _ _ h2, if_neg (by omega)]
      exact read_filter _ _ _ (fun c _ e => by simp [e]; omega)

/-- A write leaves every offset outside its run alone. -/
theorem read_store_of_outside (m : Memory) (a : Nat) (vs : List Byte) (b : Nat)
    (h : b < a ∨ a + vs.length ≤ b) : Memory.read (m.store a vs) b = Memory.read m b := by
  rw [read_store, if_neg (by omega)]

theorem cells_pairwise (a : Nat) (vs : List Byte) :
    (Memory.cells a vs).Pairwise (fun c d => c.1 < d.1) := by
  induction vs generalizing a with
  | nil => exact List.Pairwise.nil
  | cons v vs ih =>
    unfold Memory.cells
    split
    · exact ih _
    · exact List.Pairwise.cons (fun d hd => by have := mem_cells hd; simp; omega) (ih _)

/-- Every write keeps the canonical form. -/
theorem store_wf (m : Memory) (a : Nat) (vs : List Byte) (h : m.wf) : (m.store a vs).wf := by
  obtain ⟨hs, hv⟩ := h
  refine ⟨?_, ?_⟩
  · unfold Memory.store
    rw [List.pairwise_append, List.pairwise_append]
    refine ⟨⟨hs.filter _, cells_pairwise _ _, ?_⟩, hs.filter _, ?_⟩
    · intro c hc d hd
      simp at hc
      have := mem_cells hd
      omega
    · intro c hc d hd
      simp at hd
      rcases List.mem_append.mp hc with hc | hc
      · simp at hc; omega
      · have := mem_cells hc; omega
  · intro c hc
    unfold Memory.store at hc
    rcases List.mem_append.mp hc with hc | hc
    · rcases List.mem_append.mp hc with hc | hc
      · exact hv c (List.mem_of_mem_filter hc)
      · exact (mem_cells hc).2.2
    · exact hv c (List.mem_of_mem_filter hc)

/-- A cell after a write is a cell of before or lies where was written. -/
theorem mem_store {m : Memory} {a : Nat} {vs : List Byte} {c : Host.Cell} (h : c ∈ m.store a vs) :
    c ∈ m ∨ (a ≤ c.1 ∧ c.1 < a + vs.length) := by
  simp only [Memory.store, List.mem_append, List.mem_filter] at h
  rcases h with (h | h) | h
  · exact .inl h.1
  · exact .inr ⟨(mem_cells h).1, (mem_cells h).2.1⟩
  · exact .inl h.1

/-- The reset state's buffers are in canonical form. -/
theorem reset_memory_wf : State.reset.name.wf ∧ State.reset.img.wf ∧ State.reset.cb.wf ∧ State.reset.pay.wf := by
  decide

/-- A write of no byte leaves a canonical buffer as it is. -/
theorem store_nil (m : Memory) (a : Nat) (h : m.wf) : m.store a [] = m := by
  obtain ⟨hs, -⟩ := h
  unfold Memory.store
  simp only [Memory.cells, List.append_nil, List.length_nil, Nat.add_zero]
  induction m with
  | nil => rfl
  | cons c m ih =>
    rw [List.pairwise_cons] at hs
    by_cases hc : c.1 < a
    · have : ¬ a ≤ c.1 := by omega
      simp [hc, this, ih hs.2]
    · have h1 : m.filter (fun c => decide (c.1 < a)) = [] := by
        rw [List.filter_eq_nil_iff]
        intro d hd
        have := hs.1 d hd
        simp; omega
      have h2 : m.filter (fun c => decide (a ≤ c.1)) = m := by
        rw [List.filter_eq_self]
        intro d hd
        have := hs.1 d hd
        simp; omega
      have h3 : a ≤ c.1 := by omega
      simp [hc, h1, h2, h3]

theorem cells_append (a : Nat) (vs ws : List Byte) :
    Memory.cells a (vs ++ ws) = Memory.cells a vs ++ Memory.cells (a + vs.length) ws := by
  induction vs generalizing a with
  | nil => simp [Memory.cells]
  | cons v vs ih =>
    simp only [List.cons_append, Memory.cells, List.length_cons]
    have e : a + (vs.length + 1) = a + 1 + vs.length := by omega
    split <;> simp [ih, e]

/-- Two writes one behind the other are one write. -/
theorem store_store (m : Memory) (a : Nat) (vs ws : List Byte) :
    (m.store a vs).store (a + vs.length) ws = m.store a (vs ++ ws) := by
  unfold Memory.store
  have h1 : (Memory.cells a vs).filter (fun c => decide (c.1 < a + vs.length)) = Memory.cells a vs := by
    rw [List.filter_eq_self]
    intro c hc
    have := mem_cells hc
    simp; omega
  have h2 : (Memory.cells a vs).filter (fun c => decide (a + vs.length + ws.length ≤ c.1)) = [] := by
    rw [List.filter_eq_nil_iff]
    intro c hc
    have := mem_cells hc
    simp; omega
  have h3 : ((m.filter (fun c => decide (a + vs.length ≤ c.1))).filter
      (fun c => decide (c.1 < a + vs.length))) = [] := by
    rw [List.filter_eq_nil_iff]
    intro c hc
    simp at hc ⊢; omega
  have h4 : ((m.filter (fun c => decide (c.1 < a))).filter (fun c => decide (c.1 < a + vs.length)))
      = m.filter (fun c => decide (c.1 < a)) := by
    rw [List.filter_eq_self]
    intro c hc
    simp at hc ⊢; omega
  have h5 : ((m.filter (fun c => decide (c.1 < a))).filter
      (fun c => decide (a + vs.length + ws.length ≤ c.1))) = [] := by
    rw [List.filter_eq_nil_iff]
    intro c hc
    simp at hc ⊢; omega
  have h6 : ((m.filter (fun c => decide (a + vs.length ≤ c.1))).filter
      (fun c => decide (a + vs.length + ws.length ≤ c.1)))
      = m.filter (fun c => decide (a + (vs.length + ws.length) ≤ c.1)) := by
    rw [List.filter_filter]
    congr 1
    funext c
    simp only [← Bool.decide_and, decide_eq_decide]
    omega
  simp only [List.filter_append, h1, h2, h3, h4, h5, h6, cells_append, List.length_append, List.append_nil,
    List.nil_append, List.append_assoc]

theorem length_load (m : Memory) (a n : Nat) : (m.load a n).length = n := by simp [Memory.load]

theorem getElem_load (m : Memory) (a n i : Nat) (h : i < (m.load a n).length) :
    (m.load a n)[i] = m.read (a + i) := by simp [Memory.load]

/-- Two loads agree where all their reads do. -/
theorem load_congr (m m' : Memory) (a n : Nat) (h : ∀ b, a ≤ b → b < a + n → m.read b = m'.read b) :
    m.load a n = m'.load a n := by
  unfold Memory.load
  apply List.map_congr_left
  intro i hi
  have := List.mem_range.mp hi
  exact h _ (by omega) (by omega)

/-- A load of exactly what a write wrote. -/
theorem load_store_self (m : Memory) (a : Nat) (vs : List Byte) : (m.store a vs).load a vs.length = vs := by
  apply List.ext_getElem
  · simp [length_load]
  · intro i h1 h2
    rw [getElem_load, read_store, if_pos ⟨by omega, by omega⟩]
    simp [List.getD_eq_getElem?_getD, h2]

/-- A load over what came before a write and the write: the append at the end of a buffer. -/
theorem load_store_append (m : Memory) (a n : Nat) (vs : List Byte) :
    (m.store (a + n) vs).load a (n + vs.length) = m.load a n ++ vs := by
  apply List.ext_getElem
  · simp [length_load]
  · intro i h1 h2
    rw [getElem_load, read_store, List.getElem_append]
    simp only [length_load]
    by_cases hi : i < n
    · rw [if_neg (by omega), dif_pos hi, getElem_load]
    · have hb : a + i - (a + n) = i - n := by omega
      have hlen : i - n < vs.length := by simp [length_load] at h2; omega
      rw [if_pos (by omega), dif_neg hi, hb]
      simp [List.getD_eq_getElem?_getD, hlen]

/-- A load of a part of a buffer that a write does not reach. -/
theorem load_store_of_outside (m : Memory) (a n b : Nat) (vs : List Byte) (h : a + n ≤ b) :
    (m.store b vs).load a n = m.load a n :=
  load_congr _ _ _ _ (fun c _ _ => read_store_of_outside _ _ _ _ (by omega))

end Sys2Proof.Machine
end

