-- ==== Sys2Proof/Laws/Units.lean ====
section
/-! SUPPORT. The laws of the pure unit functions: lengths, concatenation, checksums. -/

namespace Sys2Proof.Machine

open Sys2Proof

@[simp] theorem length_encodeBit (bit : Bool) : (encodeBit bit).length = 2 := by
  cases bit <;> rfl

/-- A byte frame is 20 pulses (R62). -/
@[simp] theorem length_encodeByte (b : Byte) : (encodeByte b).length = 20 := by
  simp [encodeByte, byteMarker, List.length_flatMap]

@[simp] theorem encodeBytes_nil : encodeBytes [] = [] := rfl

@[simp] theorem encodeBytes_cons (b : Byte) (bs : List Byte) :
    encodeBytes (b :: bs) = encodeByte b ++ encodeBytes bs := rfl

/-- No state is carried from one frame to the next (R113). -/
@[simp] theorem encodeBytes_append (xs ys : List Byte) :
    encodeBytes (xs ++ ys) = encodeBytes xs ++ encodeBytes ys := by
  simp [encodeBytes]

/-- k bytes give 20·k pulses (R63). -/
@[simp] theorem length_encodeBytes (bs : List Byte) : (encodeBytes bs).length = 20 * bs.length := by
  induction bs with
  | nil => rfl
  | cons b bs ih => simp [ih]; omega

@[simp] theorem length_dataBlock (d : List Byte) : (dataBlock d).length = d.length + 1 := by
  simp [dataBlock]

@[simp] theorem length_encodeDataBlock (d : List Byte) :
    (encodeDataBlock d).length = 20 * (d.length + 1) := by
  simp [encodeDataBlock]

/-- XORSUM of a sequence and one byte more (R115). -/
@[simp] theorem xorsum_append_singleton (d : List Byte) (b : Byte) : xorsum (d ++ [b]) = xorsum d ^^^ b := by
  simp [xorsum]

/-- MAKE_LABEL is always 16 bytes (R131): TRUNC16 keeps PAD16 within its range. -/
@[simp] theorem length_makeLabel (codes : List Byte) : (makeLabel codes).length = 16 := by
  simp only [makeLabel, pad16, remap, upcase, trunc16, labelLen, List.length_map, List.length_take]
  rw [if_pos (by omega)]
  simp

@[simp] theorem length_headerBody (t : Byte) (a e : Half) (lab : List Byte) :
    (headerBody t a e lab).length = 191 := by
  simp only [headerBody, le16, List.length_append, List.length_cons, List.length_nil, length_makeLabel,
    List.length_replicate, cbPadLen]

/-- A control block is 192 bytes (R70). -/
@[simp] theorem length_makeHeader (t : Byte) (a e : Half) (lab : List Byte) :
    (makeHeader t a e lab).length = 192 := by
  simp [makeHeader]

/-! ### The two addresses (R15, R42, R72) -/

/-- The load address in plain arithmetic (R72). -/
theorem toNat_loadAddr (raw : List Byte) :
    (loadAddr raw).toNat = (raw.getD 0 0).toNat + 256 * (raw.getD 1 0).toNat := by
  have h0 := (raw.getD 0 0).isLt
  have h1 := (raw.getD 1 0).isLt
  rw [loadAddr, BitVec.toNat_ofNat]
  exact Nat.mod_eq_of_lt (by omega)

/-- The end address in plain arithmetic: it wraps (R72). -/
theorem toNat_endAddrOf (startAddr : Half) (n : Nat) :
    (endAddrOf startAddr n).toNat = (startAddr.toNat + n + 1) % 65536 :=
  BitVec.toNat_ofNat ..

/-- The low byte of a u16. -/
theorem toNat_byteOf_zero (v : Nat) : (byteOf v 0).toNat = v % 256 := by
  rw [byteOf, BitVec.toNat_ofNat, Nat.shiftRight_eq_div_pow]
  omega

/-- The next byte. -/
theorem toNat_byteOf_one (v : Nat) : (byteOf v 1).toNat = v / 256 % 256 := by
  rw [byteOf, BitVec.toNat_ofNat, Nat.shiftRight_eq_div_pow]

/-- The two bytes of a u16, the low one first (R42). -/
theorem toNat_le16 (v : Half) : (byteOf v.toNat 0).toNat + 256 * (byteOf v.toNat 1).toNat = v.toNat := by
  have := v.isLt
  rw [toNat_byteOf_zero, toNat_byteOf_one]
  omega

/-- The load address is sent as it came (R42). -/
theorem byteOf_loadAddr (raw : List Byte) :
    byteOf (loadAddr raw).toNat 0 = raw.getD 0 0 ∧ byteOf (loadAddr raw).toNat 1 = raw.getD 1 0 := by
  have h0 := (raw.getD 0 0).isLt
  have h1 := (raw.getD 1 0).isLt
  have h := toNat_loadAddr raw
  constructor <;> apply BitVec.eq_of_toNat_eq
  · rw [toNat_byteOf_zero]; omega
  · rw [toNat_byteOf_one]; omega

/-- The address fields of a control block that has been stored in CB (R42 b, R70). -/
theorem read_store_makeHeader (m : Memory) (t : Byte) (a e : Half) (lab : List Byte) :
    (m.store 0 (makeHeader t a e lab)).read 1 = byteOf a.toNat 0 ∧
    (m.store 0 (makeHeader t a e lab)).read 2 = byteOf a.toNat 1 ∧
    (m.store 0 (makeHeader t a e lab)).read 3 = byteOf e.toNat 0 ∧
    (m.store 0 (makeHeader t a e lab)).read 4 = byteOf e.toNat 1 := by
  simp [read_store, makeHeader, headerBody, le16]

@[simp] theorem length_tone (k : Half) : (tone k).length = k.toNat := by simp [tone]

@[simp] theorem length_syncPrimary : syncPrimary.length = 180 := by simp [syncPrimary]

@[simp] theorem length_syncRepeat : syncRepeat.length = 180 := by simp [syncRepeat, syncRepeatBytes]

theorem length_recMark : recMark.length = 4 := rfl

theorem length_eobMarker : eobMarker.length = 2 := rfl

/-- The tone lengths as numbers (R66). -/
theorem length_tones : leader1Len.toNat = 27136 ∧ leader2Len.toNat = 5376 ∧ gapALen.toNat = 79 ∧
    gapBLen.toNat = 78 ∧ trailerLen.toNat = 904 := by decide

/-- The length of a file region (R166). -/
theorem length_fileRegion (header d : List Byte) (h : header.length = 192) :
    (fileRegion header d).length = fileRegionLen d.length := by
  obtain ⟨h1, h2, h3, h4, h5⟩ := length_tones
  unfold fileRegion fileRegionLen
  repeat rw [List.length_append]
  simp only [length_tone, length_syncPrimary, length_syncRepeat, length_encodeBytes, length_encodeDataBlock,
    length_recMark, length_eobMarker, h, h1, h2, h3, h4, h5]
  omega

/-- The length of an end-of-tape region (R170). -/
theorem length_eotRegion (header : List Byte) (h : header.length = 192) :
    (eotRegion header).length = eotRegionLen := by
  obtain ⟨-, -, h3, -, h5⟩ := length_tones
  unfold eotRegion eotRegionLen
  repeat rw [List.length_append]
  simp only [length_tone, length_syncPrimary, length_syncRepeat, length_encodeBytes, length_eobMarker, h, h3, h5]

/-- The control block of the end-of-tape region (R137). -/
theorem eotHeader_eq :
    eotHeader = ([0x05, 0x00, 0x00, 0x00, 0x00] : List Byte) ++ List.replicate 186 0x20 ++ [0x05] := by
  decide +kernel

/-- Its checksum (R137). -/
theorem xorsum_eotBody : xorsum (headerBody typeEot 0 0 []) = 0x05 := by decide +kernel

/-- PAD16 where R130 states it. -/
theorem pad16_of_le (codes : List Byte) (h : codes.length ≤ 16) :
    pad16 codes = codes ++ List.replicate (16 - codes.length) 0x20 := if_pos h

/-- PAD16 where R130 states nothing (assumption 11). -/
theorem pad16_of_gt (codes : List Byte) (h : 16 < codes.length) : pad16 codes = Config.padLong codes :=
  if_neg (Nat.not_le.mpr h)

/-- TRUNC16 twice is TRUNC16 once (R127). -/
theorem trunc16_trunc16 (codes : List Byte) : trunc16 (trunc16 codes) = trunc16 codes := by
  simp [trunc16, List.take_take]

/-- MAKE_LABEL looks at the first 16 codes only (R131). -/
theorem makeLabel_trunc16 (codes : List Byte) : makeLabel (trunc16 codes) = makeLabel codes := by
  simp only [makeLabel, trunc16_trunc16]

@[simp] theorem length_encodeEot : encodeEot.length = eotRegionLen :=
  length_eotRegion _ (length_makeHeader _ _ _ _)

theorem encodeFile_of_lt (codes raw : List Byte) (h : raw.length < 2) : encodeFile codes raw = none := by
  simp [encodeFile, h]

theorem encodeFile_of_le (codes raw : List Byte) (h : 2 ≤ raw.length) :
    encodeFile codes raw = some (fileRegion (fileHeader codes raw) (programOf raw)) := by
  simp [encodeFile, Nat.not_lt.mpr h]

@[simp] theorem length_containerHeader (n : Nat) : (containerHeader n).length = 20 := rfl

@[simp] theorem length_writeContainer (p : List Byte) : (writeContainer p).length = 20 + p.length := by
  simp [writeContainer]

/-- The micro-operation's sync bytes are the primary sequence (R64, R150). -/
theorem syncBytes_primary :
    syncBytes primaryBase = [0x89, 0x88, 0x87, 0x86, 0x85, 0x84, 0x83, 0x82, 0x81] := rfl

/-- The micro-operation's sync bytes are the repeat sequence (R64, R150). -/
theorem syncBytes_repeat : syncBytes repeatBase = syncRepeatBytes := rfl

end Sys2Proof.Machine
end

