-- ==== Sys2Proof/Laws/Emit.lean ====
section
/-! SUPPORT. What emitting does: emit_seq is emit of each byte in order (00_scope.md section 5), it either
appends everything or faults, and it changes PAY and PAYLEN only. -/

namespace Sys2Proof.Machine

open Sys2Proof

@[simp] theorem andThen_next (s : State) (f : State → Result) : andThen (.next s) f = f s := rfl

@[simp] theorem andThen_fault (e : Fault) (f : State → Result) : andThen (.fault e) f = .fault e := rfl

@[simp] theorem andThen_refused (e : Refusal) (f : State → Result) : andThen (.refused e) f = .refused e := rfl

/-- An instruction in two parts answers a next state exactly where both do. -/
theorem andThen_eq_next {r : Result} {f : State → Result} {t : State} :
    andThen r f = .next t ↔ ∃ s, r = .next s ∧ f s = .next t := by
  cases r <;> simp [andThen]

theorem andThen_assoc (r : Result) (f g : State → Result) :
    andThen (andThen r f) g = andThen r (fun s => andThen (f s) g) := by
  cases r <;> rfl

theorem appended_appended (s : State) (vs ws : List Byte) :
    (s.appended vs).appended ws = s.appended (vs ++ ws) := by
  simp [State.appended, store_store, Nat.add_assoc]

/-- The bytes fit: emit_seq appends them (R17). -/
theorem emitSeq_of_fits (vs : List Byte) (s : State) (hv : vs ≠ []) (h : s.payLen + vs.length ≤ s.cfg.payMax) :
    emitSeq vs s = .next (s.appended vs) := by
  cases vs with
  | nil => exact absurd rfl hv
  | cons v vs => simp only [emitSeq, if_pos h]

/-- The bytes do not fit: the access outside PAY faults. -/
theorem emitSeq_of_full (vs : List Byte) (s : State) (hv : vs ≠ []) (h : s.cfg.payMax < s.payLen + vs.length) :
    emitSeq vs s = .fault .payOutside := by
  cases vs with
  | nil => exact absurd rfl hv
  | cons v vs => simp only [emitSeq, if_neg (Nat.not_le.mpr h)]

/-- Everything emit_seq can do. -/
theorem emitSeq_eq_next {vs : List Byte} {s t : State} (h : emitSeq vs s = .next t) :
    (vs = [] ∧ t = s) ∨ (vs ≠ [] ∧ s.payLen + vs.length ≤ s.cfg.payMax ∧ t = s.appended vs) := by
  cases vs with
  | nil => left; simpa [emitSeq, eq_comm] using h
  | cons v vs =>
    right
    simp only [emitSeq] at h
    split at h
    · exact ⟨by simp, by assumption, by simpa [eq_comm] using h⟩
    · cases h

/-- emit_seq is emit of the first byte and then of the rest (00_scope.md section 5). -/
theorem emitSeq_cons (v : Byte) (vs : List Byte) (s : State) :
    emitSeq (v :: vs) s = andThen (emit v s) (emitSeq vs) := by
  cases vs with
  | nil =>
    simp only [emitSeq, emit, List.length_singleton, State.appended]
    by_cases h : s.payLen < s.cfg.payMax
    · rw [if_pos (by omega), if_pos h]; rfl
    · rw [if_neg (by omega), if_neg h]; rfl
  | cons w vs =>
    simp only [emit]
    by_cases h : s.payLen < s.cfg.payMax
    · rw [if_pos h, andThen_next]
      by_cases h2 : s.payLen + (v :: w :: vs).length ≤ s.cfg.payMax
      · rw [emitSeq_of_fits _ _ (by simp) h2,
          emitSeq_of_fits _ _ (by simp) (by simp only [List.length_cons] at h2 ⊢; omega)]
        have e := appended_appended s [v] (w :: vs)
        simp only [List.singleton_append] at e
        rw [← e]
        rfl
      · rw [emitSeq_of_full _ _ (by simp) (by omega),
          emitSeq_of_full _ _ (by simp) (by simp only [List.length_cons] at h2 ⊢; omega)]
    · rw [if_neg h, andThen_fault, emitSeq_of_full _ _ (by simp) (by simp only [List.length_cons]; omega)]

/-- Frames that fit are appended, and the encoder's registers follow the last byte. -/
theorem emitFrames_of_fits (bs : List Byte) (s : State) (hb : bs ≠ [])
    (h : s.payLen + 20 * bs.length ≤ s.cfg.payMax) :
    emitFrames bs s = .next ((s.appended (encodeBytes bs)).framed bs) := by
  have hne : encodeBytes bs ≠ [] := by
    cases bs with
    | nil => exact absurd rfl hb
    | cons b bs =>
      intro e
      have := congrArg List.length e
      simp at this
  unfold emitFrames
  rw [emitSeq_of_fits _ _ hne (by simpa using h), andThen_next]

/-- The payload after an append is the payload before it and the bytes (R16, R17). -/
theorem payload_appended (s : State) (vs : List Byte) : (s.appended vs).payload = s.payload ++ vs := by
  simpa [State.payload] using load_store_append s.pay 0 s.payLen vs

/-- What is written at the end of PAY is appended to the payload (R16, R17). -/
theorem payload_append {s t : State} (vs : List Byte) (h : t.pay = s.pay.store s.payLen vs)
    (hl : t.payLen = s.payLen + vs.length) : t.payload = s.payload ++ vs := by
  rw [← payload_appended]
  simp only [State.payload, h, hl, State.appended]

@[simp] theorem length_payload (s : State) : s.payload.length = s.payLen := by
  simp [State.payload, length_load]

end Sys2Proof.Machine
end

