-- ==== Sys2Proof/Laws/Sequencer.lean ====
section
/-! SUPPORT. What the sequencer does: one turn of its loop for each micro-operation, and the two programs of UROM
run to their END. -/

namespace Sys2Proof.Machine

open Sys2Proof

theorem length_stagedProgram (s : State) : s.stagedProgram.length = s.imgLen - 2 := by
  simp [State.stagedProgram, length_load]

@[simp] theorem length_syncBytes (base : Half) : (syncBytes base).length = 9 := by simp [syncBytes]

/-- The working registers a micro-operation may change besides UPC. -/
structure WorkRegs where
  cur : Byte
  bix : BitVec 4
  par : Bool
  half : Bool
  chk : Byte
  cnt : BitVec 32
  syncV : Byte

/-- The working registers of a state. -/
def workRegs (s : State) : WorkRegs := ⟨s.cur, s.bix, s.par, s.half, s.chk, s.cnt, s.syncV⟩

/-- The working registers after the frames of a non-empty byte sequence. -/
def WorkRegs.afterFrames (r : WorkRegs) (bs : List Byte) : WorkRegs :=
  { r with
    cur := bs.getLastD 0, bix := 8, par := parityBit (bs.getLastD 0), half := Config.halfAfterFrame (bs.getLastD 0) }

/-- A state part way through a program entered at s: vs has been emitted, the registers are r, the word at k is
the next one. -/
def partWay (s : State) (vs : List Byte) (r : WorkRegs) (k : BitVec 5) : State :=
  { s with
    pay := s.pay.store s.payLen vs
    payLen := s.payLen + vs.length
    cur := r.cur, bix := r.bix, par := r.par, half := r.half, chk := r.chk, cnt := r.cnt, syncV := r.syncV
    upc := k
    uw := some (uromAt k) }

/-! ### Turns of the loop -/

/-- n turns of the sequencer's loop, each with a fetched word (R145). -/
def microCycles : Nat → State → Result
  | 0, s => .next s
  | n + 1, s =>
    match s.uw with
    | none => .fault .sequencerStuck
    | some w => andThen (microCycle w s) (microCycles n)

/-- Turns that end in END are the sequencer's run. -/
theorem runSequencer_of_cycles {n : Nat} {s t : State} (m : Nat) (h : microCycles n s = .next t)
    (ht : t.uw = none) : runSequencer (n + 1 + m) s = .next t := by
  induction n generalizing s with
  | zero =>
    cases h
    rw [show 0 + 1 + m = m + 1 by omega]
    simp only [runSequencer, ht]
  | succ n ih =>
    rw [show n + 1 + 1 + m = (n + 1 + m) + 1 by omega]
    cases hu : s.uw with
    | none => simp only [microCycles, hu] at h; cases h
    | some w =>
      simp only [microCycles, hu] at h
      obtain ⟨u, h1, h2⟩ := andThen_eq_next.mp h
      simp only [runSequencer, hu, h1, andThen_next]
      exact ih h2

section

variable (n : Nat) (s : State) (vs : List Byte) (r : WorkRegs) (k k' : BitVec 5)

/-- Emitting part way. -/
theorem emitSeq_partWay (ws : List Byte) (hw : ws ≠ [])
    (h : s.payLen + (vs ++ ws).length ≤ s.cfg.payMax) :
    emitSeq ws (partWay s vs r k) = .next (partWay s (vs ++ ws) r k) := by
  rw [emitSeq_of_fits _ _ hw (by simp only [partWay, List.length_append] at h ⊢; omega)]
  simp [State.appended, partWay, store_store, Nat.add_assoc]

/-- Emitting frames part way. -/
theorem emitFrames_partWay (bs : List Byte) (hb : bs ≠ [])
    (h : s.payLen + (vs ++ encodeBytes bs).length ≤ s.cfg.payMax) :
    emitFrames bs (partWay s vs r k) = .next (partWay s (vs ++ encodeBytes bs) (r.afterFrames bs) k) := by
  have hne : encodeBytes bs ≠ [] := by
    cases bs with
    | nil => exact absurd rfl hb
    | cons b bs => intro e; have := congrArg List.length e; simp at this
  unfold emitFrames
  rw [emitSeq_partWay _ _ _ _ _ hne h, andThen_next]
  cases bs with
  | nil => exact absurd rfl hb
  | cons b bs => rfl

/-- A turn whose micro-operation does not stop the sequencer goes on at the next address. -/
theorem turn_of (t : State) (i : Instr) (hi : microOf (uromAt k) = i) (hk : upcNext k = k')
    (h : microOp i (partWay s vs r k) = .next t.nextUop) (hu : t.upc = k) (huw : t.uw = some (uromAt k)) :
    microCycles (n + 1) (partWay s vs r k) = microCycles n { t with upc := k', uw := some (uromAt k') } := by
  have hw : (partWay s vs r k).uw = some (uromAt k) := rfl
  simp only [microCycles, hw, microCycle, hi, h, andThen_next]
  simp only [State.refetch, State.nextUop, hu, huw, hk, Option.map_some]

theorem turn_raw4 (hi : microOf (uromAt k) = .uRaw4) (hk : upcNext k = k')
    (h : s.payLen + (vs ++ recMark).length ≤ s.cfg.payMax) :
    microCycles (n + 1) (partWay s vs r k) = microCycles n (partWay s (vs ++ recMark) r k') := by
  refine turn_of n s vs r k k' (partWay s (vs ++ recMark) r k) _ hi hk ?_ rfl rfl
  simp only [microOp, execURaw4, emitSeq_partWay s vs r k recMark (by simp [recMark]) h, andThen_next]

theorem turn_eob (hi : microOf (uromAt k) = .uEob) (hk : upcNext k = k')
    (h : s.payLen + (vs ++ eobMarker).length ≤ s.cfg.payMax) :
    microCycles (n + 1) (partWay s vs r k) = microCycles n (partWay s (vs ++ eobMarker) r k') := by
  refine turn_of n s vs r k k' (partWay s (vs ++ eobMarker) r k) _ hi hk ?_ rfl rfl
  simp only [microOp, execUEob, emitSeq_partWay s vs r k eobMarker (by simp [eobMarker]) h, andThen_next]

theorem turn_tone (len : Half) (hi : microOf (uromAt k) = .uTone len) (hk : upcNext k = k')
    (hl : len.toNat ≠ 0) (h : s.payLen + (vs ++ tone len).length ≤ s.cfg.payMax) :
    microCycles (n + 1) (partWay s vs r k) =
      microCycles n (partWay s (vs ++ tone len) { r with cnt := 0 } k') := by
  refine turn_of n s vs r k k' (partWay s (vs ++ tone len) { r with cnt := 0 } k) _ hi hk ?_ rfl rfl
  have hne : tone len ≠ [] := by simpa [tone, List.replicate_eq_nil_iff] using hl
  have e := emitSeq_partWay s vs r k (tone len) hne h
  simp only [microOp, execUTone]
  rw [show List.replicate len.toNat pShort = tone len from rfl, e, andThen_next]
  rfl

theorem turn_sync (base : Half) (hi : microOf (uromAt k) = .uSync base) (hk : upcNext k = k')
    (h : s.payLen + (vs ++ encodeBytes (syncBytes base)).length ≤ s.cfg.payMax) :
    microCycles (n + 1) (partWay s vs r k) =
      microCycles n (partWay s (vs ++ encodeBytes (syncBytes base))
        { r.afterFrames (syncBytes base) with syncV := syncLast base, cnt := 0 } k') := by
  refine turn_of n s vs r k k' (partWay s (vs ++ encodeBytes (syncBytes base))
    { r.afterFrames (syncBytes base) with syncV := syncLast base, cnt := 0 } k) _ hi hk ?_ rfl rfl
  simp only [microOp, execUSync, emitFrames_partWay s vs r k (syncBytes base) (by simp [syncBytes]) h,
    andThen_next]
  rfl

theorem turn_hdr (hi : microOf (uromAt k) = .uHdr) (hk : upcNext k = k')
    (h : s.payLen + (vs ++ encodeBytes (s.cb.load 0 cbLen)).length ≤ s.cfg.payMax) :
    microCycles (n + 1) (partWay s vs r k) =
      microCycles n (partWay s (vs ++ encodeBytes (s.cb.load 0 cbLen))
        { r.afterFrames (s.cb.load 0 cbLen) with cnt := 0 } k') := by
  refine turn_of n s vs r k k' (partWay s (vs ++ encodeBytes (s.cb.load 0 cbLen))
    { r.afterFrames (s.cb.load 0 cbLen) with cnt := 0 } k) _ hi hk ?_ rfl rfl
  have hne : s.cb.load 0 cbLen ≠ [] := by
    intro e; have := congrArg List.length e; simp [length_load, cbLen] at this
  have e := emitFrames_partWay s vs r k _ hne h
  simp only [microOp, execUHdr]
  rw [show (partWay s vs r k).cb = s.cb from rfl, e, andThen_next]
  rfl

theorem turn_data (hi : microOf (uromAt k) = .uData) (hk : upcNext k = k') (him : s.imgLen ≤ s.cfg.imgMax)
    (h : s.payLen + (vs ++ encodeDataBlock s.stagedProgram).length ≤ s.cfg.payMax) :
    microCycles (n + 1) (partWay s vs r k) =
      microCycles n (partWay s (vs ++ encodeDataBlock s.stagedProgram)
        { r.afterFrames (dataBlock s.stagedProgram) with chk := xorsum s.stagedProgram, cnt := 0 } k') := by
  refine turn_of n s vs r k k' (partWay s (vs ++ encodeDataBlock s.stagedProgram)
    { r.afterFrames (dataBlock s.stagedProgram) with chk := xorsum s.stagedProgram, cnt := 0 } k) _ hi hk ?_
    rfl rfl
  have e := emitFrames_partWay s vs { r with chk := xorsum s.stagedProgram } k (dataBlock s.stagedProgram)
    (by simp [dataBlock]) h
  simp only [microOp, execUData]
  rw [if_pos (show (partWay s vs r k).imgLen ≤ (partWay s vs r k).cfg.imgMax from him),
    show (partWay s vs r k).stagedProgram = s.stagedProgram from rfl,
    show (partWay s vs r k).summed s.stagedProgram = partWay s vs { r with chk := xorsum s.stagedProgram } k from rfl,
    e, andThen_next]
  rfl

/-- END: the run is over (R153). -/
theorem turn_end (hi : microOf (uromAt k) = .uEnd) :
    microCycles 1 (partWay s vs r k) = .next { partWay s vs r k with uw := none } := by
  have hw : (partWay s vs r k).uw = some (uromAt k) := rfl
  simp only [microCycles, hw, microCycle, hi, microOp, execUEnd, andThen_next]
  rfl

end

/-! ### The two programs -/

/-- The entry of a program is part way through it with nothing emitted. -/
theorem enterProg_eq_partWay (s : State) (k : BitVec 5) (h : s.pay.wf) :
    s.enterProg k = partWay s [] (workRegs s) k := by
  simp [partWay, State.enterProg, workRegs, store_nil _ _ h]

/-- FILEPROG, 21 turns, appends the region of the file whose control block is in CB and whose program is in IMG
(R160, R165), and leaves the working registers as its last operations do. -/
theorem cycles_fileProg (s : State) (hwf : s.pay.wf) (him : s.imgLen ≤ s.cfg.imgMax)
    (hcap : s.payLen + fileRegionLen (s.imgLen - 2) ≤ s.cfg.payMax) :
    microCycles 21 (s.enterProg fileEntry) =
      .next { ((s.appended (fileRegion (s.cb.load 0 cbLen) s.stagedProgram)).summed s.stagedProgram).framed
                (dataBlock s.stagedProgram) with
              cnt := 0, syncV := 0, upc := 20, uw := none } := by
  obtain ⟨h1, h2, h3, h4, h5⟩ := length_tones
  have hl : (s.cb.load 0 cbLen).length = 192 := by simp [length_load, cbLen]
  unfold fileRegionLen at hcap
  rw [enterProg_eq_partWay s _ hwf]
  unfold fileEntry
  rw [turn_raw4 _ _ _ _ 0 1 rfl rfl ?_,
    turn_tone _ _ _ _ 1 2 leader1Len rfl rfl (by decide) ?_,
    turn_sync _ _ _ _ 2 3 primaryBase rfl rfl ?_,
    turn_hdr _ _ _ _ 3 4 rfl rfl ?_,
    turn_eob _ _ _ _ 4 5 rfl rfl ?_,
    turn_tone _ _ _ _ 5 6 gapALen rfl rfl (by decide) ?_,
    turn_sync _ _ _ _ 6 7 repeatBase rfl rfl ?_,
    turn_hdr _ _ _ _ 7 8 rfl rfl ?_,
    turn_eob _ _ _ _ 8 9 rfl rfl ?_,
    turn_tone _ _ _ _ 9 10 gapBLen rfl rfl (by decide) ?_,
    turn_raw4 _ _ _ _ 10 11 rfl rfl ?_,
    turn_tone _ _ _ _ 11 12 leader2Len rfl rfl (by decide) ?_,
    turn_sync _ _ _ _ 12 13 primaryBase rfl rfl ?_,
    turn_data _ _ _ _ 13 14 rfl rfl him ?_,
    turn_eob _ _ _ _ 14 15 rfl rfl ?_,
    turn_tone _ _ _ _ 15 16 gapALen rfl rfl (by decide) ?_,
    turn_sync _ _ _ _ 16 17 repeatBase rfl rfl ?_,
    turn_data _ _ _ _ 17 18 rfl rfl him ?_,
    turn_eob _ _ _ _ 18 19 rfl rfl ?_,
    turn_tone _ _ _ _ 19 20 trailerLen rfl rfl (by decide) ?_,
    turn_end _ _ _ 20 rfl]
  · unfold fileRegion
    cases hd : dataBlock s.stagedProgram with
    | nil => exact absurd hd (by simp [dataBlock])
    | cons b bs => rfl
  all_goals
    simp only [List.length_append, List.length_nil, length_recMark, length_eobMarker, length_tone, length_syncBytes,
      length_encodeBytes, length_encodeDataBlock, length_stagedProgram, h1, h2, h3, h4, h5, hl]
    omega

/-- ENCFILE's run of FILEPROG (R197). -/
theorem run_fileProg (s : State) (hwf : s.pay.wf) (him : s.imgLen ≤ s.cfg.imgMax)
    (hcap : s.payLen + fileRegionLen (s.imgLen - 2) ≤ s.cfg.payMax) :
    runSequencer seqFuel (s.enterProg fileEntry) =
      .next { ((s.appended (fileRegion (s.cb.load 0 cbLen) s.stagedProgram)).summed s.stagedProgram).framed
                (dataBlock s.stagedProgram) with
              cnt := 0, syncV := 0, upc := 20, uw := none } :=
  runSequencer_of_cycles 11 (cycles_fileProg s hwf him hcap) rfl

/-- EOTPROG, 11 turns, appends the end-of-tape region whose control block is in CB (R160, R170). -/
theorem cycles_eotProg (s : State) (hwf : s.pay.wf) (hcap : s.payLen + eotRegionLen ≤ s.cfg.payMax) :
    microCycles 11 (s.enterProg eotEntry) =
      .next { (s.appended (eotRegion (s.cb.load 0 cbLen))).framed (s.cb.load 0 cbLen) with
              cnt := 0, syncV := 0, upc := 31, uw := none } := by
  obtain ⟨-, -, h3, -, h5⟩ := length_tones
  have hl : (s.cb.load 0 cbLen).length = 192 := by simp [length_load, cbLen]
  unfold eotRegionLen at hcap
  rw [enterProg_eq_partWay s _ hwf]
  unfold eotEntry
  rw [turn_sync _ _ _ _ 21 22 primaryBase rfl rfl ?_,
    turn_hdr _ _ _ _ 22 23 rfl rfl ?_,
    turn_eob _ _ _ _ 23 24 rfl rfl ?_,
    turn_tone _ _ _ _ 24 25 gapALen rfl rfl (by decide) ?_,
    turn_sync _ _ _ _ 25 26 repeatBase rfl rfl ?_,
    turn_hdr _ _ _ _ 26 27 rfl rfl ?_,
    turn_eob _ _ _ _ 27 28 rfl rfl ?_,
    turn_eob _ _ _ _ 28 29 rfl rfl ?_,
    turn_tone _ _ _ _ 29 30 gapALen rfl rfl (by decide) ?_,
    turn_tone _ _ _ _ 30 31 trailerLen rfl rfl (by decide) ?_,
    turn_end _ _ _ 31 rfl]
  · unfold eotRegion
    cases hd : s.cb.load 0 cbLen with
    | nil => exact absurd (congrArg List.length hd) (by rw [hl]; simp)
    | cons b bs => rfl
  all_goals
    simp only [List.length_append, List.length_nil, length_eobMarker, length_tone, length_syncBytes,
      length_encodeBytes, h3, h5, hl]
    omega

/-- FINISH's run of EOTPROG (R199). -/
theorem run_eotProg (s : State) (hwf : s.pay.wf) (hcap : s.payLen + eotRegionLen ≤ s.cfg.payMax) :
    runSequencer seqFuel (s.enterProg eotEntry) =
      .next { (s.appended (eotRegion (s.cb.load 0 cbLen))).framed (s.cb.load 0 cbLen) with
              cnt := 0, syncV := 0, upc := 31, uw := none } :=
  runSequencer_of_cycles 21 (cycles_eotProg s hwf hcap) rfl

end Sys2Proof.Machine
end

