-- ==== Sys2Proof/Laws/Commands.lean ====
section
/-! SUPPORT. What the command-level operations do: the mode check, ENCFILE after its checks, FINISH after its
check. -/

namespace Sys2Proof.Machine

open Sys2Proof

theorem whenOpen_of_open (s : State) (k : State → Result) (h : s.mode = .isOpen) : whenOpen s k = k s := by
  simp [whenOpen, h]

theorem whenOpen_of_sealed (s : State) (k : State → Result) (h : s.mode = .isSealed) :
    whenOpen s k = .next (s.raise eSequence) := by
  simp [whenOpen, h]

theorem withName_of_le (s : State) (k : List Byte → Result) (h : s.nameLen ≤ 16) :
    withName s k = k s.stagedName := by
  simp [withName, h]

theorem withImage_of_le (s : State) (k : List Byte → Result) (h : s.imgLen ≤ s.cfg.imgMax) :
    withImage s k = k s.stagedRaw := by
  simp [withImage, h]

@[simp] theorem length_stagedRaw (s : State) : s.stagedRaw.length = s.imgLen := by
  simp [State.stagedRaw, length_load]

@[simp] theorem length_stagedName (s : State) : s.stagedName.length = s.nameLen := by
  simp [State.stagedName, length_load]

/-- The program bytes the DATA micro-operation reads are the staged bytes without the load address. -/
theorem programOf_stagedRaw (s : State) : programOf s.stagedRaw = s.stagedProgram := by
  apply List.ext_getElem
  · simp [programOf, State.stagedRaw, State.stagedProgram, length_load]
  · intro i h1 h2
    simp [programOf, State.stagedRaw, State.stagedProgram, getElem_load]

/-- The control block just built is what CB holds. -/
theorem cb_withHeader (s : State) (t : Byte) (a e : Half) (lab : List Byte) :
    (s.withHeader t a e lab).cb.load 0 cbLen = makeHeader t a e lab := by
  have h := load_store_self s.cb 0 (makeHeader t a e lab)
  rw [length_makeHeader] at h
  exact h

/-- START and END of the staged file (R15). -/
def stagedStart (s : State) : Half := loadAddr s.stagedRaw

def stagedEnd (s : State) : Half := endAddrOf (stagedStart s) (s.imgLen - 2)

/-- The control block of the staged file (R137). -/
def stagedHeader (s : State) : List Byte :=
  makeHeader typeProgram (stagedStart s) (stagedEnd s) s.stagedName

/-- The state at the END of FILEPROG for the staged file. -/
def fileEncoded (s : State) : State :=
  { ((((s.withAddrs typeProgram (stagedStart s) (stagedEnd s)).withHeader typeProgram (stagedStart s)
        (stagedEnd s) s.stagedName).appended (fileRegion (stagedHeader s) s.stagedProgram)).summed
          s.stagedProgram).framed (dataBlock s.stagedProgram) with
    cnt := 0, syncV := 0, upc := 20, uw := none }

/-- ENCFILE after its checks (R197): the file's region is appended, then the command ends. -/
theorem encodeStaged_eq (s : State) (hwf : s.pay.wf) (hn : s.nameLen ≤ 16) (him : s.imgLen ≤ s.cfg.imgMax)
    (hcap : s.payLen + fileRegionLen (s.imgLen - 2) ≤ s.cfg.payMax) :
    encodeStaged s = .next (fileEncoded s).fileDone := by
  have hp : (programOf s.stagedRaw).length = s.imgLen - 2 := by
    rw [programOf_stagedRaw, length_stagedProgram]
  unfold encodeStaged
  rw [withImage_of_le _ _ him, withName_of_le _ _ hn]
  simp only [hp]
  have h := run_fileProg ((s.withAddrs typeProgram (stagedStart s) (stagedEnd s)).withHeader typeProgram
    (stagedStart s) (stagedEnd s) s.stagedName) hwf him hcap
  rw [cb_withHeader] at h
  exact (congrArg (fun r => andThen r fun t => .next t.fileDone) h).trans rfl

/-- The state at the END of EOTPROG. -/
def tapeEncoded (s : State) : State :=
  { (((s.clearStaging.withAddrs typeEot 0 0).withHeader typeEot 0 0 []).appended encodeEot).framed eotHeader with
    cnt := 0, syncV := 0, upc := 31, uw := none }

/-- The program of FINISH (R199): the end-of-tape region is appended. -/
theorem run_finish (s : State) (hwf : s.pay.wf) (hcap : s.payLen + eotRegionLen ≤ s.cfg.payMax) :
    runSequencer seqFuel (((s.clearStaging.withAddrs typeEot 0 0).withHeader typeEot 0 0 []).enterProg eotEntry)
      = .next (tapeEncoded s) := by
  have h := run_eotProg ((s.clearStaging.withAddrs typeEot 0 0).withHeader typeEot 0 0 []) hwf hcap
  rw [cb_withHeader] at h
  exact h

theorem dataBlock_getLastD (d : List Byte) (x : Byte) : (dataBlock d).getLastD x = xorsum d := by
  simp [dataBlock]

theorem dataBlock_ne_nil (d : List Byte) : dataBlock d ≠ [] := by simp [dataBlock]

/-- Everything ENCFILE leaves (R197). -/
theorem fileDone_fileEncoded (s : State) :
    (fileEncoded s).fileDone = { s with
      cb := s.cb.store 0 (stagedHeader s)
      startAddr := stagedStart s, endAddr := stagedEnd s, blockType := typeProgram
      pay := s.pay.store s.payLen (fileRegion (stagedHeader s) s.stagedProgram)
      payLen := s.payLen + fileRegionLen (s.imgLen - 2)
      nameLen := 0, dotSeen := false, nover := false, imgLen := 0, imgOvf := false
      wLabel := s.wLabel || s.nover, lastRsp := codeOk, rsp := some (codeOk ++ zext8 s.nover), cmd := none
      cur := xorsum s.stagedProgram, bix := 8, par := parityBit (xorsum s.stagedProgram)
      half := Config.halfAfterFrame (xorsum s.stagedProgram), chk := xorsum s.stagedProgram
      cnt := 0, syncV := 0, upc := 20, uw := none } := by
  have hlen := length_fileRegion (stagedHeader s) s.stagedProgram (by simp [stagedHeader])
  rw [length_stagedProgram] at hlen
  unfold fileEncoded
  generalize fileRegion (stagedHeader s) s.stagedProgram = R at *
  simp only [State.fileDone, State.complete, State.clearStaging, State.framed, State.summed, State.appended,
    State.withHeader, State.withAddrs, dataBlock_getLastD, hlen, List.isEmpty_iff, dataBlock_ne_nil, if_false,
    stagedHeader, Bool.or_false, bne_self_eq_false]

theorem eotHeader_getLastD (x : Byte) : eotHeader.getLastD x = 0x05 := by
  rw [eotHeader_eq, List.getLastD_eq_getLast?, List.getLast?_concat]; rfl

theorem eotHeader_ne_nil : eotHeader ≠ [] := by
  intro h
  have := congrArg List.length h
  rw [show eotHeader.length = 192 from length_makeHeader _ _ _ _] at this
  simp at this

/-- Everything FINISH leaves (R199). -/
theorem tapeDone_tapeEncoded (s : State) :
    (tapeEncoded s).tapeDone = { s with
      mode := .isSealed
      cb := s.cb.store 0 eotHeader
      startAddr := 0, endAddr := 0, blockType := typeEot
      pay := s.pay.store s.payLen encodeEot, payLen := s.payLen + eotRegionLen
      out := writeContainer (s.payload ++ encodeEot), frameHdr := containerHeader (s.payLen + eotRegionLen)
      nameLen := 0, dotSeen := false, nover := false, imgLen := 0, imgOvf := false
      lastRsp := codeOk, rsp := some (codeOk ++ 0x00#8), cmd := none
      cur := 0x05, bix := 8, par := parityBit 0x05, half := Config.halfAfterFrame 0x05, chk := 0x05
      cnt := 0, syncV := 0, upc := 31, uw := none } := by
  have hp : (tapeEncoded s).payload = s.payload ++ encodeEot :=
    payload_appended ((s.clearStaging.withAddrs typeEot 0 0).withHeader typeEot 0 0 []) encodeEot
  have hle : (s.payload ++ encodeEot).length = s.payLen + eotRegionLen := by simp
  have hl : encodeEot.length = eotRegionLen := length_encodeEot
  have hh : makeHeader typeEot 0 0 [] = eotHeader := rfl
  simp only [State.tapeDone, State.contained, hp, hle]
  unfold tapeEncoded
  generalize encodeEot = R at *
  simp only [State.complete, State.clearStaging, State.framed, State.appended,
    State.withHeader, State.withAddrs, eotHeader_getLastD, hl, List.isEmpty_iff, eotHeader_ne_nil, if_false,
    xorsum_eotBody, hh, Bool.or_false, bne_self_eq_false]
  rfl

end Sys2Proof.Machine
end

