-- ==== Sys2Proof/Laws/Deliveries.lean ====
section
/-! SUPPORT. What NAME and DATA commands in any order leave in staging (R132, R192, R194): one lemma a command, one
for a command list. -/

namespace Sys2Proof.Machine

open Sys2Proof

/-! ### STEM and TRUNC16 of one code more -/

theorem stem_concat (codes : List Byte) (c : Byte) :
    stem (codes ++ [c]) =
      if dot ∈ codes then stem codes else if c = dot then codes else codes ++ [c] := by
  induction codes with
  | nil => by_cases h : c = dot <;> simp [stem, h]
  | cons x xs ih =>
    by_cases hx : x = dot
    · simp [stem, hx]
    · have hx' : dot ≠ x := fun e => hx e.symm
      simp only [stem, List.cons_append, bne_iff_ne, ne_eq, hx, not_false_iff, List.takeWhile_cons_of_pos,
        List.mem_cons, hx', false_or] at ih ⊢
      rw [ih]
      split
      · rfl
      · split <;> rfl

theorem stem_of_no_dot (codes : List Byte) (h : dot ∉ codes) : stem codes = codes := by
  refine List.takeWhile_eq_self_iff.mpr fun c hc => ?_
  simp only [bne_iff_ne, ne_eq]
  rintro rfl
  exact h hc

theorem trunc16_concat_of_lt (codes : List Byte) (c : Byte) (h : codes.length < 16) :
    trunc16 (codes ++ [c]) = trunc16 codes ++ [c] := by
  simp only [trunc16, labelLen]
  rw [List.take_of_length_le (by simp; omega), List.take_of_length_le (by omega)]

theorem trunc16_concat_of_le (codes : List Byte) (c : Byte) (h : 16 ≤ codes.length) :
    trunc16 (codes ++ [c]) = trunc16 codes := by
  simp only [trunc16, labelLen]
  exact List.take_append_of_le_length h

theorem length_trunc16 (codes : List Byte) : (trunc16 codes).length = min 16 codes.length := by
  simp [trunc16, labelLen]

/-! ### Storing one element more -/

theorem stagedName_nameStored (s : State) (c : Byte) : (s.nameStored c).stagedName = s.stagedName ++ [c] := by
  simpa [State.stagedName, State.nameStored] using load_store_append s.name 0 s.nameLen [c]

theorem stagedRaw_imgStored (s : State) (b : Byte) : (s.imgStored b).stagedRaw = s.stagedRaw ++ [b] := by
  simpa [State.stagedRaw, State.imgStored] using load_store_append s.img 0 s.imgLen [b]

/-! ### Staging after the codes and the bytes -/

/-- Staging has received these codes and these bytes since it was clear. -/
structure Received (s : State) (codes raw : List Byte) : Prop where
  isOpen : s.mode = .isOpen
  name : s.stagedName = trunc16 (stem codes)
  dotSeen : s.dotSeen = decide (dot ∈ codes)
  nover : s.nover = decide (16 < (stem codes).length)
  image : s.stagedRaw = raw.take s.cfg.imgMax
  imgOvf : s.imgOvf = decide (s.cfg.imgMax < raw.length)

theorem Received.nameLen {s : State} {codes raw : List Byte} (h : Received s codes raw) :
    s.nameLen = min 16 (stem codes).length := by
  rw [← length_stagedName, h.name, length_trunc16]

theorem Received.imgLen {s : State} {codes raw : List Byte} (h : Received s codes raw) :
    s.imgLen = min s.cfg.imgMax raw.length := by
  rw [← length_stagedRaw, h.image, List.length_take]

theorem Received.of_clear {s : State} (h : s.mode = .isOpen) (hc : s.stagingClear) : Received s [] [] := by
  obtain ⟨h1, h2, h3, h4, h5⟩ := hc
  exact ⟨h, by simp [State.stagedName, h1, Memory.load, stem, trunc16], by simp [h2], by simp [h3, stem],
    by simp [State.stagedRaw, h4, Memory.load], by simp [h5]⟩

/-- What a delivering command may change besides: the ending of a command; ERRSEEN only where a byte is lost. -/
structure Delivered (s t : State) : Prop where
  frame : t = { s with
    name := t.name, nameLen := t.nameLen, dotSeen := t.dotSeen, nover := t.nover
    img := t.img, imgLen := t.imgLen, imgOvf := t.imgOvf
    lastRsp := t.lastRsp, errSeen := t.errSeen, rsp := t.rsp, cmd := t.cmd }
  errSeen : t.imgOvf = false → t.errSeen = s.errSeen

theorem Delivered.refl (s : State) : Delivered s s := ⟨rfl, fun _ => rfl⟩

theorem Received.complete {s : State} {codes raw : List Byte} (h : Received s codes raw) (code data : Byte) :
    Received (s.complete code data) codes raw := ⟨h.1, h.2, h.3, h.4, h.5, h.6⟩

theorem Received.respond {s : State} {codes raw : List Byte} (h : Received s codes raw) (code data : Byte) :
    Received (s.respond code data) codes raw := ⟨h.1, h.2, h.3, h.4, h.5, h.6⟩

/-- NAME c (R132, R192). -/
theorem execName_received {s : State} {codes raw : List Byte} (h : Received s codes raw) (c : Byte) :
    ∃ t, execName c s = .next t ∧ Received t (codes ++ [c]) raw ∧ Delivered s t := by
  have hl := h.nameLen
  rw [execName, whenOpen_of_open _ _ h.isOpen]
  by_cases hd : dot ∈ codes
  · have ed : s.dotSeen = true := by simp [h.dotSeen, hd]
    have es : stem (codes ++ [c]) = stem codes := by rw [stem_concat, if_pos hd]
    refine ⟨_, if_pos ed, ⟨h.isOpen, ?_, ?_, ?_, h.image, h.imgOvf⟩, ⟨rfl, ?_⟩⟩
    · rw [es]; exact h.name
    · exact h.dotSeen.trans (by simp [hd])
    · rw [es]; exact h.nover
    · intro _; simp [State.complete]
  have ed : ¬ s.dotSeen = true := by simp [h.dotSeen, hd]
  rw [if_neg ed]
  rw [stem_of_no_dot _ hd] at hl
  have hn := h.name
  have ho := h.nover
  rw [stem_of_no_dot _ hd] at hn ho
  by_cases hc : c = dot
  · have es : stem (codes ++ [c]) = codes := by rw [stem_concat, if_neg hd, if_pos hc]
    refine ⟨_, if_pos hc, ⟨h.isOpen, ?_, ?_, ?_, h.image, h.imgOvf⟩, ⟨rfl, ?_⟩⟩
    · rw [es]; exact hn
    · show true = _
      simp [hc]
    · rw [es]; exact ho
    · intro _; simp [State.complete]
  rw [if_neg hc]
  have es : stem (codes ++ [c]) = codes ++ [c] := by rw [stem_concat, if_neg hd, if_neg hc]
  have hd' : s.dotSeen = decide (dot ∈ codes ++ [c]) := by
    have : ¬ dot = c := fun e => hc e.symm
    simp [h.dotSeen, hd, this]
  by_cases hf : s.nameLen = 16
  · refine ⟨_, if_pos hf, ⟨h.isOpen, ?_, hd', ?_, h.image, h.imgOvf⟩, ⟨rfl, ?_⟩⟩
    · rw [es, trunc16_concat_of_le _ _ (by omega)]; exact hn
    · rw [es]; show true = _; simp; omega
    · intro _; simp [State.complete]
  · refine ⟨_, (if_neg hf).trans (if_pos (by omega)), ⟨h.isOpen, ?_, hd', ?_, h.image, h.imgOvf⟩, ⟨rfl, ?_⟩⟩
    · rw [es, trunc16_concat_of_lt _ _ (by omega), ← hn]; exact stagedName_nameStored s c
    · rw [es]; show s.nover = _; rw [ho]; simp; omega
    · intro _; simp [State.complete]

/-- DATA b (R194): a byte that does not fit is lost, which IMGOVF shows. -/
theorem execData_received {s : State} {codes raw : List Byte} (h : Received s codes raw) (b : Byte) :
    ∃ t, execData b s = .next t ∧ Received t codes (raw ++ [b]) ∧ Delivered s t := by
  have hl := h.imgLen
  rw [execData, whenOpen_of_open _ _ h.isOpen]
  by_cases hf : s.imgLen = s.cfg.imgMax
  · refine ⟨_, if_pos hf, ⟨h.isOpen, h.name, h.dotSeen, h.nover, ?_, ?_⟩, ⟨rfl, ?_⟩⟩
    · show s.stagedRaw = (raw ++ [b]).take s.cfg.imgMax
      rw [List.take_append_of_le_length (by omega)]
      exact h.image
    · show true = decide (s.cfg.imgMax < (raw ++ [b]).length)
      simp; omega
    · intro e; cases e
  · refine ⟨_, (if_neg hf).trans (if_pos (by omega)), ⟨h.isOpen, h.name, h.dotSeen, h.nover, ?_, ?_⟩, ⟨rfl, ?_⟩⟩
    · show (s.imgStored b).stagedRaw = (raw ++ [b]).take s.cfg.imgMax
      rw [stagedRaw_imgStored, h.image]
      rw [List.take_of_length_le (by omega), List.take_of_length_le (by simp; omega)]
    · show s.imgOvf = decide (s.cfg.imgMax < (raw ++ [b]).length)
      rw [h.imgOvf]; simp; omega
    · intro _; simp [State.complete]

/-- A command that delivers. -/
theorem exec_delivers {s : State} {codes raw : List Byte} {i : Instr} (h : Received s codes raw)
    (hi : delivers i = true) : ∃ t, exec i s = .next t ∧
      Received t (codes ++ (nameCode i).toList) (raw ++ (rawByte i).toList) ∧ Delivered s t := by
  cases i
  case name c =>
    obtain ⟨t, h1, h2, h3⟩ := execName_received h c
    exact ⟨t, h1, by simpa [nameCode, rawByte] using h2, h3⟩
  case data b =>
    obtain ⟨t, h1, h2, h3⟩ := execData_received h b
    exact ⟨t, h1, by simpa [nameCode, rawByte] using h2, h3⟩
  case nop => exact ⟨_, rfl, by simpa [nameCode, rawByte] using h.complete _ _, rfl, fun _ => by simp [State.complete]⟩
  case rdsr k =>
    simp only [exec, execRdsr]
    cases csr s k with
    | none => exact ⟨_, rfl, by simpa [nameCode, rawByte] using h.respond _ _, rfl, fun _ => rfl⟩
    | some v => exact ⟨_, rfl, by simpa [nameCode, rawByte] using h.respond _ _, rfl, fun _ => rfl⟩
  all_goals cases hi

/-! ### Command lists -/

@[simp] theorem runCommands_nil (s : State) : runCommands [] s = .next s := rfl

/-- A command list goes on from what its first command answers. -/
theorem runCommands_cons {i : Instr} {s t : State} (is : List Instr) (h : exec i s = .next t) :
    runCommands (i :: is) s = runCommands is t := by
  simp [runCommands, h]

theorem runCommands_append {is js : List Instr} {s t : State} (h : runCommands is s = .next t) :
    runCommands (is ++ js) s = runCommands js t := by
  simp only [runCommands, List.foldl_append] at h ⊢
  rw [h]

theorem Delivered.frame_trans {s t u : State} (h : Delivered s t) (k : Delivered t u) : u = { s with
    name := u.name, nameLen := u.nameLen, dotSeen := u.dotSeen, nover := u.nover
    img := u.img, imgLen := u.imgLen, imgOvf := u.imgOvf
    lastRsp := u.lastRsp, errSeen := u.errSeen, rsp := u.rsp, cmd := u.cmd } := by
  conv_lhs => rw [k.frame]
  conv_lhs => rw [h.frame]

theorem Received.fits {s t : State} {c r c' r' : List Byte} (h : Received s c r) (k : Received t c' (r ++ r'))
    (e : t.cfg = s.cfg) (hf : t.imgOvf = false) : s.imgOvf = false := by
  have := k.imgOvf
  rw [hf, e] at this
  rw [h.imgOvf]
  simp at this ⊢
  omega

/-- Delivering commands in any order (R132, R205, R253). -/
theorem runCommands_delivers (cmds : List Instr) {s : State} {codes raw : List Byte} (h : Received s codes raw)
    (hd : ∀ i ∈ cmds, delivers i = true) : ∃ t, runCommands cmds s = .next t ∧
      Received t (codes ++ nameCodes cmds) (raw ++ rawBytes cmds) ∧ Delivered s t := by
  induction cmds generalizing s codes raw with
  | nil => exact ⟨s, rfl, by simpa [nameCodes, rawBytes] using h, .refl s⟩
  | cons i is ih =>
    obtain ⟨t, e1, h1, d1⟩ := exec_delivers h (hd i (List.mem_cons_self ..))
    obtain ⟨u, e2, h2, d2⟩ := ih h1 fun j hj => hd j (List.mem_cons_of_mem _ hj)
    have en : nameCodes (i :: is) = (nameCode i).toList ++ nameCodes is := by
      cases hn : nameCode i <;> simp [nameCodes, hn]
    have er : rawBytes (i :: is) = (rawByte i).toList ++ rawBytes is := by
      cases hn : rawByte i <;> simp [rawBytes, hn]
    refine ⟨u, (runCommands_cons is e1).trans e2, ?_, d1.frame_trans d2, fun hf => ?_⟩
    · rw [en, er, ← List.append_assoc, ← List.append_assoc]; exact h2
    · have hc := congrArg State.cfg d2.frame
      exact (d2.errSeen hf).trans (d1.errSeen (h1.fits h2 hc hf))

end Sys2Proof.Machine
end

