-- ==== Sys2Proof/Laws/Steps.lean ====
section
/-! SUPPORT. What a step is about, what a run of steps is, and everything a micro-operation or a run of the
sequencer can change. -/

namespace Sys2Proof.Machine

open Sys2Proof

/-! ### The agenda -/

theorem agenda_of_rst (s : State) (h : s.rstNow) : s.agenda = .reset := by
  simp only [State.agenda, State.event, show s.host.events.headD .idle = .rst from h]

theorem agenda_of_micro (s : State) (w : MicroWord) (h : ¬ s.rstNow) (hu : s.uw = some w) :
    s.agenda = .micro w := by
  unfold State.agenda
  split
  · contradiction
  · rw [hu]

theorem agenda_of_command (s : State) (w : CmdWord) (h : ¬ s.rstNow) (hu : s.uw = none) (hc : s.cmd = some w) :
    s.agenda = .command w := by
  unfold State.agenda
  split
  · contradiction
  · rw [hu, hc]

theorem agenda_of_port (s : State) (h : ¬ s.rstNow) (hu : s.uw = none) (hc : s.cmd = none) :
    s.agenda = .port s.event := by
  unfold State.agenda
  split
  · contradiction
  · rw [hu, hc]

/-! ### One step -/

theorem step_of_rst (s : State) (h : s.rstNow) : step s = .next s.dropEvent.resetBlock := by
  simp only [step, agenda_of_rst s h]

theorem step_of_micro (s : State) (w : MicroWord) (h : ¬ s.rstNow) (hu : s.uw = some w) :
    step s = andThen (exec (microOf w) s) (fun t => .next t.refetch) := by
  simp only [step, agenda_of_micro s w h hu]

theorem step_of_command (s : State) (w : CmdWord) (i : Instr) (h : ¬ s.rstNow) (hu : s.uw = none)
    (hc : s.cmd = some w) (hi : decodeCmd w = .ok i) : step s = exec i s := by
  simp only [step, agenda_of_command s w h hu hc, hi]

theorem step_of_reserved (s : State) (w : CmdWord) (e : Reject) (h : ¬ s.rstNow) (hu : s.uw = none)
    (hc : s.cmd = some w) (hi : decodeCmd w = .error e) : step s = .next (s.raise eIllegal) := by
  simp only [step, agenda_of_command s w h hu hc, hi, execReserved]

/-- Everything a step can do, by what it is about. -/
theorem step_cases {s : State} {r : Result} (h : step s = r) :
    (s.rstNow ∧ r = .next s.dropEvent.resetBlock) ∨
    (¬ s.rstNow ∧ ∃ w, s.uw = some w ∧ r = andThen (exec (microOf w) s) (fun t => .next t.refetch)) ∨
    (¬ s.rstNow ∧ s.uw = none ∧ ∃ w i, s.cmd = some w ∧ decodeCmd w = .ok i ∧ r = exec i s) ∨
    (¬ s.rstNow ∧ s.uw = none ∧ ∃ w e, s.cmd = some w ∧ decodeCmd w = .error e ∧ r = .next (s.raise eIllegal)) ∨
    (¬ s.rstNow ∧ s.uw = none ∧ s.cmd = none ∧
      (r = exec .pop s.dropEvent ∨ r = .next s.dropEvent.takeRsp ∨ (∃ w, r = .next (s.dropEvent.accept w)) ∨
        r = .next s.dropEvent)) := by
  subst h
  by_cases hr : s.rstNow
  · exact .inl ⟨hr, step_of_rst s hr⟩
  refine .inr ?_
  cases hu : s.uw with
  | some w => exact .inl ⟨hr, w, rfl, step_of_micro s w hr hu⟩
  | none =>
    refine .inr ?_
    cases hc : s.cmd with
    | some w =>
      cases hi : decodeCmd w with
      | ok i => exact .inl ⟨hr, rfl, w, i, rfl, hi, step_of_command s w i hr hu hc hi⟩
      | error e => exact .inr (.inl ⟨hr, rfl, w, e, rfl, hi, step_of_reserved s w e hr hu hc hi⟩)
    | none =>
      refine .inr (.inr ⟨hr, rfl, rfl, ?_⟩)
      simp only [step, agenda_of_port s hr hu hc]
      cases he : s.event with
      | idle => exact .inr (.inr (.inr rfl))
      | rst => exact absurd he hr
      | offer w => exact .inr (.inr (.inl ⟨w, rfl⟩))
      | takeResponse => exact .inr (.inl rfl)
      | takeByte => exact .inl rfl

/-! ### Runs of steps -/

theorem run_zero (s : State) : Sys2Proof.core.run 0 s = .next s := rfl

/-- A run goes on from the state its first step leaves. -/
theorem run_succ (n : Nat) {s t : State} (h : step s = .next t) :
    Sys2Proof.core.run (n + 1) s = Sys2Proof.core.run n t := by
  have h' : Host.Core.step Sys2Proof.core s = .next t := h
  simp only [Host.Core.run, h']

/-! ### Micro-operations -/

/-- A word that decodes to a micro-operation is what the sequencer executes. -/
theorem microOf_of_decode {w : MicroWord} {i : Instr} (h : decodeMicro w = .ok i) : microOf w = i := by
  simp only [microOf, h]

/-- The sequencer's operations are exec of the micro-operation (R145). -/
theorem microOp_microOf (w : MicroWord) (s : State) : microOp (microOf w) s = exec (microOf w) s := by
  unfold microOf
  split
  · rename_i i h
    have bare : ∀ {arg : Half} {j : Instr}, bareMicro arg j = .ok i → i = j := by
      intro arg j hj
      unfold bareMicro at hj
      split at hj <;> cases hj
      rfl
    unfold decodeMicro at h
    dsimp only at h
    split at h
    · split at h
      · rw [bare h]; rfl
      · rw [bare h]; rfl
      · cases h; rfl
      · cases h; rfl
      · rw [bare h]; rfl
      · rw [bare h]; rfl
      · rw [bare h]; rfl
      · cases h
    · cases h
  · rfl

/-- Everything a micro-operation or a run of the sequencer changes: PAY at its end, the working registers, UPC
and the fetched word (R146, R17). -/
structure Emits (s t : State) : Prop where
  frame : t = { s with
    pay := t.pay, payLen := t.payLen, cur := t.cur, bix := t.bix, par := t.par, half := t.half, chk := t.chk
    cnt := t.cnt, syncV := t.syncV, upc := t.upc, uw := t.uw }
  grown : (t.pay = s.pay ∧ t.payLen = s.payLen) ∨
    ∃ vs : List Byte, s.payLen + vs.length ≤ s.cfg.payMax ∧ t.pay = s.pay.store s.payLen vs ∧
      t.payLen = s.payLen + vs.length

theorem Emits.refl (s : State) : Emits s s := ⟨rfl, .inl ⟨rfl, rfl⟩⟩

theorem Emits.trans {s t u : State} (h : Emits s t) (k : Emits t u) : Emits s u := by
  obtain ⟨f, g⟩ := h
  obtain ⟨f', g'⟩ := k
  have hc : t.cfg = s.cfg := by rw [f]
  refine ⟨by rw [f', f], ?_⟩
  rw [hc] at g'
  rcases g with ⟨g1, g2⟩ | ⟨vs, g0, g1, g2⟩ <;> rcases g' with ⟨k1, k2⟩ | ⟨ws, k0, k1, k2⟩
  · exact .inl ⟨k1.trans g1, k2.trans g2⟩
  · exact .inr ⟨ws, by rwa [g2] at k0, by rw [k1, g1, g2], by rw [k2, g2]⟩
  · exact .inr ⟨vs, g0, k1.trans g1, k2.trans g2⟩
  · refine .inr ⟨vs ++ ws, ?_, ?_, ?_⟩
    · rw [List.length_append]; omega
    · rw [k1, g1, g2, store_store]
    · rw [k2, g2, List.length_append, Nat.add_assoc]

theorem Emits.emitSeq {vs : List Byte} {s t : State} (h : emitSeq vs s = .next t) : Emits s t := by
  rcases emitSeq_eq_next h with ⟨-, rfl⟩ | ⟨-, hl, rfl⟩
  · exact .refl _
  · exact ⟨rfl, .inr ⟨vs, hl, rfl, rfl⟩⟩

theorem Emits.emitFrames {bs : List Byte} {s t : State} (h : emitFrames bs s = .next t) : Emits s t := by
  obtain ⟨u, h1, h2⟩ := andThen_eq_next.mp h
  cases h2
  exact (Emits.emitSeq h1).trans ⟨rfl, .inl ⟨rfl, rfl⟩⟩

theorem Emits.nextUop (s : State) : Emits s s.nextUop := ⟨rfl, .inl ⟨rfl, rfl⟩⟩

theorem Emits.counted (s : State) : Emits s s.counted := ⟨rfl, .inl ⟨rfl, rfl⟩⟩

theorem Emits.synced (s : State) (base : Half) : Emits s (s.synced base) := ⟨rfl, .inl ⟨rfl, rfl⟩⟩

theorem Emits.summed (s : State) (d : List Byte) : Emits s (s.summed d) := ⟨rfl, .inl ⟨rfl, rfl⟩⟩

theorem Emits.stopped (s : State) : Emits s { s with uw := none } := ⟨rfl, .inl ⟨rfl, rfl⟩⟩

theorem Emits.refetch (s : State) : Emits s s.refetch := ⟨rfl, .inl ⟨rfl, rfl⟩⟩

/-- A micro-operation only emits. -/
theorem microOp_emits {i : Instr} {s t : State} (h : microOp i s = .next t) : Emits s t := by
  have inj : ∀ {u : State}, Host.Outcome.next (φ := Fault) (ρ := Refusal) u = .next t → u = t :=
    Host.Outcome.next.inj
  cases i with
  | uRaw4 =>
    simp only [microOp, execURaw4, andThen_eq_next] at h
    obtain ⟨u, h1, h2⟩ := h
    exact inj h2 ▸ (Emits.emitSeq h1).trans (.nextUop u)
  | uTone k =>
    simp only [microOp, execUTone, andThen_eq_next] at h
    obtain ⟨u, h1, h2⟩ := h
    exact inj h2 ▸ (Emits.emitSeq h1).trans ((Emits.counted u).trans (.nextUop _))
  | uSync base =>
    simp only [microOp, execUSync, andThen_eq_next] at h
    obtain ⟨u, h1, h2⟩ := h
    exact inj h2 ▸ (Emits.emitFrames h1).trans ((Emits.synced u base).trans ((Emits.counted _).trans (.nextUop _)))
  | uHdr =>
    simp only [microOp, execUHdr, andThen_eq_next] at h
    obtain ⟨u, h1, h2⟩ := h
    exact inj h2 ▸ (Emits.emitFrames h1).trans ((Emits.counted u).trans (.nextUop _))
  | uData =>
    simp only [microOp, execUData] at h
    split at h
    · obtain ⟨u, h1, h2⟩ := andThen_eq_next.mp h
      exact inj h2 ▸ (Emits.summed s _).trans ((Emits.emitFrames h1).trans ((Emits.counted u).trans (.nextUop _)))
    · cases h
  | uEob =>
    simp only [microOp, execUEob, andThen_eq_next] at h
    obtain ⟨u, h1, h2⟩ := h
    exact inj h2 ▸ (Emits.emitSeq h1).trans (.nextUop u)
  | _ => exact inj h ▸ Emits.stopped s

/-- A turn of the sequencer only emits. -/
theorem microCycle_emits {w : MicroWord} {s t : State} (h : microCycle w s = .next t) : Emits s t := by
  unfold microCycle at h
  obtain ⟨u, h1, h2⟩ := andThen_eq_next.mp h
  exact Host.Outcome.next.inj h2 ▸ (microOp_emits h1).trans (.refetch u)

/-- A run of the sequencer only emits, and it is over when it answers. -/
theorem runSequencer_emits {n : Nat} {s t : State} (h : runSequencer n s = .next t) :
    Emits s t ∧ t.uw = none := by
  induction n generalizing s with
  | zero => cases h
  | succ n ih =>
    simp only [runSequencer] at h
    split at h
    · rename_i hu
      cases h
      exact ⟨.refl _, hu⟩
    · obtain ⟨u, h1, h2⟩ := andThen_eq_next.mp h
      exact ⟨(microCycle_emits h1).trans (ih h2).1, (ih h2).2⟩

/-- Turns of the sequencer are steps of the machine while the host does nothing (R145, R50). -/
theorem run_of_cycles {n : Nat} {s t : State} (h : microCycles n s = .next t) (he : s.host.events = []) :
    Sys2Proof.core.run n s = .next t := by
  induction n generalizing s with
  | zero => exact h
  | succ n ih =>
    simp only [microCycles] at h
    split at h
    · cases h
    · rename_i w hw
      obtain ⟨u, h1, h2⟩ := andThen_eq_next.mp h
      have hn : ¬ s.rstNow := by simp [he]
      have hs : step s = .next u := by
        rw [step_of_micro s w hn hw, ← h1, microCycle, microOp_microOf]
      rw [run_succ n hs]
      have hh : u.host = s.host := by rw [(microCycle_emits h1).frame]
      exact ih h2 (by rw [hh, he])

end Sys2Proof.Machine
end

