-- ==== Sys2Proof/Laws/Words.lean ====
section
/-! SUPPORT. The fields of command words and micro-words, and the words their fields make up. -/

namespace Sys2Proof

/-- The upper field of two that stand side by side. -/
theorem extract_append_upper {m n : Nat} (a : BitVec m) (b : BitVec n) : (a ++ b).extractLsb' n m = a := by
  ext i hi
  simp [BitVec.getLsbD_append, hi]

/-- The lower field. -/
theorem extract_append_lower {m n : Nat} (a : BitVec m) (b : BitVec n) : (a ++ b).extractLsb' 0 n = b := by
  ext i hi
  simp [BitVec.getLsbD_append, hi]

/-- A word is its two fields side by side. -/
theorem append_extract {m n : Nat} (w : BitVec (m + n)) : w.extractLsb' n m ++ w.extractLsb' 0 n = w := by
  ext i hi
  simp only [BitVec.getElem_append, BitVec.getElem_extractLsb']
  split
  · rw [Nat.zero_add, BitVec.getLsbD_eq_getElem hi]
  · rw [show n + (i - n) = i by omega, BitVec.getLsbD_eq_getElem hi]

/-- A field of a field. -/
theorem extract_extract {n : Nat} (w : BitVec n) (a b l m : Nat) (h : a + l ≤ m) :
    (w.extractLsb' b m).extractLsb' a l = w.extractLsb' (b + a) l := by
  ext i hi
  have hm : a + i < m := by omega
  simp [hm, Nat.add_assoc]

/-- The opcode of a command word (R80). -/
theorem cmdWord_opcode (op imm : Byte) : (cmdWord op imm).extractLsb' 8 8 = op :=
  extract_append_upper op imm

/-- The imm8 of a command word (R80). -/
theorem cmdWord_imm (op imm : Byte) : (cmdWord op imm).extractLsb' 0 8 = imm :=
  extract_append_lower op imm

/-- A command word is its two fields (R80). -/
theorem cmdWord_fields (w : CmdWord) : cmdWord (w.extractLsb' 8 8) (w.extractLsb' 0 8) = w :=
  append_extract (m := 8) (n := 8) w

/-- The argument of a micro-word (R85). -/
theorem microWord_arg (op : BitVec 4) (arg : Half) : (microWord op arg).extractLsb' 0 16 = arg :=
  extract_append_lower (op ++ (0 : BitVec 4)) arg

/-- The middle field of a micro-word is zero (R85). -/
theorem microWord_zero (op : BitVec 4) (arg : Half) : (microWord op arg).extractLsb' 16 4 = 0 := by
  have h : (microWord op arg).extractLsb' 16 8 = op ++ (0 : BitVec 4) :=
    extract_append_upper (op ++ (0 : BitVec 4)) arg
  have k := congrArg (BitVec.extractLsb' 0 4) h
  rw [extract_extract _ _ _ _ _ (by omega)] at k
  exact k.trans (extract_append_lower op 0)

/-- The uop of a micro-word (R85). -/
theorem microWord_uop (op : BitVec 4) (arg : Half) : (microWord op arg).extractLsb' 20 4 = op := by
  have h : (microWord op arg).extractLsb' 16 8 = op ++ (0 : BitVec 4) :=
    extract_append_upper (op ++ (0 : BitVec 4)) arg
  have k := congrArg (BitVec.extractLsb' 4 4) h
  rw [extract_extract _ _ _ _ _ (by omega)] at k
  exact k.trans (extract_append_upper op 0)

/-- A micro-word whose middle field is zero is its two other fields (R85). -/
theorem microWord_fields (w : MicroWord) (h : w.extractLsb' 16 4 = 0) :
    microWord (w.extractLsb' 20 4) (w.extractLsb' 0 16) = w := by
  have k := append_extract (m := 4) (n := 4) (w.extractLsb' 16 8)
  rw [extract_extract _ _ _ _ _ (by omega), extract_extract _ _ _ _ _ (by omega), h] at k
  have e := append_extract (m := 8) (n := 16) w
  rw [← k] at e
  exact e

/-- The table's decoder on the number of a command word. -/
theorem decodeTableWord_cmd (w : CmdWord) : decodeTableWord 16 w.toNat = (decodeCmd w).toOption := by
  unfold decodeTableWord
  rw [if_pos rfl, if_pos w.isLt, BitVec.ofNat_toNat, BitVec.setWidth_eq]

/-- The table's decoder on the number of a micro-word. -/
theorem decodeTableWord_micro (w : MicroWord) : decodeTableWord 24 w.toNat = (decodeMicro w).toOption := by
  unfold decodeTableWord
  rw [if_neg (by decide), if_pos rfl, if_pos w.isLt, BitVec.ofNat_toNat, BitVec.setWidth_eq]

/-- What the table's decoder reads is a command word or a micro-word. -/
theorem decodeTableWord_eq_some {n w : Nat} {i : Instr} (h : decodeTableWord n w = some i) :
    (n = 16 ∧ ∃ c : CmdWord, w = c.toNat ∧ decodeCmd c = .ok i) ∨
      (n = 24 ∧ ∃ m : MicroWord, w = m.toNat ∧ decodeMicro m = .ok i) := by
  have ok : ∀ {e : Except Reject Instr}, e.toOption = some i → e = .ok i := by
    intro e he
    cases e <;> simp_all [Except.toOption]
  unfold decodeTableWord at h
  split at h
  · split at h
    · rename_i hn hw
      exact .inl ⟨hn, _, ((BitVec.toNat_ofNat _ _).trans (Nat.mod_eq_of_lt hw)).symm, ok h⟩
    · cases h
  · split at h
    · split at h
      · rename_i hn hw
        exact .inr ⟨hn, _, ((BitVec.toNat_ofNat _ _).trans (Nat.mod_eq_of_lt hw)).symm, ok h⟩
      · cases h
    · cases h

end Sys2Proof
end

