-- ==== Sys2Proof/Laws/Frames.lean ====
section
/-! SUPPORT. What any instruction can do to the buffers, the lengths, the mode and the parameters, and which words
RESET and FINISH are. -/

namespace Sys2Proof.Machine

open Sys2Proof

/-- A buffer is as before but for writes to it. -/
inductive Stored : Memory → Memory → Prop where
  | refl (m : Memory) : Stored m m
  | write {m m' : Memory} (a : Nat) (vs : List Byte) (h : Stored m m') : Stored m (m'.store a vs)

theorem Stored.wf {m m' : Memory} (h : Stored m m') (hm : m.wf) : m'.wf := by
  induction h with
  | refl => exact hm
  | write a vs _ ih => exact store_wf _ _ _ ih

theorem Stored.store (m : Memory) (a : Nat) (vs : List Byte) : Stored m (m.store a vs) := .write a vs (.refl m)

theorem Stored.trans {m m' m'' : Memory} (h : Stored m m') (k : Stored m' m'') : Stored m m'' := by
  induction k with
  | refl => exact h
  | write a vs _ ih => exact .write a vs ih

theorem Stored.of_eq {m m' : Memory} (h : m' = m) : Stored m m' := h ▸ .refl m

/-- PAY only grows at its end, within its capacity (R17). -/
def Grown (s t : State) : Prop :=
  (t.pay = s.pay ∧ t.payLen = s.payLen) ∨
    ∃ vs : List Byte, s.payLen + vs.length ≤ s.cfg.payMax ∧ t.pay = s.pay.store s.payLen vs ∧
      t.payLen = s.payLen + vs.length

theorem Grown.le {s t : State} (h : Grown s t) : s.payLen ≤ t.payLen := by
  rcases h with ⟨-, h⟩ | ⟨vs, -, -, h⟩ <;> omega

theorem Grown.read {s t : State} (h : Grown s t) (a : Nat) (ha : a < s.payLen) : t.pay.read a = s.pay.read a := by
  rcases h with ⟨h, -⟩ | ⟨vs, -, h, -⟩
  · rw [h]
  · rw [h, read_store_of_outside _ _ _ _ (.inl ha)]

theorem Grown.stored {s t : State} (h : Grown s t) : Stored s.pay t.pay := by
  rcases h with ⟨h, -⟩ | ⟨vs, -, h, -⟩
  · exact .of_eq h
  · exact h ▸ .store _ _ _

theorem Grown.capacity {s t : State} (h : Grown s t) (hs : s.payLen ≤ s.cfg.payMax) : t.payLen ≤ s.cfg.payMax := by
  rcases h with ⟨-, h⟩ | ⟨vs, h1, -, h⟩ <;> omega

/-- What an instruction other than RESET can do to the parameters, the mode, the buffers and their lengths. -/
structure Touches (i : Instr) (s t : State) : Prop where
  cfg : t.cfg = s.cfg
  mode : t.mode = s.mode ∨ i = .finish ∧ s.mode = .isOpen
  name : Stored s.name t.name
  img : Stored s.img t.img
  cb : Stored s.cb t.cb
  pay : Grown s t
  nameLen : t.nameLen = s.nameLen ∨ t.nameLen ≤ 16
  imgLen : t.imgLen = s.imgLen ∨ t.imgLen ≤ s.cfg.imgMax

/-- An instruction that leaves the buffers, the lengths and the mode alone, but for CB. -/
theorem Touches.of_eq {i : Instr} {s t : State} (cfg : t.cfg = s.cfg) (mode : t.mode = s.mode)
    (name : t.name = s.name) (img : t.img = s.img) (cb : Stored s.cb t.cb) (pay : t.pay = s.pay)
    (payLen : t.payLen = s.payLen) (nameLen : t.nameLen = s.nameLen ∨ t.nameLen = 0)
    (imgLen : t.imgLen = s.imgLen ∨ t.imgLen = 0) : Touches i s t where
  cfg := cfg
  mode := .inl mode
  name := .of_eq name
  img := .of_eq img
  cb := cb
  pay := .inl ⟨pay, payLen⟩
  nameLen := nameLen.imp_right (fun h => by omega)
  imgLen := imgLen.imp_right (fun h => by omega)

/-- A micro-operation touches PAY only. -/
theorem Touches.of_emits {i : Instr} {s t : State} (h : Emits s t) : Touches i s t where
  cfg := by rw [h.frame]
  mode := .inl (by rw [h.frame])
  name := .of_eq (by rw [h.frame])
  img := .of_eq (by rw [h.frame])
  cb := .of_eq (by rw [h.frame])
  pay := h.grown
  nameLen := .inl (by rw [h.frame])
  imgLen := .inl (by rw [h.frame])

/-- Everything a command of OPEN mode can do: what it does there, or E_SEQUENCE (R190). -/
theorem whenOpen_cases {s t : State} {k : State → Result} (h : whenOpen s k = .next t) :
    (s.mode = .isOpen ∧ k s = .next t) ∨ (s.mode = .isSealed ∧ t = s.raise eSequence) := by
  unfold whenOpen at h
  split at h
  · exact .inr ⟨by assumption, (Host.Outcome.next.inj h).symm⟩
  · exact .inl ⟨by assumption, h⟩

/-- Everything ENCFILE's encoding can do, in every state (R197). -/
theorem encodeStaged_cases {s t : State} (h : encodeStaged s = .next t) :
    ∃ u, Emits (((s.withAddrs typeProgram (stagedStart s) (endAddrOf (stagedStart s)
        (programOf s.stagedRaw).length)).withHeader typeProgram (stagedStart s) (endAddrOf (stagedStart s)
        (programOf s.stagedRaw).length) s.stagedName).enterProg fileEntry) u ∧
      u.uw = none ∧ t = u.fileDone := by
  unfold encodeStaged withImage at h
  split at h
  · unfold withName at h
    split at h
    · obtain ⟨u, h1, h2⟩ := andThen_eq_next.mp h
      obtain ⟨k1, k2⟩ := runSequencer_emits h1
      exact ⟨u, k1, k2, (Host.Outcome.next.inj h2).symm⟩
    · cases h
  · cases h

/-- Everything FINISH can do, in every state (R199, R190). -/
theorem finish_cases {s t : State} (h : exec .finish s = .next t) :
    (s.mode = .isSealed ∧ t = s.raise eSequence) ∨
    (s.mode = .isOpen ∧ s.cfg.payMax < s.payLen + eotRegionLen ∧ t = s.raise eCapacity) ∨
    (s.mode = .isOpen ∧ ∃ u,
      Emits (((s.clearStaging.withAddrs typeEot 0 0).withHeader typeEot 0 0 []).enterProg eotEntry) u ∧
        u.uw = none ∧ t = u.tapeDone) := by
  simp only [exec, execFinish] at h
  rcases whenOpen_cases h with ⟨hm, h⟩ | ⟨hm, rfl⟩
  · split at h
    · exact .inr (.inl ⟨hm, by assumption, (Host.Outcome.next.inj h).symm⟩)
    · obtain ⟨u, h1, h2⟩ := andThen_eq_next.mp h
      obtain ⟨k1, k2⟩ := runSequencer_emits h1
      exact .inr (.inr ⟨hm, u, k1, k2, (Host.Outcome.next.inj h2).symm⟩)
  · exact .inl ⟨hm, rfl⟩

/-- Everything ENCFILE can do, in every state (R197, R190, R227). -/
theorem encfile_cases {s t : State} (h : exec .encfile s = .next t) :
    (s.mode = .isSealed ∧ t = s.raise eSequence) ∨
    (s.mode = .isOpen ∧ (t = s.clearStaging.raise eCapacity ∨ t = s.clearStaging.raise eMalformed ∨
      encodeStaged s = .next t)) := by
  simp only [exec, execEncfile] at h
  rcases whenOpen_cases h with ⟨hm, h⟩ | ⟨hm, rfl⟩
  · refine .inr ⟨hm, ?_⟩
    split at h
    · exact .inl (Host.Outcome.next.inj h).symm
    · split at h
      · exact .inr (.inl (Host.Outcome.next.inj h).symm)
      · split at h
        · exact .inl (Host.Outcome.next.inj h).symm
        · exact .inr (.inr h)
  · exact .inl ⟨hm, rfl⟩

/-- ENCODE_TAPE writes CB and the working registers of the frames only. -/
theorem taped_frame (files : List (List Byte × List Byte)) (s : State) :
    s.taped files = { s with
      cb := (s.taped files).cb, chk := (s.taped files).chk, cur := (s.taped files).cur, bix := (s.taped files).bix
      par := (s.taped files).par, half := (s.taped files).half } ∧ Stored s.cb (s.taped files).cb := by
  suffices h : ∃ u : State, (files.foldl (fun t f => if f.2.length < 2 then t else t.filed f.1 f.2) s) = { s with
      cb := u.cb, chk := u.chk, cur := u.cur, bix := u.bix, par := u.par, half := u.half } ∧ Stored s.cb u.cb by
    obtain ⟨u, h, hw⟩ := h
    simp only [State.taped, h]
    exact ⟨rfl, .write _ _ hw⟩
  induction files generalizing s with
  | nil => exact ⟨s, rfl, .refl _⟩
  | cons f fs ih =>
    simp only [List.foldl_cons]
    split
    · exact ih s
    · obtain ⟨u, h, hw⟩ := ih (s.filed f.1 f.2)
      exact ⟨u, h.trans rfl, (Stored.store _ _ _).trans hw⟩

/-- What RESET leaves: the block's reset state (R202, R30). -/
theorem exec_reset (s : State) : exec .reset s = .next (s.resetBlock.respond codeOk 0x00) := rfl

/-- Every instruction but RESET, in every state (R17, R19, R11). -/
theorem exec_touches {i : Instr} {s t : State} (hi : i ≠ .reset) (h : exec i s = .next t) : Touches i s t := by
  have inj : ∀ {u : State}, Host.Outcome.next (φ := Fault) (ρ := Refusal) u = .next t → u = t :=
    Host.Outcome.next.inj
  have same : ∀ {u : State}, Host.Outcome.next (φ := Fault) (ρ := Refusal) u = .next t → Touches i s u →
      Touches i s t := fun h k => inj h ▸ k
  have seq : Touches i s (s.raise eSequence) :=
    .of_eq rfl rfl rfl rfl (.refl _) rfl rfl (.inl rfl) (.inl rfl)
  cases i with
  | reset => exact absurd rfl hi
  | nop => exact same h (.of_eq rfl rfl rfl rfl (.refl _) rfl rfl (.inl rfl) (.inl rfl))
  | name c =>
    simp only [exec, execName] at h
    rcases whenOpen_cases h with ⟨-, h⟩ | ⟨-, rfl⟩
    · split at h
      · exact same h (.of_eq rfl rfl rfl rfl (.refl _) rfl rfl (.inl rfl) (.inl rfl))
      split at h
      · exact same h (.of_eq rfl rfl rfl rfl (.refl _) rfl rfl (.inl rfl) (.inl rfl))
      split at h
      · exact same h (.of_eq rfl rfl rfl rfl (.refl _) rfl rfl (.inl rfl) (.inl rfl))
      split at h
      · rename_i hl
        exact same h ⟨rfl, .inl rfl, .store _ _ _, .refl _, .refl _, .inl ⟨rfl, rfl⟩, .inr hl, .inl rfl⟩
      · cases h
    · exact seq
  | data b =>
    simp only [exec, execData] at h
    rcases whenOpen_cases h with ⟨-, h⟩ | ⟨-, rfl⟩
    · split at h
      · exact same h (.of_eq rfl rfl rfl rfl (.refl _) rfl rfl (.inl rfl) (.inl rfl))
      split at h
      · rename_i hl
        exact same h ⟨rfl, .inl rfl, .refl _, .store _ _ _, .refl _, .inl ⟨rfl, rfl⟩, .inl rfl, .inr hl⟩
      · cases h
    · exact seq
  | discard =>
    simp only [exec, execDiscard] at h
    rcases whenOpen_cases h with ⟨-, h⟩ | ⟨-, rfl⟩
    · exact same h (.of_eq rfl rfl rfl rfl (.refl _) rfl rfl (.inr rfl) (.inr rfl))
    · exact seq
  | encfile =>
    rcases encfile_cases h with ⟨-, rfl⟩ | ⟨hm, rfl | rfl | h⟩
    · exact seq
    · exact .of_eq rfl rfl rfl rfl (.refl _) rfl rfl (.inr rfl) (.inr rfl)
    · exact .of_eq rfl rfl rfl rfl (.refl _) rfl rfl (.inr rfl) (.inr rfl)
    · obtain ⟨u, hu, -, rfl⟩ := encodeStaged_cases h
      have k : Touches .encfile _ u := .of_emits hu
      exact ⟨k.cfg, .inl (k.mode.resolve_right (by rintro ⟨e, -⟩; cases e)), k.name, k.img,
        (Stored.store _ _ _).trans k.cb, k.pay, .inr (Nat.zero_le _), .inr (Nat.zero_le _)⟩
  | finish =>
    rcases finish_cases h with ⟨-, rfl⟩ | ⟨-, -, rfl⟩ | ⟨hm, u, hu, -, rfl⟩
    · exact seq
    · exact .of_eq rfl rfl rfl rfl (.refl _) rfl rfl (.inl rfl) (.inl rfl)
    · have k : Touches .finish _ u := .of_emits hu
      exact ⟨k.cfg, .inr ⟨rfl, hm⟩, k.name, k.img, (Stored.store _ _ _).trans k.cb, k.pay,
        .inr (k.nameLen.elim (fun e => e ▸ Nat.zero_le _) id), k.imgLen.elim (fun e => .inr (e ▸ Nat.zero_le _)) .inr⟩
  | rdsr k =>
    simp only [exec, execRdsr] at h
    split at h
    · exact same h (.of_eq rfl rfl rfl rfl (.refl _) rfl rfl (.inl rfl) (.inl rfl))
    · exact same h (.of_eq rfl rfl rfl rfl (.refl _) rfl rfl (.inl rfl) (.inl rfl))
  | uEnd => exact .of_emits (microOp_emits (i := .uEnd) h)
  | uRaw4 => exact .of_emits (microOp_emits (i := .uRaw4) h)
  | uTone k => exact .of_emits (microOp_emits (i := .uTone k) h)
  | uSync base => exact .of_emits (microOp_emits (i := .uSync base) h)
  | uHdr => exact .of_emits (microOp_emits (i := .uHdr) h)
  | uData => exact .of_emits (microOp_emits (i := .uData) h)
  | uEob => exact .of_emits (microOp_emits (i := .uEob) h)
  | encodeFile dispName raw =>
    simp only [exec, execEncodeFile] at h
    split at h
    · exact same h (.of_eq rfl rfl rfl rfl (.refl _) rfl rfl (.inr rfl) (.inr rfl))
    · exact same h (.of_eq rfl rfl rfl rfl (.store _ _ _) rfl rfl (.inl rfl) (.inl rfl))
  | makeHeader t a e lab => exact same h (.of_eq rfl rfl rfl rfl (.store _ _ _) rfl rfl (.inl rfl) (.inl rfl))
  | encodeEot =>
    simp only [exec, execEncodeEot] at h
    exact same h (.of_eq rfl rfl rfl rfl (.store _ _ _) rfl rfl (.inl rfl) (.inl rfl))
  | encodeTape files =>
    simp only [exec, execEncodeTape] at h
    obtain ⟨e, k⟩ := taped_frame files s
    rw [← inj h]
    refine .of_eq ?_ ?_ ?_ ?_ k ?_ ?_ (.inl ?_) (.inl ?_) <;> (simp only [State.setUnitOut]; rw [e])
  | pop =>
    simp only [exec, execPop] at h
    split at h
    · exact same h (.of_eq rfl rfl rfl rfl (.refl _) rfl rfl (.inl rfl) (.inl rfl))
    · exact same h (.of_eq rfl rfl rfl rfl (.refl _) rfl rfl (.inl rfl) (.inl rfl))
  | _ => exact same h (.of_eq rfl rfl rfl rfl (.refl _) rfl rfl (.inl rfl) (.inl rfl))

/-! ### Which words the two mode-changing commands are -/

/-- RESET is the word 0x0700 (R202). -/
theorem decodeCmd_reset {w : CmdWord} (h : decodeCmd w = .ok .reset) : w = 0x0700 := by
  have e := cmdWord_fields w
  unfold decodeCmd at h
  dsimp only at h
  split at h <;> (try unfold bareCommand at h) <;> (try split at h) <;> cases h
  rename_i h1 h2
  rw [← e, h2, show w.extractLsb' 8 8 = 0x07#8 from BitVec.eq_of_toNat_eq h1]
  rfl

/-- FINISH is the word 0x0500 (R199). -/
theorem decodeCmd_finish {w : CmdWord} (h : decodeCmd w = .ok .finish) : w = 0x0500 := by
  have e := cmdWord_fields w
  unfold decodeCmd at h
  dsimp only at h
  split at h <;> (try unfold bareCommand at h) <;> (try split at h) <;> cases h
  rename_i h1 h2
  rw [← e, h2, show w.extractLsb' 8 8 = 0x05#8 from BitVec.eq_of_toNat_eq h1]
  rfl

/-- Every command word is one of the eight commands. -/
theorem decodeCmd_range {w : CmdWord} {i : Instr} (h : decodeCmd w = .ok i) :
    i = .nop ∨ (∃ c, i = .name c) ∨ (∃ b, i = .data b) ∨ i = .discard ∨ i = .encfile ∨ i = .finish ∨
      (∃ k, i = .rdsr k) ∨ i = .reset := by
  unfold decodeCmd at h
  dsimp only at h
  split at h <;> (try unfold bareCommand at h) <;> (try split at h) <;> cases h <;> simp

/-- Everything a step can do to the buffers, the lengths, the mode and the parameters, in every state. -/
theorem step_touches {s t : State} (h : step s = .next t) :
    (t = s.dropEvent.resetBlock ∧ s.rstNow) ∨
    (¬ s.rstNow ∧ s.uw = none ∧ s.cmd = some 0x0700 ∧ t = s.resetBlock.respond codeOk 0x00) ∨
    (¬ s.rstNow ∧ ∃ i, Touches i s t ∧ (i = .finish → s.uw = none ∧ s.cmd = some 0x0500)) := by
  rcases step_cases h with ⟨hr, e⟩ | ⟨hr, w, hu, e⟩ | ⟨hr, hu, w, i, hc, hd, e⟩ | ⟨hr, hu, w, e', hc, hd, e⟩ |
    ⟨hr, hu, hc, e⟩
  · exact .inl ⟨Host.Outcome.next.inj e, hr⟩
  · refine .inr (.inr ?_)
    refine ⟨hr, .uEnd, ?_, by rintro ⟨⟩⟩
    have : microCycle w s = .next t := by rw [e, microCycle, microOp_microOf]
    exact .of_emits (microCycle_emits this)
  · by_cases hi : i = .reset
    · subst hi
      exact .inr (.inl ⟨hr, hu, by rw [hc, decodeCmd_reset hd],
        Host.Outcome.next.inj (e.trans (exec_reset s))⟩)
    · exact .inr (.inr ⟨hr, i, exec_touches hi e.symm, by rintro rfl; exact ⟨hu, by rw [hc, decodeCmd_finish hd]⟩⟩)
  · refine .inr (.inr ?_)
    refine ⟨hr, .uEnd, ?_, by rintro ⟨⟩⟩
    have e := Host.Outcome.next.inj e; subst e
    exact .of_eq rfl rfl rfl rfl (.refl _) rfl rfl (.inl rfl) (.inl rfl)
  · refine .inr (.inr ?_)
    refine ⟨hr, .uEnd, ?_, by rintro ⟨⟩⟩
    rcases e with e | e | ⟨w, e⟩ | e
    · have k := exec_touches (by simp) e.symm
      exact ⟨k.cfg, .inl (k.mode.resolve_right (by rintro ⟨e, -⟩; cases e)), k.name, k.img, k.cb, k.pay,
        k.nameLen, k.imgLen⟩
    · have e := Host.Outcome.next.inj e; subst e
      rw [takeRsp_eq]
      exact .of_eq rfl rfl rfl rfl (.refl _) rfl rfl (.inl rfl) (.inl rfl)
    · have e := Host.Outcome.next.inj e; subst e
      rw [accept_eq]
      exact .of_eq rfl rfl rfl rfl (.refl _) rfl rfl (.inl rfl) (.inl rfl)
    · have e := Host.Outcome.next.inj e; subst e
      exact .of_eq rfl rfl rfl rfl (.refl _) rfl rfl (.inl rfl) (.inl rfl)

end Sys2Proof.Machine
end

