-- ==== Sys2Proof/Laws/PerInstr.lean ====
section
/-! SUPPORT. A statement about every instruction as syntax: its word fits its width. -/

namespace Sys2Proof.Laws

open Sys2Proof

/-- The word of a command has 16 bits and that of a micro-operation 24, and it fits in them (R80, R85); every other
operation has none (R93). -/
def EncodeFits.Statement (i : Instr) : Prop :=
  ∀ n w : Nat, encode i = some (n, w) → (n = 16 ∨ n = 24) ∧ w < 2 ^ n

theorem EncodeFits.of_command {i : Instr} (c : CmdWord) (h : encode i = some (16, c.toNat)) :
    EncodeFits.Statement i := by
  intro n w e
  rw [h] at e
  obtain ⟨rfl, rfl⟩ := Prod.mk.inj (Option.some.inj e)
  exact ⟨.inl rfl, c.isLt⟩

theorem EncodeFits.of_micro {i : Instr} (m : MicroWord) (h : encode i = some (24, m.toNat)) :
    EncodeFits.Statement i := by
  intro n w e
  rw [h] at e
  obtain ⟨rfl, rfl⟩ := Prod.mk.inj (Option.some.inj e)
  exact ⟨.inr rfl, m.isLt⟩

theorem EncodeFits.of_none {i : Instr} (h : encode i = none) : EncodeFits.Statement i := by
  intro n w e
  rw [h] at e
  cases e

theorem EncodeFits.nop : EncodeFits.Statement .nop := EncodeFits.of_command _ rfl

theorem EncodeFits.name (c : Byte) : EncodeFits.Statement (.name c) := EncodeFits.of_command _ rfl

theorem EncodeFits.data (b : Byte) : EncodeFits.Statement (.data b) := EncodeFits.of_command _ rfl

theorem EncodeFits.discard : EncodeFits.Statement .discard := EncodeFits.of_command _ rfl

theorem EncodeFits.encfile : EncodeFits.Statement .encfile := EncodeFits.of_command _ rfl

theorem EncodeFits.finish : EncodeFits.Statement .finish := EncodeFits.of_command _ rfl

theorem EncodeFits.rdsr (k : Byte) : EncodeFits.Statement (.rdsr k) := EncodeFits.of_command _ rfl

theorem EncodeFits.reset : EncodeFits.Statement .reset := EncodeFits.of_command _ rfl

theorem EncodeFits.uEnd : EncodeFits.Statement .uEnd := EncodeFits.of_micro _ rfl

theorem EncodeFits.uRaw4 : EncodeFits.Statement .uRaw4 := EncodeFits.of_micro _ rfl

theorem EncodeFits.uTone (k : Half) : EncodeFits.Statement (.uTone k) := EncodeFits.of_micro _ rfl

theorem EncodeFits.uSync (base : Half) : EncodeFits.Statement (.uSync base) := EncodeFits.of_micro _ rfl

theorem EncodeFits.uHdr : EncodeFits.Statement .uHdr := EncodeFits.of_micro _ rfl

theorem EncodeFits.uData : EncodeFits.Statement .uData := EncodeFits.of_micro _ rfl

theorem EncodeFits.uEob : EncodeFits.Statement .uEob := EncodeFits.of_micro _ rfl

theorem EncodeFits.encodeBit (bit : Bool) : EncodeFits.Statement (.encodeBit bit) := EncodeFits.of_none rfl

theorem EncodeFits.encodeByte (b : Byte) : EncodeFits.Statement (.encodeByte b) := EncodeFits.of_none rfl

theorem EncodeFits.encodeBytes (bytes : List Byte) :
    EncodeFits.Statement (.encodeBytes bytes) := EncodeFits.of_none rfl

theorem EncodeFits.xorsum (bytes : List Byte) :
    EncodeFits.Statement (.xorsum bytes) := EncodeFits.of_none rfl

theorem EncodeFits.encodeDataBlock (d : List Byte) :
    EncodeFits.Statement (.encodeDataBlock d) := EncodeFits.of_none rfl

theorem EncodeFits.stem (dispName : List Byte) :
    EncodeFits.Statement (.stem dispName) := EncodeFits.of_none rfl

theorem EncodeFits.trunc16 (codes : List Byte) :
    EncodeFits.Statement (.trunc16 codes) := EncodeFits.of_none rfl

theorem EncodeFits.upcase (codes : List Byte) :
    EncodeFits.Statement (.upcase codes) := EncodeFits.of_none rfl

theorem EncodeFits.remap (codes : List Byte) : EncodeFits.Statement (.remap codes) := EncodeFits.of_none rfl

theorem EncodeFits.pad16 (codes : List Byte) : EncodeFits.Statement (.pad16 codes) := EncodeFits.of_none rfl

theorem EncodeFits.makeLabel (codes : List Byte) :
    EncodeFits.Statement (.makeLabel codes) := EncodeFits.of_none rfl

theorem EncodeFits.makeHeader (t : Byte) (startAddr endAddr : Half) (lab : List Byte) :
    EncodeFits.Statement (.makeHeader t startAddr endAddr lab) := EncodeFits.of_none rfl

theorem EncodeFits.encodeFile (dispName raw : List Byte) :
    EncodeFits.Statement (.encodeFile dispName raw) := EncodeFits.of_none rfl

theorem EncodeFits.encodeEot : EncodeFits.Statement .encodeEot := EncodeFits.of_none rfl

theorem EncodeFits.encodeTape (files : List (List Byte × List Byte)) :
    EncodeFits.Statement (.encodeTape files) := EncodeFits.of_none rfl

theorem EncodeFits.writeContainer (payload : List Byte) :
    EncodeFits.Statement (.writeContainer payload) := EncodeFits.of_none rfl

theorem EncodeFits.pop : EncodeFits.Statement .pop := EncodeFits.of_none rfl

end Sys2Proof.Laws
end

