-- ==== Sys2Proof/Tests/Slice0.lean ====
section
/-! SUPPORT. Small tests: ill-formed terms, words written out from the spec's encodings, one step or less per
instruction with values from 95_test_vectors.md, and a witness for each statement's hypotheses. -/

namespace Sys2Proof.Tests

open Sys2Proof Sys2Proof.Machine

/-! ### WellFormed refuses what the spec gives no instruction (one test per check) -/

/-- R86: k is 1..0xFFFF. -/
theorem test_wf_tone_zero : Instr.wf (.uTone 0) = false ∧ Instr.wf (.uTone 1) = true ∧
    Instr.wf (.uTone 0xFFFF) = true := by decide

/-- R86: the base is 0x0080 or 0x0000. -/
theorem test_wf_sync_base : Instr.wf (.uSync 0x0081) = false ∧ Instr.wf (.uSync 0x8000) = false ∧
    Instr.wf (.uSync 0x0080) = true ∧ Instr.wf (.uSync 0x0000) = true := by decide

/-- R130: at most 16 codes. -/
theorem test_wf_pad16_length : Instr.wf (.pad16 (List.replicate 17 0x41)) = false ∧
    Instr.wf (.pad16 (List.replicate 16 0x41)) = true := by decide

/-- R180: at most 2^32 − 1 payload bytes. -/
theorem test_wf_container_length (p : List Byte) (h : p.length = 2 ^ 32) :
    Instr.wf (.writeContainer p) = false ∧ Instr.wf (.writeContainer p.tail) = true := by
  constructor
  · simp [Instr.wf, h]
  · simp [Instr.wf, h]

/-! ### Decoding: words written out bit by bit from R80, R81 (opcode, imm8) and R85, R86 (uop, zero, arg) -/

theorem test_decode_commands_bare :
    decodeTableWord 16 0b00000000_00000000 = some .nop ∧
    decodeTableWord 16 0b00000011_00000000 = some .discard ∧
    decodeTableWord 16 0b00000100_00000000 = some .encfile ∧
    decodeTableWord 16 0b00000101_00000000 = some .finish ∧
    decodeTableWord 16 0b00000111_00000000 = some .reset := by decide

theorem test_decode_commands_imm8 :
    decodeTableWord 16 0b00000001_01000001 = some (.name 0x41) ∧
    decodeTableWord 16 0b00000010_11111111 = some (.data 0xFF) ∧
    decodeTableWord 16 0b00000110_00000011 = some (.rdsr 0x03) := by decide

/-- V10: reserved opcodes and a non-zero immediate, each by its name. -/
theorem test_decode_commands_reserved :
    decodeCmd 0x0001 = .error .reservedImmediate ∧ decodeCmd 0x0301 = .error .reservedImmediate ∧
    decodeCmd 0x0800 = .error .reservedOpcode ∧ decodeCmd 0xFFFF = .error .reservedOpcode := by decide

theorem test_decode_micro_words :
    decodeTableWord 24 0b0000_0000_0000000000000000 = some .uEnd ∧
    decodeTableWord 24 0b0001_0000_0000000000000000 = some .uRaw4 ∧
    decodeTableWord 24 0b0010_0000_0110101000000000 = some (.uTone 0x6A00) ∧
    decodeTableWord 24 0b0011_0000_0000000010000000 = some (.uSync 0x0080) ∧
    decodeTableWord 24 0b0100_0000_0000000000000000 = some .uHdr ∧
    decodeTableWord 24 0b0101_0000_0000000000000000 = some .uData ∧
    decodeTableWord 24 0b0110_0000_0000000000000000 = some .uEob := by decide

theorem test_decode_micro_reserved :
    decodeMicro 0x700000 = .error .reservedMicroOp ∧ decodeMicro 0xF00000 = .error .reservedMicroOp ∧
    decodeMicro 0x210000 = .error .nonzeroField ∧ decodeMicro 0x100001 = .error .nonzeroArgument := by decide

/-- R93: unit operations have no word, and no other width carries an instruction. -/
theorem test_decode_other_widths : decodeTableWord 8 0x00 = none ∧ decodeTableWord 16 0x10000 = none ∧
    decodeTableWord 24 0x1000000 = none := by decide

/-- R90 and R92: the encoder's words. -/
theorem test_encode_words : encode (.name 0x54) = some (16, 0x0154) ∧ encode (.data 0xA9) = some (16, 0x02A9) ∧
    encode (.uTone 0x6A00) = some (24, 0x206A00) ∧ encode (.uSync 0x0080) = some (24, 0x300080) ∧
    encode .pop = none := by decide

/-! ### States -/

/-- The block after reset with small capacities. -/
def small (imgMax payMax : Nat) : State := { State.reset with cfg := ⟨imgMax, payMax⟩ }

/-- A block that has been told a name and an image (the bytes of R192's and R194's examples). -/
def staged : State :=
  { State.reset with
    name := Memory.store [] 0 [0x54, 0x45, 0x53, 0x54], nameLen := 4, dotSeen := true
    img := Memory.store [] 0 [0x00, 0x08, 0xA9, 0x00, 0x60], imgLen := 5 }

/-- A sealed block that holds three bytes of container. -/
def sealed3 : State := { State.reset with mode := .isSealed, out := [0x43, 0x36, 0x34] }

/-- A test on the next state; false where there is none. -/
def after (r : Result) (p : State → Bool) : Bool :=
  match r with
  | .next t => p t
  | .fault _ => false
  | .refused _ => false

/-! ### One instruction, values of 95_test_vectors.md -/

/-- V1. -/
theorem test_encode_bit : after (exec (.encodeBit true) State.reset) (fun t => t.unitOut == [0x42, 0x30]) = true ∧
    after (exec (.encodeBit false) State.reset) (fun t => t.unitOut == [0x30, 0x42]) = true := by decide

/-- V2, rows 80 and A9. -/
theorem test_encode_byte :
    encodeByte 0x80 = [0x56, 0x42, 0x30, 0x42, 0x30, 0x42, 0x30, 0x42, 0x30, 0x42, 0x30, 0x42, 0x30, 0x42,
      0x30, 0x42, 0x42, 0x30, 0x30, 0x42] ∧
    encodeByte 0xA9 = [0x56, 0x42, 0x42, 0x30, 0x30, 0x42, 0x30, 0x42, 0x42, 0x30, 0x30, 0x42, 0x42, 0x30,
      0x30, 0x42, 0x42, 0x30, 0x42, 0x30] := by decide

/-- R112: CUR, BIX and PAR after the frame of 0x89 (three ones, parity 0). -/
theorem test_encode_byte_registers :
    after (exec (.encodeByte 0x89) State.reset) (fun t => t.cur == 0x89 && t.bix == 8 && t.par == false) = true := by
  decide

/-- R113's example. -/
theorem test_encode_bytes :
    after (exec (.encodeBytes [0x00, 0xFF]) State.reset) (fun t => t.unitOut ==
      [0x56, 0x42, 0x30, 0x42, 0x30, 0x42, 0x30, 0x42, 0x30, 0x42, 0x30, 0x42, 0x30, 0x42, 0x30, 0x42, 0x30, 0x42,
        0x42, 0x30, 0x56, 0x42, 0x42, 0x30, 0x42, 0x30, 0x42, 0x30, 0x42, 0x30, 0x42, 0x30, 0x42, 0x30, 0x42, 0x30,
        0x42, 0x30, 0x42, 0x30]) = true := by decide

/-- V4. -/
theorem test_xorsum :
    xorsum [] = 0x00 ∧ xorsum [0xA9, 0x00, 0x60] = 0xC9 ∧ xorsum [0xFF, 0xFF] = 0x00 ∧
    xorsum [0x01, 0x02, 0x04, 0x08, 0x10, 0x20, 0x40, 0x80] = 0xFF ∧
    xorsum [0x0B, 0x08, 0x0A, 0x00, 0x9E, 0x32, 0x30, 0x36, 0x31, 0x00, 0x00, 0x00] = 0x92 := by decide

/-- V4: 80 bytes, the last frame that of C9; CHK holds C9. -/
theorem test_encode_data_block :
    after (exec (.encodeDataBlock [0xA9, 0x00, 0x60]) State.reset) (fun t => t.unitOut.length == 80 && t.chk == 0xC9 &&
      t.unitOut.drop 60 == [0x56, 0x42, 0x42, 0x30, 0x30, 0x42, 0x30, 0x42, 0x42, 0x30, 0x30, 0x42, 0x30, 0x42,
        0x42, 0x30, 0x42, 0x30, 0x42, 0x30]) = true := by decide

/-- V5: "a.b.c", ".hidden" and a name without a '.'. -/
theorem test_stem : stem [0x61, 0x2E, 0x62, 0x2E, 0x63] = [0x61] ∧ stem [0x2E, 0x68, 0x69] = [] ∧
    stem [0x6E, 0x6F] = [0x6E, 0x6F] := by decide

/-- R127: 17 codes lose one, 16 lose none. -/
theorem test_trunc16 : trunc16 ((List.range 17).map (BitVec.ofNat 8)) = (List.range 16).map (BitVec.ofNat 8) ∧
    trunc16 ((List.range 16).map (BitVec.ofNat 8)) = (List.range 16).map (BitVec.ofNat 8) := by decide

/-- V5: only 0x61..0x7A change. -/
theorem test_upcase : upcase [0x60, 0x61, 0x7A, 0x7B, 0xE9, 0xFF] = [0x60, 0x41, 0x5A, 0x7B, 0xE9, 0xFF] := by decide

theorem test_remap : after (exec (.remap [0x61, 0xFF]) State.reset) (fun t => t.unitOut == [0x61, 0xFF]) = true := by
  decide

/-- R130: the empty label gives 16 spaces. -/
theorem test_pad16 : pad16 [] = [0x20, 0x20, 0x20, 0x20, 0x20, 0x20, 0x20, 0x20, 0x20, 0x20, 0x20, 0x20, 0x20, 0x20,
    0x20, 0x20] := by decide

/-- R131's examples: "TEST" and "averyveryverylongname". -/
theorem test_make_label :
    makeLabel [0x54, 0x45, 0x53, 0x54] = [0x54, 0x45, 0x53, 0x54, 0x20, 0x20, 0x20, 0x20, 0x20, 0x20, 0x20, 0x20,
      0x20, 0x20, 0x20, 0x20] ∧
    makeLabel [0x61, 0x76, 0x65, 0x72, 0x79, 0x76, 0x65, 0x72, 0x79, 0x76, 0x65, 0x72, 0x79, 0x6C, 0x6F, 0x6E, 0x67,
      0x6E, 0x61, 0x6D, 0x65] = [0x41, 0x56, 0x45, 0x52, 0x59, 0x56, 0x45, 0x52, 0x59, 0x56, 0x45, 0x52, 0x59, 0x4C,
      0x4F, 0x4E] := by decide

/-- V6, first row: the bytes 0..8 and the checksum. -/
theorem test_make_header : (makeHeader 3 0x0800 0x0804 [0x54, 0x45, 0x53, 0x54]).take 9 =
      [0x03, 0x00, 0x08, 0x04, 0x08, 0x54, 0x45, 0x53, 0x54] ∧
    xorsum (headerBody 3 0x0800 0x0804 [0x54, 0x45, 0x53, 0x54]) = 0x11 := by decide +kernel

/-- V6, last row but one: a start and an end address of four different bytes. -/
theorem test_make_header_addresses :
    (makeHeader 0xAB 0x1234 0xFEDC []).take 5 = [0xAB, 0x34, 0x12, 0xDC, 0xFE] := by decide +kernel

/-- R72, V6: the first raw byte is the low byte of the load address. -/
theorem test_load_address : loadAddr [0x01, 0x08, 0xA9] = 0x0801 ∧ loadAddr [0xFF, 0xFF] = 0xFFFF := by decide

/-- V6: START 0x0800 and n = 3 end at 0x0804; START 0xFFFF and n = 0 wrap to 0x0000. -/
theorem test_end_address : endAddrOf 0x0800 3 = 0x0804 ∧ endAddrOf 0xFFFF 0 = 0x0000 := by decide

/-- V6: the control block of START 0xFFFF, n = 0. -/
theorem test_encode_file_wraps : after (exec (.encodeFile [] [0xFF, 0xFF]) State.reset)
    (fun t => t.cb.load 0 5 == [0x03, 0xFF, 0xFF, 0x00, 0x00]) = true := by decide +kernel

/-- V7: n = 3; R165's example begins with the recording marker and the leader. -/
theorem test_encode_file : ∃ region, encodeFile [0x54] [0x00, 0x08, 0xA9, 0x00, 0x60] = some region ∧
    region.length = 42228 ∧ region.take 6 = [0x00, 0x14, 0x00, 0x05, 0x30, 0x30] := by
  refine ⟨_, encodeFile_of_le _ _ (by decide), ?_, ?_⟩
  · exact length_fileRegion _ _ (length_makeHeader _ _ _ _)
  · decide +kernel

/-- R222: one raw byte is malformed. -/
theorem test_encode_file_malformed :
    after (exec (.encodeFile [] [0x00]) State.reset) (fun t => t.rsp == some 0x0100 && t.unitOut == []) = true := by
  decide

/-- V8: the first frame is that of 0x89, and offset 180 begins the frame of 0x05. -/
theorem test_encode_eot :
    encodeEot.take 20 = [0x56, 0x42, 0x42, 0x30, 0x30, 0x42, 0x30, 0x42, 0x42, 0x30, 0x30, 0x42, 0x30, 0x42, 0x30,
      0x42, 0x42, 0x30, 0x30, 0x42] ∧
    (encodeEot.drop 180).take 20 = [0x56, 0x42, 0x42, 0x30, 0x30, 0x42, 0x42, 0x30, 0x30, 0x42, 0x30, 0x42, 0x30, 0x42,
      0x30, 0x42, 0x30, 0x42, 0x42, 0x30] := by decide +kernel

/-- R172: with no file it is ENCODE_EOT alone, and a malformed file contributes nothing. -/
theorem test_encode_tape : encodeTape [([], [0x00])] = encodeEot := rfl

/-- V9: the header of a payload of 51336 and of 16909060 bytes. -/
theorem test_write_container : (containerHeader 51336).drop 12 = [0x01, 0x00, 0x00, 0x00, 0x88, 0xC8, 0x00, 0x00] ∧
    (containerHeader 0x01020304).drop 16 = [0x04, 0x03, 0x02, 0x01] ∧
    (containerHeader 0).take 12 = [0x43, 0x36, 0x34, 0x2D, 0x54, 0x41, 0x50, 0x45, 0x2D, 0x52, 0x41, 0x57] := by decide

/-- R203: the head leaves, and `out_last` comes with the last byte only. -/
theorem test_pop :
    after (exec .pop sealed3) (fun t => t.out == [0x36, 0x34] && t.host.received == [(0x43, false)]) = true ∧
    after (exec .pop { sealed3 with out := [0x64] }) (fun t => t.host.received == [(0x64, true)]) = true := by decide

/-- R147's example, and the next address. -/
theorem test_raw4 : after (exec .uRaw4 State.reset)
    (fun t => t.payload == [0x00, 0x14, 0x00, 0x05] && t.payLen == 4 && t.upc == 1) = true := by decide

/-- R148: TONE 0x4F appends 79 bytes 0x30. -/
theorem test_tone : after (exec (.uTone 0x4F) { State.reset with cnt := 9 })
    (fun t => t.payload == List.replicate 79 0x30 && t.cnt == 0) = true := by decide +kernel

/-- R150: the first frame of SYNC 0x80, and SYNCV at its end. -/
theorem test_sync : after (exec (.uSync 0x80) State.reset) (fun t => t.payLen == 180 && t.syncV == 0x80 &&
    t.payload.take 20 == [0x56, 0x42, 0x42, 0x30, 0x30, 0x42, 0x30, 0x42, 0x42, 0x30, 0x30, 0x42, 0x30, 0x42, 0x30,
      0x42, 0x42, 0x30, 0x30, 0x42]) = true := by decide +kernel

/-- R151: 3840 bytes; CB is not changed. -/
theorem test_hdr : after (exec .uHdr { State.reset with cb := [(0, 0x03)] })
    (fun t => t.payLen == 3840 && t.cb == [(0, 0x03)] && t.pay.load 0 4 == [0x56, 0x42, 0x42, 0x30]) = true := by
  decide +kernel

/-- R152's example: 80 bytes, CHK the checksum C9. -/
theorem test_data_uop : after (exec .uData staged) (fun t => t.payLen == 80 && t.chk == 0xC9 && t.cur == 0xC9) = true := by
  decide +kernel

theorem test_eob : after (exec .uEob State.reset) (fun t => t.payload == [0x56, 0x30] && t.upc == 1) = true := by decide

theorem test_end : after (exec .uEnd { State.reset with upc := 20, uw := some 0x000000 })
    (fun t => t.payLen == 0 && t.upc == 20 && t.uw == none) = true := by decide

/-- V10 rows 0000, 0141, 012E, 02FF. -/
theorem test_nop : after (exec .nop { State.reset with lastRsp := 0x04, errSeen := true })
    (fun t => t.rsp == some 0x0000 && t.lastRsp == 0x00 && t.errSeen == true) = true := by decide

theorem test_name : after (exec (.name 0x41) State.reset)
    (fun t => t.rsp == some 0x0000 && t.nameLen == 1 && t.name.read 0 == 0x41) = true := by decide

theorem test_name_dot : after (exec (.name 0x2E) State.reset)
    (fun t => t.rsp == some 0x0000 && t.nameLen == 0 && t.dotSeen == true) = true := by decide

theorem test_data : after (exec (.data 0xFF) State.reset)
    (fun t => t.rsp == some 0x0000 && t.imgLen == 1 && t.img.read 0 == 0xFF) = true := by decide

/-- R194: the image buffer is full. -/
theorem test_data_full : after (exec (.data 0xFF) { small 2 9108 with imgLen := 2 })
    (fun t => t.rsp == some 0x0400 && t.imgOvf == true && t.imgLen == 2 && t.img == []) = true := by decide

theorem test_discard : after (exec .discard staged)
    (fun t => t.rsp == some 0x0000 && t.nameLen == 0 && t.imgLen == 0 && t.dotSeen == false) = true := by decide

/-- V10: ENCFILE with one byte staged. -/
theorem test_encfile_malformed : after (exec .encfile { State.reset with img := [(0, 0x08)], imgLen := 1 })
    (fun t => t.rsp == some 0x0100 && t.imgLen == 0 && t.errSeen == true && t.payLen == 0) = true := by decide

/-- R197's example: PAYLEN goes from 0 to 42228, staging is cleared. -/
theorem test_encfile : exec .encfile staged = .next (fileEncoded staged).fileDone ∧
    (fileEncoded staged).fileDone.payLen = 42228 ∧ (fileEncoded staged).fileDone.imgLen = 0 ∧
    (fileEncoded staged).fileDone.rsp = some 0x0000 := by
  rw [fileDone_fileEncoded]
  refine ⟨?_, rfl, rfl, rfl⟩
  rw [← fileDone_fileEncoded]
  exact encodeStaged_eq staged (by decide) (by decide) (by decide) (by decide)

/-- V10: FINISH first thing; the payload is one end-of-tape region, len(OUT) = 9128. -/
theorem test_finish : exec .finish State.reset = .next (tapeEncoded State.reset).tapeDone ∧
    (tapeEncoded State.reset).tapeDone.payLen = 0 + eotRegionLen ∧
    (tapeEncoded State.reset).tapeDone.out.length = 9128 ∧
    (tapeEncoded State.reset).tapeDone.mode = .isSealed := by
  have room : ¬ State.reset.cfg.payMax < State.reset.payLen + eotRegionLen := by decide
  refine ⟨?_, ?_⟩
  · show execFinish State.reset = _
    rw [execFinish, whenOpen_of_open _ _ rfl, if_neg room, run_finish State.reset (by decide) (Nat.not_lt.mp room)]
    rfl
  · rw [tapeDone_tapeEncoded]
    refine ⟨rfl, ?_, rfl⟩
    show (writeContainer (State.reset.payload ++ encodeEot)).length = 9128
    rw [length_writeContainer, List.length_append, length_encodeEot, length_payload]
    decide

/-- V10 rows 0603 and 0610. -/
theorem test_rdsr : after (exec (.rdsr 0x03) State.reset) (fun t => t.rsp == some 0x0001) = true ∧
    after (exec (.rdsr 0x10) { State.reset with lastRsp := 0x03 })
      (fun t => t.rsp == some 0x0200 && t.lastRsp == 0x03 && t.errSeen == false) = true := by decide

/-- R201: after P2's FINISH PAYLEN is 51336 = 0xC888 and STATUS is 0x03. -/
theorem test_rdsr_paylen : after (exec (.rdsr 0x08) { sealed3 with payLen := 51336 }) (fun t => t.rsp == some 0x0088) = true ∧
    after (exec (.rdsr 0x09) { sealed3 with payLen := 51336 }) (fun t => t.rsp == some 0x00C8) = true ∧
    after (exec (.rdsr 0x00) sealed3) (fun t => t.rsp == some 0x0003) = true := by decide

theorem test_reset_command : after (exec .reset { sealed3 with errSeen := true, lastRsp := 0x03, payLen := 9 })
    (fun t => t.mode == .isOpen && t.out == [] && t.payLen == 0 && t.errSeen == false && t.rsp == some 0x0000) = true := by
  decide

/-- V10: a reserved opcode through the step. -/
theorem test_step_reserved : after (step { State.reset with cmd := some 0x0800 })
    (fun t => t.rsp == some 0x0200 && t.lastRsp == 0x02 && t.errSeen == true && t.cmd == none) = true := by decide

/-- The host's placement is executed by the very next step. -/
theorem test_withFetchWord : after (step (State.reset.withFetchWord 16 0x0141)) (fun t => t.nameLen == 1) = true ∧
    after (step (State.reset.withFetchWord 24 0x600000)) (fun t => t.payload == [0x56, 0x30]) = true := by decide

/-! ### Witnesses: concrete states and operands that meet each statement's hypotheses, each clause at a boundary -/

/-- The first and the last frame of two. -/
theorem test_witness_EveryFrameHasOddParity :
    0 < ([0x00, 0xFF] : List Byte).length ∧ 1 < ([0x00, 0xFF] : List Byte).length := by decide

theorem test_witness_EncodeBytesCompletes :
    0 < ([0x89] : List Byte).length ∧ ([0x00, 0x89] : List Byte).getLast? = some 0x89 := by decide

/-- Marker positions of the second frame, the last position, and the last pair. -/
theorem test_witness_FramesCanBeDecoded :
    (20 < 20 * ([0x00, 0xFF] : List Byte).length ∧ 20 % 20 = 0) ∧
    (21 < 20 * ([0x00, 0xFF] : List Byte).length ∧ 21 % 20 = 1) ∧
    39 < 20 * ([0x00, 0xFF] : List Byte).length ∧ 1 < ([0x00, 0xFF] : List Byte).length ∧ 8 < 9 := by decide

theorem test_witness_XorsumIsTheExclusiveOr : 7 < 8 ∧ ([0x01, 0x80] : List Byte).Perm [0x80, 0x01] := by decide

/-- The empty stem, 16 codes and 17. -/
theorem test_witness_LabelStepsComplete :
    (0x2E : Byte) ∉ ([] : List Byte) ∧ (0x2E : Byte) ∉ ([0x2D, 0x2F] : List Byte) ∧
    (List.replicate 16 (0x41 : Byte)).length ≤ 16 ∧ 16 < (List.replicate 17 (0x41 : Byte)).length := by decide

/-- The last code of a label, and the first space after it. -/
theorem test_witness_MakeLabelCompletes : (3 < 16 ∧ 3 < ([0x54, 0x45, 0x53, 0x54] : List Byte).length) ∧
    (4 < 16 ∧ ¬ 4 < ([0x54, 0x45, 0x53, 0x54] : List Byte).length) := by decide

/-- The first and the last byte of padding, and the first offset beyond the block. -/
theorem test_witness_MakeHeaderCompletes : 0 < 170 ∧ 169 < 170 ∧ ((192 : Nat) < 0 ∨ 0 + 192 ≤ 192) := by decide

/-- No program byte; and a load address at which the end address wraps. -/
theorem test_witness_EncodeFileCompletes :
    2 ≤ ([0x00, 0x08] : List Byte).length ∧ 2 ≤ ([0xFF, 0xFF] : List Byte).length := by decide

theorem test_witness_EncodeFileMalformed :
    ([0x00] : List Byte).length < 2 ∧ ([] : List Byte).length < 2 := by decide

/-- Raw lengths for which n = 0, 1, 254 and 1000. -/
theorem test_witness_EncodeFileLength (m : Nat) (h : m = 2 ∨ m = 3 ∨ m = 256 ∨ m = 1002) :
    ∃ region, encodeFile [] (List.replicate m 0x00) = some region :=
  ⟨_, encodeFile_of_le _ _ (by rw [List.length_replicate]; omega)⟩

theorem test_witness_FileRegionLayout : (∃ region, encodeFile [0x54] [0x00, 0x08] = some region) ∧
    ∃ region, encodeFile [0x54] [0xFF, 0xFF] = some region :=
  ⟨⟨_, encodeFile_of_le _ _ (by decide)⟩, _, encodeFile_of_le _ _ (by decide)⟩

/-- The first positions after the two recording markers, the last before the second, the last of the region. -/
theorem test_witness_PayloadAlphabet : (∃ region, encodeFile [0x54] [0x00, 0x08] = some region ∧
    ∀ k ∈ [4, 35340, 35345, 42107], k < region.length ∧ ¬ k < 4 ∧ ¬ (35341 ≤ k ∧ k < 35345)) ∧
    (0x56 : Byte) ∈ encodeEot := by
  refine ⟨⟨_, encodeFile_of_le _ _ (by decide), ?_⟩, ?_⟩
  · rw [length_fileRegion (fileHeader _ _) _ (length_makeHeader _ _ _ _)]
    decide
  · refine List.mem_of_mem_take (i := 1) ?_
    decide +kernel

theorem test_witness_EncodeTapeCompletes :
    [(([] : List Byte), ([0x00, 0x08] : List Byte)), ([], [0x00])].filter (fun f => 2 ≤ f.2.length) ≠ [] := by decide

theorem test_witness_WriteContainerCompletes : ([] : List Byte).length ≤ 2 ^ 32 - 1 ∧
    (List.replicate 256 (0x30 : Byte)).length ≤ 2 ^ 32 - 1 := by
  rw [List.length_replicate]
  decide

/-- Two bytes, one byte; and each way not to be enabled. -/
theorem test_witness_PopCompletes :
    (sealed3.out = 0x43 :: [0x36, 0x34] ∧ sealed3.cmd = none ∧ sealed3.uw = none) ∧
    ({ sealed3 with out := [0x34] } : State).out = 0x34 :: [] ∧
    State.reset.out = [] ∧ ({ sealed3 with cmd := some 0x0000 } : State).cmd ≠ none ∧
    ({ sealed3 with uw := some 0x000000 } : State).uw ≠ none := by decide

/-- Three bytes to pop, and then an event more. -/
theorem test_witness_PopsDeliverTheContainer :
    let s : State := { sealed3 with
      host := { sealed3.host with events := [.takeByte, .takeByte, .takeByte, .idle] } }
    s.out = [0x43, 0x36] ++ [0x34] ∧ s.cmd = none ∧ s.uw = none ∧
      s.host.events = List.replicate (([0x43, 0x36] : List Byte).length + 1) .takeByte ++ [.idle] := by decide

/-- Just room enough, at the addresses 30 and 31. -/
theorem test_witness_MarkersComplete :
    (let s : State := { small 2 4 with upc := 30 }; s.payLen + 4 ≤ s.cfg.payMax ∧ s.upc ≠ 31) ∧
    (let s : State := { small 2 4 with upc := 31 }; s.payLen + 4 ≤ s.cfg.payMax ∧ s.upc = 31) ∧
    (let s : State := { small 2 2 with upc := 30 }; s.payLen + 2 ≤ s.cfg.payMax ∧ s.upc ≠ 31) ∧
    (let s : State := { small 2 2 with upc := 31 }; s.payLen + 2 ≤ s.cfg.payMax ∧ s.upc = 31) := by decide

theorem test_witness_ToneCompletes :
    (small 2 0).payLen + (0 : Half).toNat ≤ (small 2 0).cfg.payMax ∧
    (let s : State := { small 2 65535 with upc := 31 }; s.payLen + (0xFFFF : Half).toNat ≤ s.cfg.payMax ∧
      s.upc = 31) ∧ State.reset.upc ≠ 31 := by decide

/-- Just room enough; the last base whose arithmetic fits, and the two of the program. -/
theorem test_witness_SyncCompletes :
    (small 2 180).payLen + 180 ≤ (small 2 180).cfg.payMax ∧ (0x00F6 : Half).toNat % 256 + 9 < 256 ∧
    (0x0080 : Half).toNat % 256 + 9 < 256 ∧ (0x0000 : Half).toNat % 256 + 9 < 256 ∧
    (small 2 180).upc ≠ 31 ∧ ({ small 2 180 with upc := 31 } : State).upc = 31 := by decide

theorem test_witness_HdrCompletes : (small 2 3840).payLen + 3840 ≤ (small 2 3840).cfg.payMax ∧
    (small 2 3840).upc ≠ 31 ∧ ({ small 2 3840 with upc := 31 } : State).upc = 31 := by decide

/-- No program byte at all, and a full image buffer. -/
theorem test_witness_DataMicroOpCompletes :
    (let s : State := { small 2 20 with imgLen := 2 };
      2 ≤ s.imgLen ∧ s.imgLen ≤ s.cfg.imgMax ∧ s.payLen + 20 * ((s.imgLen - 2) + 1) ≤ s.cfg.payMax ∧
        s.upc ≠ 31) ∧
    (let s : State := { small 5 80 with imgLen := 5, upc := 31 };
      2 ≤ s.imgLen ∧ s.imgLen ≤ s.cfg.imgMax ∧ s.payLen + 20 * ((s.imgLen - 2) + 1) ≤ s.cfg.payMax ∧
        s.upc = 31) := by decide

/-- One byte too few for each operation. -/
theorem test_witness_EmittingPastPayStops :
    (small 2 3).cfg.payMax < (small 2 3).payLen + 4 ∧ (small 2 1).cfg.payMax < (small 2 1).payLen + 2 ∧
    ((1 : Half) ≠ 0 ∧ (small 2 0).cfg.payMax < (small 2 0).payLen + (1 : Half).toNat) ∧
    (small 2 179).cfg.payMax < (small 2 179).payLen + 180 ∧
    (small 2 3839).cfg.payMax < (small 2 3839).payLen + 3840 ∧
    (let s : State := { small 2 19 with imgLen := 2 };
      s.imgLen ≤ s.cfg.imgMax ∧ s.cfg.payMax < s.payLen + 20 * ((s.imgLen - 2) + 1)) := by decide

/-- A block with the control block of its staged file, display name "T", in CB. -/
def fileReady (s : State) : State :=
  s.withHeader 3 (loadAddr s.stagedRaw) (endAddrOf (loadAddr s.stagedRaw) (s.imgLen - 2)) (stem [0x54])

theorem fileReady_cb (s : State) : (fileReady s).cb.load 0 192 = makeHeader 3 (loadAddr (fileReady s).stagedRaw)
    (endAddrOf (loadAddr (fileReady s).stagedRaw) ((fileReady s).imgLen - 2)) (stem [0x54]) :=
  cb_withHeader s 3 _ _ _

/-- Just room enough. -/
theorem test_witness_FileProgIsEncodeFile :
    let s : State := fileReady { staged with cfg := ⟨5, 42228⟩ }
    s.pay.wf ∧ s.host.events = [] ∧ 2 ≤ s.imgLen ∧ s.imgLen ≤ s.cfg.imgMax ∧
      s.payLen + (42068 + 40 * ((s.imgLen - 2) + 1)) ≤ s.cfg.payMax ∧
      s.cb.load 0 192 = makeHeader 3 (loadAddr s.stagedRaw)
        (endAddrOf (loadAddr s.stagedRaw) (s.imgLen - 2)) (stem [0x54]) := by
  refine ⟨?_, rfl, ?_, ?_, ?_, fileReady_cb _⟩
  · show staged.pay.wf
    decide
  · show 2 ≤ staged.imgLen
    decide
  · show staged.imgLen ≤ 5
    decide
  · show staged.payLen + (42068 + 40 * ((staged.imgLen - 2) + 1)) ≤ 42228
    decide

theorem test_witness_EotProgIsEncodeEot :
    let s : State := (small 2 9108).withHeader typeEot 0 0 []
    s.pay.wf ∧ s.host.events = [] ∧ s.payLen + 9108 ≤ s.cfg.payMax ∧
      s.cb.load 0 192 = ([0x05, 0x00, 0x00, 0x00, 0x00] : List Byte) ++ List.replicate 186 0x20 ++ [0x05] := by
  refine ⟨?_, rfl, ?_, ?_⟩
  · show (small 2 9108).pay.wf
    decide
  · show (small 2 9108).payLen + 9108 ≤ (small 2 9108).cfg.payMax
    decide
  · rw [← eotHeader_eq]
    exact cb_withHeader (small 2 9108) typeEot 0 0 []

/-- Each branch: after a '.', a '.', the seventeenth code, the sixteenth. -/
theorem test_witness_NameCompletes :
    (State.reset.mode = .isOpen ∧ ({ State.reset with dotSeen := true, nameLen := 16 } : State).dotSeen = true) ∧
    (State.reset.dotSeen = false ∧ (0x2E : Byte) = 0x2E ∧ State.reset.nameLen ≤ 16) ∧
    (let s : State := { State.reset with nameLen := 16 };
      s.dotSeen = false ∧ (0x41 : Byte) ≠ 0x2E ∧ s.nameLen = 16) ∧
    (let s : State := { State.reset with nameLen := 15 };
      s.dotSeen = false ∧ (0x41 : Byte) ≠ 0x2E ∧ s.nameLen ≠ 16 ∧ s.nameLen ≤ 16) := by decide

/-- NAME and DATA commands in turn, with a NOP and an RDSR between them. -/
def inTurn : List Instr :=
  [.name 0x54, .data 0x00, .nop, .name 0x2E, .data 0x08, .rdsr 0x10, .name 0x50, .data 0xA9]

/-- Clear staging; the commands in turn; a stem of 17 codes; an image that just fits. -/
theorem test_witness_NamesCaptureTheStem : State.reset.mode = .isOpen ∧ State.reset.stagingClear ∧
    (∀ i ∈ inTurn, delivers i = true) ∧ nameCodes inTurn = [0x54, 0x2E, 0x50] ∧
    rawBytes inTurn = [0x00, 0x08, 0xA9] ∧ (rawBytes inTurn).length ≤ (small 3 9108).cfg.imgMax ∧
    16 < (stem (nameCodes (List.replicate 17 (.name 0x41)))).length := by decide

/-- What the commands in turn leave (R192, R194). -/
theorem test_commands_in_turn : after (runCommands inTurn State.reset)
    (fun t => t.stagedName == [0x54] && t.stagedRaw == [0x00, 0x08, 0xA9] && !t.errSeen) = true := by decide

/-- The last free byte of the buffer, and none. -/
theorem test_witness_DataCompletes :
    (let s : State := { small 2 9108 with imgLen := 1 };
      s.mode = .isOpen ∧ s.imgLen ≤ s.cfg.imgMax ∧ s.imgLen < s.cfg.imgMax) ∧
    (let s : State := { small 2 9108 with imgLen := 2 };
      s.mode = .isOpen ∧ s.imgLen ≤ s.cfg.imgMax ∧ s.imgLen = s.cfg.imgMax) := by decide

theorem test_witness_DiscardCompletes : staged.mode = .isOpen := rfl

/-- Each clause, the capacities one byte short. -/
theorem test_witness_EncodingErrors :
    (let s : State := { staged with imgOvf := true }; s.mode = .isOpen ∧ s.imgOvf = true) ∧
    (let s : State := { staged with imgLen := 1 }; s.mode = .isOpen ∧ s.imgOvf = false ∧ s.imgLen < 2) ∧
    (let s : State := { staged with cfg := ⟨5, 42227⟩ };
      s.mode = .isOpen ∧ s.imgOvf = false ∧ 2 ≤ s.imgLen ∧ s.cfg.payMax < s.payLen + 42068 + 40 * (s.imgLen - 1)) ∧
    (let s : State := { State.reset with payLen := 1, cfg := ⟨2, 9108⟩ };
      s.mode = .isOpen ∧ s.cfg.payMax < s.payLen + 9108) := by decide

/-- The staged name is TEST, the display name TEST.P; just room enough. -/
theorem test_witness_EncfileCompletes :
    let s : State := { staged with cfg := ⟨5, 42228⟩ }
    s.mode = .isOpen ∧ s.imgOvf = false ∧ s.pay.wf ∧ s.nameLen ≤ 16 ∧ 2 ≤ s.imgLen ∧ s.imgLen ≤ s.cfg.imgMax ∧
      s.payLen + (42068 + 40 * ((s.imgLen - 2) + 1)) ≤ s.cfg.payMax ∧
      s.stagedName = trunc16 (stem [0x54, 0x45, 0x53, 0x54, 0x2E, 0x50]) := by decide

/-- V6: START is 0xFFFF and the end address wraps to 0x0000. -/
theorem test_witness_EncfileCompletes_wraps :
    let s : State := { staged with img := [(0, 0xFF), (1, 0xFF)], imgLen := 2 }
    s.mode = .isOpen ∧ s.imgOvf = false ∧ s.pay.wf ∧ s.nameLen ≤ 16 ∧ 2 ≤ s.imgLen ∧ s.imgLen ≤ s.cfg.imgMax ∧
      s.payLen + (42068 + 40 * ((s.imgLen - 2) + 1)) ≤ s.cfg.payMax ∧
      s.stagedName = trunc16 (stem [0x54, 0x45, 0x53, 0x54]) ∧
      ((s.img.read 0).toNat + 256 * (s.img.read 1).toNat + (s.imgLen - 2) + 1) % 65536 = 0 := by decide

theorem test_witness_FinishCompletes : (small 2 9108).mode = .isOpen ∧ (small 2 9108).pay.wf ∧
    (small 2 9108).payLen + 9108 ≤ (small 2 9108).cfg.payMax := by decide

theorem test_witness_RdsrReadsTheRegisters : (0x0F : Byte).toNat < 16 ∧ (0x0F : Byte).toNat = 12 + 3 ∧
    (0x0C : Byte).toNat = 12 + 0 ∧ (0x0B : Byte).toNat = 8 + 3 ∧ (0x08 : Byte).toNat = 8 + 0 ∧
    (0x07 : Byte).toNat = 4 + 3 ∧ (0x04 : Byte).toNat = 4 + 0 ∧ 3 < 4 ∧ (0x03 : Byte).toNat < 16 ∧
    (0x02 : Byte).toNat < 16 ∧ ({ State.reset with nameLen := 16 } : State).nameLen ≤ 16 ∧
    (0x01 : Byte).toNat < 16 := by decide

theorem test_witness_SealedRefusesInput : sealed3.mode = .isSealed ∧
    Instr.finish ∈ [Instr.name 0x2E, .data 0xFF, .discard, .encfile, .finish] := by decide

/-- DATA out of room, ENCFILE of one byte, RDSR of no register. -/
theorem test_witness_ErrorsLeaveTheOutput :
    after (exec (.data 0xFF) { small 2 9108 with imgLen := 2 }) (fun t => t.rsp == some 0x0400) = true ∧
    after (exec .encfile { State.reset with imgLen := 1 }) (fun t => t.rsp == some 0x0100) = true ∧
    after (exec (.rdsr 0x10) State.reset) (fun t => t.rsp == some 0x0200) = true ∧
    (0x0400 : RspWord).extractLsb' 8 8 ≠ 0x00#8 ∧ (0x0100 : RspWord).extractLsb' 8 8 ≠ 0x00#8 ∧
    (0x0200 : RspWord).extractLsb' 8 8 ≠ 0x00#8 := by decide

theorem test_witness_DecodeOfEncode :
    (Instr.wf (.uTone 0xFFFF) = true ∧ encode (.uTone 0xFFFF) = some (24, 0x20FFFF)) ∧
    (Instr.wf (.rdsr 0xFF) = true ∧ encode (.rdsr 0xFF) = some (16, 0x06FF)) := by decide

theorem test_witness_EncodeOfDecode : decodeTableWord 24 0x300080 = some (.uSync 0x80) ∧
    decodeTableWord 16 0x0700 = some .reset := by decide

theorem test_witness_StepRunsTheCommand :
    let s : State := { State.reset with cmd := some 0x0154 }
    decodeCmd 0x0154 = .ok (.name 0x54) ∧ ¬ s.rstNow ∧ s.uw = none ∧ s.cmd = some 0x0154 := by decide

theorem test_witness_StepRunsTheMicroOp :
    let s : State := State.reset.enterProg 20
    decodeMicro 0x000000 = .ok .uEnd ∧ ¬ s.rstNow ∧ s.uw = some 0x000000 ∧
      decodeMicro 0x600000 = .ok .uEob := by decide

theorem test_witness_ReservedEncodings_state (w : CmdWord) :
    let s : State := { State.reset with cmd := some w }
    ¬ s.rstNow ∧ s.uw = none ∧ s.cmd = some w :=
  ⟨fun h => PortEvent.noConfusion h, rfl, rfl⟩

/-- The first and the last reserved opcode, an immediate on RESET; RDSR 0x10 and RDSR 0xFF. -/
theorem test_witness_ReservedEncodings_words :
    ((decodeCmd 0x0800).toOption = none ∧ (decodeCmd 0xFFFF).toOption = none ∧
      (decodeCmd 0x0701).toOption = none) ∧
    ((0x0610 : CmdWord).toNat / 256 = 0x06 ∧ 0x10 ≤ (0x0610 : CmdWord).toNat % 256) ∧
    ((0x06FF : CmdWord).toNat / 256 = 0x06 ∧ 0x10 ≤ (0x06FF : CmdWord).toNat % 256) := by decide

/-- A block and what its host is about to do. -/
def hosted (e : PortEvent) (r : Option RspWord) : State :=
  { State.reset with rsp := r, host := { State.reset.host with events := [e] } }

/-- Every event, with and without a response waiting. -/
theorem test_witness_PortHandshakes (e : PortEvent) (r : Option RspWord) :
    (hosted e r).uw = none ∧ (hosted e r).cmd = none ∧ (hosted e r).host.events = e :: [] ∧ (hosted e r).rsp = r ∧
      State.reset.host.events = [] := ⟨rfl, rfl, rfl, rfl, rfl⟩

/-- `rst` while a command is executed. -/
theorem test_witness_RstAbandonsEverything :
    ({ hosted .rst none with cmd := some 0x0400 } : State).host.events = .rst :: [] := rfl

/-- The smallest block allowed, a command accepted, its staging holding one byte and half a name. -/
def midway : State :=
  { small 2 9108 with
    cmd := some 0x0154, name := [(0, 0x41)], nameLen := 1, img := [(0, 0x08)], imgLen := 1, errSeen := true }

theorem midway_inv : midway.Inv where
  memory := by decide
  capacity := by decide
  inside := by decide
  quiet := by decide
  staging := by decide
  tape := ⟨[], by decide, rfl⟩
  out := rfl

theorem test_witness_EveryCommandIsAnswered :
    midway.Inv ∧ ¬ midway.rstNow ∧ midway.cmd = some 0x0154 := ⟨midway_inv, by decide⟩

theorem test_witness_StepKeepsInvariant : midway.Inv ∧ ∃ t, step midway = .next t := ⟨midway_inv, _, rfl⟩

theorem test_witness_StepKeepsMemoryCanonical : midway.memoryWf ∧ ∃ t, step midway = .next t :=
  ⟨by decide, _, rfl⟩

theorem test_witness_StepKeepsCapacity : midway.withinCapacity ∧ ∃ t, step midway = .next t :=
  ⟨by decide, _, rfl⟩

/-- Both clauses: a payload that stays or grows, and one that a reset empties. -/
theorem test_witness_PayIsAppendOnly :
    (∃ t, step { small 2 9108 with uw := some 0x600000 } = .next t ∧ t.payLen = 2) ∧
    ∃ t, step { sealed3 with payLen := 9, cmd := some 0x0700 } = .next t ∧ t.payLen = 0 :=
  ⟨⟨_, rfl, rfl⟩, _, rfl, rfl⟩

/-- SEALED left by RESET, entered by FINISH. -/
theorem test_witness_ModeChangesOnlyByFinishAndReset :
    (∃ t, step { sealed3 with cmd := some 0x0700 } = .next t ∧ t.mode ≠ sealed3.mode) ∧
    ∃ s t : State, step s = .next t ∧ t.mode ≠ s.mode ∧ s.mode = .isOpen := by
  refine ⟨⟨_, rfl, by decide⟩, { State.reset with cmd := some 0x0500 }, ?_⟩
  generalize hs : ({ State.reset with cmd := some 0x0500 } : State) = s
  have hm : s.mode = .isOpen := by rw [← hs]; rfl
  have room : ¬ s.cfg.payMax < s.payLen + eotRegionLen := by rw [← hs]; decide
  have hp : s.pay.wf := by rw [← hs]; decide
  refine ⟨(tapeEncoded s).tapeDone, ?_, ?_, hm⟩
  · rw [step_of_command s 0x0500 .finish (by rw [← hs]; decide) (by rw [← hs]; rfl) (by rw [← hs]) rfl]
    show execFinish s = _
    rw [execFinish, whenOpen_of_open _ _ hm, if_neg room, run_finish s hp (Nat.not_lt.mp room)]
    rfl
  · rw [hm]
    simp [State.tapeDone, State.complete]

/-- The least and the greatest parameters. -/
theorem test_witness_ResetMeetsInvariant :
    Config.wf ⟨2, 9108⟩ ∧ Config.wf ⟨2 ^ 32 - 1, 2 ^ 32 - 1⟩ ∧ ¬ Config.wf ⟨1, 9108⟩ := by decide

/-- A file of three raw bytes delivered in turn and one that raises, in a block with just room enough. -/
theorem test_witness_SessionMakesTheContainer :
    let s : State := small 3 51256
    let session : List (List Instr) := [inTurn, [.data 0x00]]
    let files := session.map (fun cmds => (nameCodes cmds, rawBytes cmds))
    s.mode = .isOpen ∧ s.stagingClear ∧ s.pay.wf ∧ s.payLen = 0 ∧
      (∀ cmds ∈ session, ∀ i ∈ cmds, delivers i = true) ∧ (∀ f ∈ files, f.2.length ≤ s.cfg.imgMax) ∧
      (encodeTape files).length ≤ s.cfg.payMax := by
  refine ⟨rfl, by decide, by decide, rfl, by decide, by decide, ?_⟩
  have e1 : encodeFile ([0x54, 0x2E, 0x50] : List Byte) [0x00, 0x08, 0xA9] = _ := encodeFile_of_le _ _ (by decide)
  have e2 : encodeFile ([] : List Byte) [0x00] = none := rfl
  show (encodeTape [([0x54, 0x2E, 0x50], [0x00, 0x08, 0xA9]), ([], [0x00])]).length ≤ 51256
  simp only [encodeTape, encodeFiles, List.flatMap_cons, List.flatMap_nil, e1, e2, Option.getD_some,
    Option.getD_none, List.append_nil, List.length_append, length_encodeEot]
  rw [length_fileRegion (fileHeader _ _) _ (length_makeHeader _ _ _ _)]
  decide

end Sys2Proof.Tests
end

/-! The reserved command words (R83): which words they are and how each is answered. -/

namespace Sys2Proof

/-- The opcode is the high byte of the word's number (R80). -/
theorem toNat_opcode (w : CmdWord) : (w.extractLsb' 8 8).toNat = w.toNat / 256 := by
  rw [BitVec.extractLsb'_toNat, Nat.shiftRight_eq_div_pow]
  have := w.isLt
  omega

/-- The imm8 is the low byte of the word's number (R80). -/
theorem toNat_imm (w : CmdWord) : (w.extractLsb' 0 8).toNat = w.toNat % 256 := by
  rw [BitVec.extractLsb'_toNat, Nat.shiftRight_zero]

/-- A command that takes no immediate is no command exactly when its imm8 is not 0 (R83 b). -/
theorem toOption_bareCommand_eq_none (imm : Byte) (i : Instr) :
    (bareCommand imm i).toOption = none ↔ imm.toNat ≠ 0 := by
  unfold bareCommand
  split
  case isTrue h => simp [h, Except.toOption]
  case isFalse h => simpa [Except.toOption] using mt BitVec.eq_of_toNat_eq h

/-- The words that are no command, by their two fields: one case for each arm of the decoder (R83 a, b). -/
theorem toOption_decodeCmd_eq_none_iff_fields (w : CmdWord) :
    let op := (w.extractLsb' 8 8).toNat
    let imm := (w.extractLsb' 0 8).toNat
    (decodeCmd w).toOption = none ↔ 8 ≤ op ∨ (op ∈ [0x00, 0x03, 0x04, 0x05, 0x07] ∧ imm ≠ 0) := by
  unfold decodeCmd
  generalize (w.extractLsb' 8 8).toNat = op
  generalize w.extractLsb' 0 8 = imm
  dsimp only
  split
  case h_2 | h_3 | h_7 => simp [Except.toOption]
  case h_9 =>
    have hop : 8 ≤ op := by simp only [imp_false] at *; omega
    simp [Except.toOption, hop]
  all_goals simp [toOption_bareCommand_eq_none]

/-- The words that are no command (R83 a, b). -/
theorem toOption_decodeCmd_eq_none (w : CmdWord) : (decodeCmd w).toOption = none ↔
    8 ≤ w.toNat / 256 ∨ (w.toNat / 256 ∈ [0x00, 0x03, 0x04, 0x05, 0x07] ∧ w.toNat % 256 ≠ 0) := by
  rw [← toNat_opcode, ← toNat_imm]
  exact toOption_decodeCmd_eq_none_iff_fields w

/-- A word whose opcode is that of RDSR is RDSR of its imm8 (R81). -/
theorem decodeCmd_of_opcode_rdsr {w : CmdWord} (h : w.toNat / 256 = 0x06) :
    decodeCmd w = .ok (.rdsr (w.extractLsb' 0 8)) := by
  rw [← toNat_opcode] at h
  simp only [decodeCmd, h]

end Sys2Proof

namespace Sys2Proof.Machine

open Sys2Proof

/-- The register numbers 0x10..0xFF are reserved (R25). -/
theorem csr_of_reserved (s : State) {k : Byte} (h : 0x10 ≤ k.toNat) : csr s k = none := by
  unfold csr
  split
  case h_17 => rfl
  all_goals omega

/-- RDSR of a reserved register is answered E_ILLEGAL and leaves LASTRSP and ERRSEEN (R83 c, R27). -/
theorem execRdsr_of_reserved (s : State) {k : Byte} (h : 0x10 ≤ k.toNat) :
    execRdsr k s = .next (s.respond eIllegal 0x00) := by
  simp only [execRdsr, csr_of_reserved s h]

/-- What E_ILLEGAL leaves of a word that is no command (R83, R190). -/
theorem raise_eIllegal (s : State) :
    s.raise eIllegal = { s with lastRsp := 0x02, errSeen := true, rsp := some 0x0200, cmd := none } := by
  have code : (eIllegal != codeOk) = true := by decide
  simp only [State.raise, State.complete, code, Bool.or_true]
  rfl

/-- Settles O50. The reserved words are read off the decoder's arms, and each clause on `step` is the answer of
the arm the decoder takes. -/
theorem reservedEncodings : Obligations.ReservedEncodings := by
  refine ⟨toOption_decodeCmd_eq_none, fun s w hrst huw hcmd => ⟨fun hnone => ?_, fun hop himm => ?_⟩⟩
  · cases he : decodeCmd w with
    | error e => rw [step_of_reserved s w e hrst huw hcmd he, raise_eIllegal]
    | ok i => rw [he] at hnone; cases hnone
  · have hk : 0x10 ≤ (w.extractLsb' 0 8).toNat := toNat_imm w ▸ himm
    calc step s = execRdsr (w.extractLsb' 0 8) s :=
          step_of_command s w _ hrst huw hcmd (decodeCmd_of_opcode_rdsr hop)
      _ = .next (s.respond eIllegal 0x00) := execRdsr_of_reserved s hk
      _ = .next { s with rsp := some 0x0200, cmd := none } := rfl

end Sys2Proof.Machine

/-! The bit encoder (R100, R101): either pulse of a pair identifies the bit. -/

namespace Sys2Proof.Machine

open Sys2Proof

/-- The two pulses a bit is made of differ; R101 rests on this alone. -/
theorem pShort_ne_pMedium : pShort ≠ pMedium := by decide

/-- The two encodings have the two pulses in opposite order (R100), so they differ at both positions. -/
theorem getElem?_encodeBit_false_ne_true {k : Nat} (hk : k < 2) :
    (encodeBit false)[k]? ≠ (encodeBit true)[k]? := by
  match k, hk with
  | 0, _ => simpa [encodeBit] using pShort_ne_pMedium
  | 1, _ => simpa [encodeBit] using pShort_ne_pMedium.symm

/-- Either pulse of a pair identifies the bit (R101). -/
theorem injective_getElem?_encodeBit {k : Nat} (hk : k < 2) :
    Function.Injective fun bit => (encodeBit bit)[k]? :=
  Bool.injective_iff.mpr (getElem?_encodeBit_false_ne_true hk)

/-- ENCODE_BIT is injective, since its first pulse already is (R101). -/
theorem injective_encodeBit : Function.Injective encodeBit :=
  Function.Injective.of_comp (f := fun pulses : List Byte => pulses[0]?)
    (injective_getElem?_encodeBit Nat.zero_lt_two)

/-- Settles O2. All four parts follow from the injectivity of either pulse in the bit. -/
theorem encodeBitDistinguishesBits : Obligations.EncodeBitDistinguishesBits :=
  ⟨injective_encodeBit.ne Bool.false_ne_true,
    fun _ _ h => injective_encodeBit h,
    fun _ _ h => injective_getElem?_encodeBit Nat.zero_lt_two h,
    fun _ _ h => injective_getElem?_encodeBit Nat.one_lt_two h⟩

end Sys2Proof.Machine

/-! The byte-block encoder (R112, R114, R118): a sequence is cut into frames of 20 pulses, a frame into its marker
and nine pairs. -/

namespace Sys2Proof.Machine

open Sys2Proof

/-- A concatenation of pieces of one length is cut back into its pieces. -/
theorem take_drop_flatMap {α β : Type} {f : α → List β} {n : Nat} (hf : ∀ a, (f a).length = n) (l : List α)
    (i : Nat) (h : i < l.length) : ((l.flatMap f).drop (n * i)).take n = f l[i] := by
  induction l generalizing i with
  | nil => cases h
  | cons a l ih =>
    cases i with
    | zero => simpa using List.take_left' (hf a)
    | succ i =>
      have hdrop : n * (i + 1) = (f a).length + n * i := by rw [hf, Nat.mul_succ, Nat.add_comm]
      rw [List.flatMap_cons, hdrop, List.drop_length_add_append]
      exact ih i (Nat.lt_of_succ_lt_succ h)

/-- The i-th 20 pulses of the frames are the frame of the i-th byte (R113). -/
theorem take_drop_encodeBytes (bytes : List Byte) (i : Nat) (h : i < bytes.length) :
    ((encodeBytes bytes).drop (20 * i)).take 20 = encodeByte bytes[i] :=
  take_drop_flatMap length_encodeByte bytes i h

/-- The nine encoded bits of a byte: its bits from bit 0 on, then its parity bit (R112). -/
def frameBit (b : Byte) (j : Nat) : Bool := if j < 8 then b.getLsbD j else parityBit b

@[simp] theorem frameBit_of_lt {b : Byte} {j : Nat} (h : j < 8) : frameBit b j = b.getLsbD j := if_pos h

@[simp] theorem frameBit_eight (b : Byte) : frameBit b 8 = parityBit b := rfl

/-- A frame is its marker and the pairs of its nine bits (R112). -/
theorem encodeByte_eq (b : Byte) :
    encodeByte b = byteMarker ++ (List.range 9).flatMap (fun j => encodeBit (frameBit b j)) := by
  have hbits : (List.range 8).flatMap (fun j => encodeBit (frameBit b j)) =
      (List.range 8).flatMap (fun j => encodeBit (b.getLsbD j)) :=
    List.flatMap_congr fun j hj => by rw [frameBit_of_lt (List.mem_range.mp hj)]
  rw [List.range_succ, List.flatMap_append, hbits]
  simp [encodeByte]

/-- The j-th pair of a frame is that of the j-th encoded bit (R112). -/
theorem take_drop_encodeByte (b : Byte) {j : Nat} (hj : j < 9) :
    ((encodeByte b).drop (2 * j + 2)).take 2 = encodeBit (frameBit b j) := by
  have hmarker : 2 * j + 2 = byteMarker.length + 2 * j := Nat.add_comm _ _
  rw [encodeByte_eq, hmarker, List.drop_length_add_append,
    take_drop_flatMap (fun _ => length_encodeBit _) _ j (by simpa using hj), List.getElem_range]

/-- The j-th pair of the i-th frame of a sequence. -/
theorem pair_of_encodeBytes (bytes : List Byte) {i j : Nat} (hi : i < bytes.length) (hj : j < 9) :
    ((encodeBytes bytes).drop (20 * i + 2 * j + 2)).take 2 = encodeBit (frameBit bytes[i] j) := by
  rw [← take_drop_encodeByte _ hj, ← take_drop_encodeBytes, List.drop_take, List.drop_drop, List.take_take,
    Nat.min_eq_left (by omega), Nat.add_assoc]

/-- An exclusive-or accumulator and the number of 1 bits it has taken in have together the parity it began with. -/
theorem countP_add_foldl_xor {α : Type} (f : α → Bool) (l : List α) (p : Bool) :
    (l.countP f + (l.foldl (fun q a => q ^^ f a) p).toNat) % 2 = p.toNat := by
  induction l generalizing p with
  | nil => cases p <;> rfl
  | cons a l ih =>
    cases hfa : f a with
    | false => simpa [hfa] using ih p
    | true =>
      have hflip := ih (!p)
      cases p <;> simp [hfa] at hflip ⊢ <;> omega

/-- The parity bit makes the number of 1 bits among the nine odd, since PAR begins at 1 (R23, R114). -/
theorem countP_frameBit_odd (b : Byte) : (List.range 9).countP (frameBit b) % 2 = 1 := by
  have hbits : (List.range 8).countP (frameBit b) = (List.range 8).countP b.getLsbD :=
    List.countP_congr fun j hj => by rw [frameBit_of_lt (List.mem_range.mp hj)]
  calc (List.range 9).countP (frameBit b) % 2
      = ((List.range 8).countP b.getLsbD + (parityBit b).toNat) % 2 := by
        rw [List.range_succ, List.countP_append, hbits]
        cases hp : parityBit b <;> simp [hp]
    _ = 1 := countP_add_foldl_xor b.getLsbD (List.range 8) true

/-- Settles O4. A pair of a frame is that of 1 exactly where the encoded bit is 1. -/
theorem everyFrameHasOddParity : Obligations.EveryFrameHasOddParity := by
  intro bytes i hi
  rw [← countP_frameBit_odd bytes[i]]
  congr 1
  refine List.countP_congr fun j hj => ?_
  rw [pair_of_encodeBytes bytes hi (List.mem_range.mp hj), beq_iff_eq, injective_encodeBit.eq_iff]

/-- A frame tells its byte: its pairs tell the bits (R118). -/
theorem injective_encodeByte : Function.Injective encodeByte := by
  intro b c h
  refine BitVec.eq_of_getLsbD_eq fun j hj => ?_
  have hpair : encodeBit (frameBit b j) = encodeBit (frameBit c j) := by
    rw [← take_drop_encodeByte b (by omega), ← take_drop_encodeByte c (by omega), h]
  simpa [hj] using injective_encodeBit hpair

/-- ENCODE_BYTES is injective: the output's length tells how many bytes, its frames tell which (R118). -/
theorem injective_encodeBytes : Function.Injective encodeBytes := by
  intro xs ys h
  have hlen : xs.length = ys.length := by
    simpa using congrArg List.length h
  refine List.ext_getElem hlen fun i hx hy => injective_encodeByte ?_
  rw [← take_drop_encodeBytes, ← take_drop_encodeBytes, h]

/-- P_LONG is in no pair (R100). -/
theorem pLong_notMem_encodeBit (bit : Bool) : pLong ∉ encodeBit bit := by
  cases bit <;> decide

/-- P_LONG stands in a frame at the marker's first position and nowhere else (R118). -/
theorem getElem?_encodeByte_eq_pLong_iff (b : Byte) (p : Nat) : (encodeByte b)[p]? = some pLong ↔ p = 0 := by
  rw [encodeByte_eq]
  match p with
  | 0 => exact iff_of_true rfl rfl
  | 1 => exact iff_of_false (by decide : some pMedium ≠ some pLong) Nat.one_ne_zero
  | p + 2 =>
    refine iff_of_false (fun h => ?_) (Nat.succ_ne_zero _)
    obtain ⟨j, -, hj⟩ := List.mem_flatMap.mp (List.mem_of_getElem? (i := p) h)
    exact pLong_notMem_encodeBit _ hj

/-- The k-th pulse of a sequence stands at position k mod 20 of frame k div 20. -/
theorem getElem?_encodeBytes (bytes : List Byte) {k : Nat} (h : k / 20 < bytes.length) :
    (encodeBytes bytes)[k]? = (encodeByte bytes[k / 20])[k % 20]? := by
  rw [← take_drop_encodeBytes, List.getElem?_take_of_lt (Nat.mod_lt _ (by decide)), List.getElem?_drop,
    Nat.div_add_mod]

/-- Settles O6. Positions and pairs of a sequence are read off the frame they stand in. -/
theorem framesCanBeDecoded : Obligations.FramesCanBeDecoded := by
  refine ⟨injective_encodeBytes, injective_encodeByte, fun bytes k hk => ?_, fun bytes i j hi hj => ?_⟩
  · rw [getElem?_encodeBytes bytes (Nat.div_lt_of_lt_mul hk)]
    exact ⟨getElem?_encodeByte_eq_pLong_iff _ _, fun hone => by rw [hone]; rfl⟩
  · rw [pair_of_encodeBytes bytes hi hj]
    cases frameBit bytes[i] j
    · exact .inr rfl
    · exact .inl rfl

end Sys2Proof.Machine

/-! The checksum of a control block (R136): MAKE_HEADER ends its 191 bytes as a data block ends its data. -/

namespace Sys2Proof.Machine

open Sys2Proof

/-- A sequence followed by its own XORSUM has XORSUM 0x00 (R115). -/
theorem xorsum_append_xorsum (d : List Byte) : xorsum (d ++ [xorsum d]) = 0x00 := by
  rw [xorsum_append_singleton]
  exact BitVec.xor_self

/-- A control block without its last byte is its first 191 bytes (R135). -/
theorem take_makeHeader (t : Byte) (a e : Half) (lab : List Byte) :
    (makeHeader t a e lab).take 191 = headerBody t a e lab :=
  List.take_left' (length_headerBody t a e lab)

/-- The last byte of a control block is the XORSUM MAKE_HEADER appends (R135). -/
theorem getElem?_makeHeader_last (t : Byte) (a e : Half) (lab : List Byte) :
    (makeHeader t a e lab)[191]? = some (xorsum (headerBody t a e lab)) := by
  rw [← length_headerBody t a e lab]
  exact List.getElem?_concat_length

/-- Settles O12. The checksum is appended to the 191 bytes it sums, so the sum of all cancels. -/
theorem controlBlockChecksum : Obligations.ControlBlockChecksum := by
  refine fun t a e lab => ⟨length_makeHeader t a e lab, ?_, xorsum_append_xorsum _⟩
  rw [take_makeHeader]
  exact getElem?_makeHeader_last t a e lab

end Sys2Proof.Machine

/-! The region of a file (R165, R166): which region ENCODE_FILE answers, and its length. -/

namespace Sys2Proof.Machine

open Sys2Proof

/-- The region ENCODE_FILE answers, when it answers one (R165). -/
theorem encodeFile_eq_some_iff {dispName raw region : List Byte} : encodeFile dispName raw = some region ↔
    2 ≤ raw.length ∧ fileRegion (fileHeader dispName raw) (programOf raw) = region := by
  rcases Nat.lt_or_ge raw.length 2 with h | h
  · simp [encodeFile_of_lt _ _ h, Nat.not_le.mpr h]
  · simp [encodeFile_of_le _ _ h, h]

/-- A file's control block is 192 bytes (R70). -/
@[simp] theorem length_fileHeader (dispName raw : List Byte) : (fileHeader dispName raw).length = 192 :=
  length_makeHeader _ _ _ _

/-- The n of R72: two raw bytes are the load address, the others the program. -/
@[simp] theorem length_programOf (raw : List Byte) : (programOf raw).length = raw.length - 2 :=
  List.length_drop

/-- The length of a file's region depends on the number of its program bytes alone (R166). -/
theorem length_of_encodeFile {dispName raw region : List Byte} (h : encodeFile dispName raw = some region) :
    region.length = fileRegionLen (raw.length - 2) := by
  obtain ⟨-, rfl⟩ := encodeFile_eq_some_iff.mp h
  rw [length_fileRegion _ _ (length_fileHeader _ _), length_programOf]

/-- Settles O15. The length depends on n alone, and the step list's constants sum to the closed form's. -/
theorem encodeFileLength : Obligations.EncodeFileLength := by
  intro dispName raw region h n B
  have closed : region.length = 42068 + 40 * (n + 1) := by
    rw [length_of_encodeFile h, fileRegionLen]
  refine ⟨closed, ?_, ?_, ?_, ?_, ?_⟩
  · omega
  all_goals
    intro hn
    rw [closed, hn]

end Sys2Proof.Machine

/-! Decoding and encoding (R80 to R86): each decoder on the word of an instruction, and the word of what a decoder
answers. -/

namespace Sys2Proof

/-- A field whose number an arm of a decoder tests for is that number. -/
theorem eq_ofNat_of_toNat {n k : Nat} {x : BitVec n} (h : x.toNat = k) : x = BitVec.ofNat n k := by
  rw [← h, BitVec.ofNat_toNat, BitVec.setWidth_eq]

/-- A command that takes no immediate decodes to itself, where its imm8 is 0 (R80). -/
theorem bareCommand_eq_ok {imm : Byte} {i j : Instr} (h : bareCommand imm i = .ok j) : imm = 0 ∧ j = i := by
  unfold bareCommand at h
  split at h
  case isTrue h0 => exact ⟨h0, (Except.ok.inj h).symm⟩
  case isFalse => cases h

/-- A micro-operation that takes no argument decodes to itself, where its argument is 0 (R86). -/
theorem bareMicro_eq_ok {arg : Half} {i j : Instr} (h : bareMicro arg i = .ok j) : arg = 0 ∧ j = i := by
  unfold bareMicro at h
  split at h
  case isTrue h0 => exact ⟨h0, (Except.ok.inj h).symm⟩
  case isFalse => cases h

/-- A command word that decodes is the word of what it decodes to (R80, R81): opcode and imm8 make up the word. -/
theorem encode_of_decodeCmd {c : CmdWord} {i : Instr} (h : decodeCmd c = .ok i) : encode i = some (16, c.toNat) := by
  have hc := cmdWord_fields c
  unfold decodeCmd at h
  generalize c.extractLsb' 8 8 = op at h hc
  generalize c.extractLsb' 0 8 = imm at h hc
  subst hc
  dsimp only at h
  split at h
  case h_9 => cases h
  case h_2 hop | h_3 hop | h_7 hop =>
    obtain rfl := eq_ofNat_of_toNat hop
    cases h
    rfl
  all_goals
    rename_i hop
    obtain rfl := eq_ofNat_of_toNat hop
    obtain ⟨rfl, rfl⟩ := bareCommand_eq_ok h
    rfl

/-- A micro-word that decodes is the word of what it decodes to (R85, R86). -/
theorem encode_of_decodeMicro {m : MicroWord} {i : Instr} (h : decodeMicro m = .ok i) :
    encode i = some (24, m.toNat) := by
  unfold decodeMicro at h
  dsimp only at h
  split at h
  case isFalse => cases h
  case isTrue h0 =>
    have hm := microWord_fields m h0
    generalize m.extractLsb' 20 4 = op at h hm
    generalize m.extractLsb' 0 16 = arg at h hm
    subst hm
    split at h
    case h_8 => cases h
    case h_3 hop | h_4 hop =>
      obtain rfl := eq_ofNat_of_toNat hop
      cases h
      rfl
    all_goals
      rename_i hop
      obtain rfl := eq_ofNat_of_toNat hop
      obtain ⟨rfl, rfl⟩ := bareMicro_eq_ok h
      rfl

/-- The decoder of command words on the fields of a word (R80, R81). -/
theorem decodeTableWord_cmdWord {op imm : Byte} {i : Instr} (h : decodeCmd (cmdWord op imm) = .ok i) :
    decodeTableWord 16 (cmdWord op imm).toNat = some i := by
  rw [decodeTableWord_cmd, h]
  rfl

/-- The decoder of micro-words on the fields of a word (R85, R86). -/
theorem decodeTableWord_microWord {op : BitVec 4} {arg : Half} {i : Instr}
    (h : decodeMicro (microWord op arg) = .ok i) : decodeTableWord 24 (microWord op arg).toNat = some i := by
  rw [decodeTableWord_micro, h]
  rfl

/-- Decoding gives back every instruction that has a word, also TONE 0 and SYNC of a base R86 does not list. -/
theorem decodeTableWord_of_encode {i : Instr} {n w : Nat} (h : encode i = some (n, w)) :
    decodeTableWord n w = some i := by
  cases i
  case nop | name | data | discard | encfile | finish | rdsr | reset =>
    cases h
    refine decodeTableWord_cmdWord ?_
    simp only [decodeCmd, cmdWord_opcode, cmdWord_imm]
    rfl
  case uEnd | uRaw4 | uTone | uSync | uHdr | uData | uEob =>
    cases h
    refine decodeTableWord_microWord ?_
    simp only [decodeMicro, microWord_zero, microWord_uop, microWord_arg, if_true]
    rfl
  all_goals cases h

/-- Settles O45. Each field of an instruction's word is read back as it was put in. -/
theorem decodeOfEncode : Obligations.DecodeOfEncode :=
  fun _ _ _ _ h => decodeTableWord_of_encode h

/-- Settles O46. Each arm of a decoder answers the instruction whose word has the arm's code. -/
theorem encodeOfDecode : Obligations.EncodeOfDecode := by
  intro n w i h
  rcases decodeTableWord_eq_some h with ⟨rfl, c, rfl, hc⟩ | ⟨rfl, m, rfl, hm⟩
  · exact encode_of_decodeCmd hc
  · exact encode_of_decodeMicro hm

/-- Settles O47. The words are literals: the decoders are evaluated on each. -/
theorem wordsOfTheSpecDecode : Obligations.WordsOfTheSpecDecode := by
  unfold Obligations.WordsOfTheSpecDecode
  decide

end Sys2Proof

/-! One step (R145, R204, R250 to R252): the placement of a word, the port handshakes, `rst`. -/

namespace Sys2Proof.Machine

open Sys2Proof

/-- Once the events before the first that is not `rst` are dropped, `rst` is not asserted. -/
theorem headD_dropWhile_ne_rst (events : List PortEvent) : (events.dropWhile (· == .rst)).headD .idle ≠ .rst := by
  induction events with
  | nil => simp
  | cons e es ih =>
    cases e with
    | rst => exact ih
    | idle | offer | takeResponse | takeByte => exact PortEvent.noConfusion

/-- Placing a command word (assumption 17). -/
theorem withFetchWord_cmd (s : State) (w : CmdWord) : s.withFetchWord 16 w.toNat = s.latchCommand w := by
  unfold State.withFetchWord
  rw [if_pos rfl, BitVec.ofNat_toNat, BitVec.setWidth_eq]

/-- Placing a micro-word (assumption 17). -/
theorem withFetchWord_micro (s : State) (w : MicroWord) : s.withFetchWord 24 w.toNat = s.latchMicro w := by
  unfold State.withFetchWord
  rw [if_neg (by decide), if_pos rfl, BitVec.ofNat_toNat, BitVec.setWidth_eq]

/-- Settles O48. The placement puts the word in the latch and leaves no `rst` before it. -/
theorem stepRunsTheCommand : Obligations.StepRunsTheCommand := by
  refine fun s w i hi => ⟨fun hr hu hc => step_of_command s w i hr hu hc hi, ?_⟩
  rw [withFetchWord_cmd]
  exact step_of_command _ w i (headD_dropWhile_ne_rst _) rfl rfl hi

/-- Settles O49. What the sequencer executes is the decoded micro-operation, and `refetch` is the next fetch. -/
theorem stepRunsTheMicroOp : Obligations.StepRunsTheMicroOp := by
  intro s w i hi
  have run (u : State) (hr : ¬ u.rstNow) (hu : u.uw = some w) :
      step u = andThen (exec i u) (fun t => .next t.refetch) := by
    rw [step_of_micro u w hr hu, microOf_of_decode hi]
  refine ⟨run s, ?_⟩
  rw [withFetchWord_micro]
  exact run _ (headD_dropWhile_ne_rst _) rfl

/-- With nothing executing a step is about the event at the head of the host's list. -/
theorem agenda_of_events_cons {s : State} {e : PortEvent} {rest : List PortEvent} (h : s.host.events = e :: rest)
    (he : e ≠ .rst) (hu : s.uw = none) (hc : s.cmd = none) : s.agenda = .port e := by
  have hev : s.event = e := by rw [State.event, h, List.headD_cons]
  rw [agenda_of_port s (fun hr => he (hev.symm.trans hr)) hu hc, hev]

/-- Dropping the head of the host's list. -/
theorem dropEvent_of_cons {s : State} {e : PortEvent} {rest : List PortEvent} (h : s.host.events = e :: rest) :
    s.dropEvent = { s with host := { s.host with events := rest } } := by
  simp only [State.dropEvent, h, List.tail_cons]

/-- Without an event to drop the block stays as it is. -/
theorem dropEvent_of_nil {s : State} (h : s.host.events = []) : s.dropEvent = s := by
  simp only [State.dropEvent, h, List.tail_nil]
  rw [← h]

/-- Settles O51, one clause for each event. -/
theorem portHandshakes : Obligations.PortHandshakes := by
  intro s w rest hu hc
  refine ⟨fun h hr => ?_, fun h hr => ?_, fun v h hr => ?_, fun h hr => ?_, fun h => ?_, fun h => ?_, fun h => ?_⟩
  · rw [step, agenda_of_events_cons h (by simp) hu hc, dropEvent_of_cons h]
    simp [accept_eq, State.cmdReady, State.executing, hu, hc, hr]
  · rw [step, agenda_of_events_cons h (by simp) hu hc, dropEvent_of_cons h]
    simp [accept_eq, State.cmdReady, hr]
  · rw [step, agenda_of_events_cons h (by simp) hu hc, dropEvent_of_cons h]
    simp [takeRsp_eq, hr]
  · rw [step, agenda_of_events_cons h (by simp) hu hc, dropEvent_of_cons h]
    simp [takeRsp_eq, hr]
  · rw [step, agenda_of_events_cons h (by simp) hu hc, dropEvent_of_cons h]
  · rw [step, agenda_of_events_cons h (by simp) hu hc, dropEvent_of_cons h]
  · have hidle : s.event = .idle := by rw [State.event, h, List.headD_nil]
    rw [step, agenda_of_port s (fun hr => PortEvent.noConfusion (hidle.symm.trans hr)) hu hc, hidle, dropEvent_of_nil h]

/-- Settles O52. `rst` goes before everything, and the reset state has neither command nor response. -/
theorem rstAbandonsEverything : Obligations.RstAbandonsEverything := by
  intro s rest h
  have hr : s.rstNow := by rw [State.rstNow, h, List.headD_cons]
  refine ⟨_, step_of_rst s hr, ?_⟩
  rw [dropEvent_of_cons h]
  exact ⟨rfl, rfl, rfl, rfl, ⟨rfl, rfl, rfl, rfl, rfl⟩, rfl, rfl, rfl, rfl, rfl,
    rfl, rfl, rfl, rfl, rfl, rfl⟩

end Sys2Proof.Machine

/-! What every step keeps of the buffers, the lengths, the mode and the parameters (R11, R17, R19, R29): each read
off the one lemma about everything a step can touch. -/

namespace Sys2Proof.Machine

open Sys2Proof

/-- The block is in its reset state; the parameters, the response and the host are not part of it (R30). -/
def WasReset (s t : State) : Prop := t = { State.reset with cfg := s.cfg, rsp := t.rsp, host := t.host }

/-- The host's `rst`, or RESET about to be executed: the two ways to reset the block (R202, R250). -/
abbrev ResetNow (s : State) : Prop := s.rstNow ∨ (s.uw = none ∧ s.cmd = some 0x0700)

/-- A step resets the block or touches it as one instruction does. -/
theorem step_wasReset_or_touches {s t : State} (h : step s = .next t) :
    (WasReset s t ∧ ResetNow s) ∨
      ∃ i, Touches i s t ∧ (i = .finish → s.uw = none ∧ s.cmd = some 0x0500) := by
  rcases step_touches h with ⟨rfl, hr⟩ | ⟨-, hu, hc, rfl⟩ | ⟨-, htouch⟩
  · exact .inl ⟨rfl, .inl hr⟩
  · exact .inl ⟨rfl, .inr ⟨hu, hc⟩⟩
  · exact .inr htouch

/-- Settles O54. The reset buffers are empty, and every other change of a buffer is a write. -/
theorem stepKeepsMemoryCanonical : Obligations.StepKeepsMemoryCanonical := by
  intro s t ⟨hname, himg, hcb, hpay⟩ h
  rcases step_wasReset_or_touches h with ⟨hreset, -⟩ | ⟨i, ht, -⟩
  · rw [hreset]
    exact reset_memory_wf
  · exact ⟨ht.name.wf hname, ht.img.wf himg, ht.cb.wf hcb, ht.pay.stored.wf hpay⟩

/-- Settles O55. The reset lengths are 0, and no instruction takes a length past its buffer. -/
theorem stepKeepsCapacity : Obligations.StepKeepsCapacity := by
  intro s t ⟨hcfg, hname, himg, hpay⟩ h
  rcases step_wasReset_or_touches h with ⟨hreset, -⟩ | ⟨i, ht, -⟩
  · rw [hreset]
    exact ⟨hcfg, Nat.zero_le _, Nat.zero_le _, Nat.zero_le _⟩
  · rw [State.withinCapacity, ht.cfg]
    exact ⟨hcfg, ht.nameLen.elim (· ▸ hname) id, ht.imgLen.elim (· ▸ himg) id, ht.pay.capacity hpay⟩

/-- Settles O56. Outside a reset PAY only grows at its end. -/
theorem payIsAppendOnly : Obligations.PayIsAppendOnly := by
  intro s t h
  rcases step_wasReset_or_touches h with ⟨hreset, hnow⟩ | ⟨i, ht, -⟩
  · exact ⟨by rw [hreset], .inr ⟨by rw [hreset]; rfl, hnow⟩⟩
  · exact ⟨ht.cfg, .inl ⟨ht.pay.le, ht.pay.read⟩⟩

/-- Settles O57. A reset leads to OPEN, so the mode it changes is SEALED; of the instructions only FINISH in OPEN
mode changes the mode. -/
theorem modeChangesOnlyByFinishAndReset : Obligations.ModeChangesOnlyByFinishAndReset := by
  intro s t h hne
  rcases step_wasReset_or_touches h with ⟨hreset, hnow⟩ | ⟨i, ht, hfinish⟩
  · have ht : t.mode = .isOpen := by rw [hreset]; rfl
    cases hs : s.mode with
    | isSealed => exact .inl ⟨rfl, hnow⟩
    | isOpen => exact absurd (ht.trans hs.symm) hne
  · obtain ⟨hi, hopen⟩ := ht.mode.resolve_left hne
    exact .inr ⟨hopen, hfinish hi⟩

end Sys2Proof.Machine

/-! How a command ends (R89, R190, R226), and what each host command does (R191 to R202). -/

namespace Sys2Proof.Machine

open Sys2Proof

/-- A command that ends well answers OK and leaves ERRSEEN as it is (R26, R190). -/
theorem complete_codeOk (s : State) (data : Byte) :
    s.complete codeOk data = { s with lastRsp := 0x00, rsp := some (codeOk ++ data), cmd := none } := by
  simp only [State.complete, bne_self_eq_false, Bool.or_false]
  rfl

/-- An exception is recorded in LASTRSP and ERRSEEN and changes nothing else (R226). -/
theorem raise_of_ne (s : State) {code : Byte} (h : code ≠ codeOk) :
    s.raise code = { s with lastRsp := code, errSeen := true, rsp := some (code ++ 0x00#8), cmd := none } := by
  simp only [State.raise, State.complete, bne_iff_ne.mpr h, Bool.or_true]
  rfl

theorem raise_eCapacity (s : State) :
    s.raise eCapacity = { s with lastRsp := 0x04, errSeen := true, rsp := some 0x0400, cmd := none } :=
  raise_of_ne s (by decide)

theorem raise_eMalformed (s : State) :
    s.raise eMalformed = { s with lastRsp := 0x01, errSeen := true, rsp := some 0x0100, cmd := none } :=
  raise_of_ne s (by decide)

theorem raise_eSequence (s : State) :
    s.raise eSequence = { s with lastRsp := 0x03, errSeen := true, rsp := some 0x0300, cmd := none } :=
  raise_of_ne s (by decide)

/-- A write of n bytes leaves the bytes outside them alone (R41). -/
theorem sameOutside_store (m : Memory) (a : Nat) {vs : List Byte} {n : Nat} (h : vs.length = n) :
    SameOutside m (m.store a vs) a n :=
  fun b hb => read_store_of_outside m a vs b (h ▸ hb)

/-- A byte written at an offset is read there (R41). -/
theorem read_store_singleton (m : Memory) (a : Nat) (v : Byte) : (m.store a [v]).read a = v := by
  simp [read_store]

/-! ### The commands' meanings -/

theorem exec_name (c : Byte) (s : State) : exec (.name c) s = execName c s := rfl

theorem exec_data (b : Byte) (s : State) : exec (.data b) s = execData b s := rfl

theorem exec_discard (s : State) : exec .discard s = execDiscard s := rfl

theorem exec_encfile (s : State) : exec .encfile s = execEncfile s := rfl

theorem exec_finish (s : State) : exec .finish s = execFinish s := rfl

theorem exec_rdsr (k : Byte) (s : State) : exec (.rdsr k) s = execRdsr k s := rfl

/-! ### NOP, NAME, DATA, DISCARD -/

/-- Settles O32. The code OK leaves ERRSEEN as it is. -/
theorem nopCompletes : Obligations.NopCompletes :=
  fun s => congrArg Host.Outcome.next (complete_codeOk s 0x00)

/-- Settles O33, one branch of R192 after the other. -/
theorem nameCompletes : Obligations.NameCompletes := by
  intro s c hopen hlen
  rw [exec_name, execName, whenOpen_of_open _ _ hopen]
  simp only [complete_codeOk]
  by_cases hdot : s.dotSeen = true
  · refine ⟨_, if_pos hdot, rfl, ?_⟩
    rw [if_pos hdot]
    exact ⟨hdot, rfl, rfl, rfl⟩
  rw [if_neg hdot]
  have hdot' : s.dotSeen = false := Bool.not_eq_true _ ▸ hdot
  by_cases hc : c = 0x2E
  · refine ⟨_, if_pos hc, rfl, ?_⟩
    rw [if_neg hdot, if_pos hc]
    exact ⟨rfl, rfl, rfl, rfl⟩
  rw [if_neg (show ¬ c = dot from hc)]
  by_cases hfull : s.nameLen = 16
  · refine ⟨_, if_pos hfull, rfl, ?_⟩
    rw [if_neg hdot, if_neg hc, if_pos hfull]
    exact ⟨hdot', rfl, rfl, rfl⟩
  · rw [if_neg hfull]
    refine ⟨_, if_pos (by omega), rfl, ?_⟩
    rw [if_neg hdot, if_neg hc, if_neg hfull]
    exact ⟨hdot', rfl, rfl, read_store_singleton _ _ _, sameOutside_store _ _ rfl⟩

/-- Settles O35. There is room, or the buffer is full. -/
theorem dataCompletes : Obligations.DataCompletes := by
  intro s b hopen hlen
  rw [exec_data, execData, whenOpen_of_open _ _ hopen]
  refine ⟨fun hroom => ?_, fun hfull => ?_⟩
  · rw [if_neg (Nat.ne_of_lt hroom), if_pos hroom, complete_codeOk]
    exact ⟨_, rfl, rfl, read_store_singleton _ _ _, sameOutside_store _ _ rfl⟩
  · rw [if_pos hfull, raise_eCapacity]

/-- Settles O36. Staging is cleared, then the command ends with OK. -/
theorem discardCompletes : Obligations.DiscardCompletes := by
  intro s hopen
  rw [exec_discard, execDiscard, whenOpen_of_open _ _ hopen, complete_codeOk]
  rfl

/-- Settles O34. Each command keeps what staging has received in step with the codes and bytes delivered. -/
theorem namesCaptureTheStem : Obligations.NamesCaptureTheStem := by
  intro s cmds hopen hclear hdelivers
  obtain ⟨t, hrun, hrec, hdel⟩ := runCommands_delivers cmds (.of_clear hopen hclear) hdelivers
  rw [List.nil_append, List.nil_append] at hrec
  have hcfg : t.cfg = s.cfg := by rw [hdel.frame]
  refine ⟨t, hrun, hrec.name, by simp [hrec.nover], by rw [hrec.dotSeen, decide_eq_true_iff, dot], ?_,
    fun hfit => ⟨?_, ?_⟩⟩
  · rw [hrec.name]
    rfl
  · rw [hrec.image, hcfg, List.take_of_length_le hfit]
  · simpa [hrec.imgOvf, hcfg] using hfit

/-! ### ENCFILE and FINISH -/

/-- Settles O37, in the order the conditions are tested. -/
theorem encodingErrors : Obligations.EncodingErrors := by
  intro s hopen
  rw [exec_encfile, execEncfile, whenOpen_of_open _ _ hopen, exec_finish, execFinish, whenOpen_of_open _ _ hopen]
  refine ⟨fun hovf => ?_, fun hovf hshort => ?_, fun hovf hlong hfull => ?_, fun hfull => ?_⟩
  · rw [if_pos hovf, raise_eCapacity]
    rfl
  · rw [if_neg (by simp [hovf]), if_pos hshort, raise_eMalformed]
    rfl
  · have hcap : s.cfg.payMax < s.payLen + fileRegionLen (s.imgLen - 2) := by
      unfold fileRegionLen
      omega
    rw [if_neg (by simp [hovf]), if_neg (by omega), if_pos hcap, raise_eCapacity]
    rfl
  · rw [if_pos (show s.cfg.payMax < s.payLen + eotRegionLen from hfull), raise_eCapacity]

/-- ENCFILE with room encodes the staged file (R197). -/
theorem exec_encfile_of_room {s : State} (hopen : s.mode = .isOpen) (hovf : s.imgOvf = false) (hwf : s.pay.wf)
    (hname : s.nameLen ≤ 16) (hlong : 2 ≤ s.imgLen) (himg : s.imgLen ≤ s.cfg.imgMax)
    (hroom : s.payLen + fileRegionLen (s.imgLen - 2) ≤ s.cfg.payMax) :
    exec .encfile s = .next (fileEncoded s).fileDone := by
  rw [exec_encfile, execEncfile, whenOpen_of_open _ _ hopen, if_neg (by simp [hovf]), if_neg (by omega),
    if_neg (by omega)]
  exact encodeStaged_eq s hwf hname himg hroom

/-- FINISH with room appends the end-of-tape region and frames the payload (R199). -/
theorem exec_finish_of_room {s : State} (hopen : s.mode = .isOpen) (hwf : s.pay.wf)
    (hroom : s.payLen + eotRegionLen ≤ s.cfg.payMax) : exec .finish s = .next (tapeEncoded s).tapeDone := by
  rw [exec_finish, execFinish, whenOpen_of_open _ _ hopen, if_neg (by omega), run_finish s hwf hroom, andThen_next]

/-- A control block looks at the first 16 codes of its label only (R131). -/
theorem makeHeader_trunc16 (t : Byte) (a e : Half) (lab : List Byte) :
    makeHeader t a e (trunc16 lab) = makeHeader t a e lab := by
  simp only [makeHeader, headerBody, makeLabel_trunc16]

/-- The control block of the staged file is that of any display name whose truncated stem is staged (R132, R137). -/
theorem stagedHeader_eq {s : State} {dispName : List Byte} (h : s.stagedName = trunc16 (stem dispName)) :
    stagedHeader s = makeHeader typeProgram (stagedStart s) (stagedEnd s) (stem dispName) := by
  rw [stagedHeader, h, makeHeader_trunc16]

/-- What FILEPROG appends is ENCODE_FILE of the staged file (R165, R197). -/
theorem encodeFile_stagedRaw {s : State} {dispName : List Byte} (hlong : 2 ≤ s.imgLen)
    (h : s.stagedName = trunc16 (stem dispName)) :
    encodeFile dispName s.stagedRaw = some (fileRegion (stagedHeader s) s.stagedProgram) := by
  rw [encodeFile_of_le _ _ (by rwa [length_stagedRaw]), stagedHeader_eq h, fileHeader, programOf_stagedRaw,
    length_stagedProgram]
  rfl

/-- The region of the staged file has the length ENCFILE checks for (R166, R197). -/
theorem length_stagedRegion (s : State) :
    (fileRegion (stagedHeader s) s.stagedProgram).length = fileRegionLen (s.imgLen - 2) := by
  rw [length_fileRegion (stagedHeader s) _ (length_makeHeader ..), length_stagedProgram]

/-- A staged byte (R13). -/
theorem getD_stagedRaw {s : State} {i : Nat} (h : i < s.imgLen) : s.stagedRaw.getD i 0 = s.img.read i := by
  rw [List.getD_eq_getElem _ _ (by rwa [length_stagedRaw])]
  simp only [State.stagedRaw, getElem_load, Nat.zero_add]

/-- ENCFILE's payload grows by the staged file's region (R16, R197). -/
theorem payload_fileDone (s : State) :
    (fileEncoded s).fileDone.payload = s.payload ++ fileRegion (stagedHeader s) s.stagedProgram := by
  rw [fileDone_fileEncoded]
  exact payload_append _ rfl (by rw [length_stagedRegion])

/-- The response of ENCFILE carries the label warning (R89). -/
theorem codeOk_append_zext8 (warn : Bool) :
    (codeOk ++ zext8 warn : RspWord) = if warn = true then 0x0001 else 0x0000 := by
  cases warn <;> rfl

/-- Settles O38. The program of UROM appends ENCODE_FILE's region, whose label the staged name gives. -/
theorem encfileCompletes : Obligations.EncfileCompletes := by
  intro s dispName hopen hovf hwf hname hlong himg hroom hstaged
  have hread0 := getD_stagedRaw (s := s) (i := 0) (by omega)
  have hread1 := getD_stagedRaw (s := s) (i := 1) (by omega)
  refine ⟨_, _, exec_encfile_of_room hopen hovf hwf hname hlong himg hroom, encodeFile_stagedRaw hlong hstaged,
    payload_fileDone s, ?_⟩
  rw [fileDone_fileEncoded, codeOk_append_zext8]
  have hstart := toNat_loadAddr s.stagedRaw
  rw [hread0, hread1] at hstart
  have hcb : (s.cb.store 0 (stagedHeader s)).load 0 192 = stagedHeader s := cb_withHeader s _ _ _ _
  exact ⟨sameOutside_store _ _ (length_stagedRegion s), hcb.trans (stagedHeader_eq hstaged),
    sameOutside_store _ _ (length_makeHeader ..), hstart, toNat_endAddrOf _ _, rfl⟩

/-- FINISH's payload grows by the end-of-tape region (R16, R199). -/
theorem payload_tapeDone (s : State) : (tapeEncoded s).tapeDone.payload = s.payload ++ encodeEot := by
  rw [tapeDone_tapeEncoded]
  exact payload_append _ rfl (by rw [length_encodeEot])

/-- The type-5 control block stored in CB is what CB then holds (R137). -/
theorem load_store_eotHeader (m : Memory) : (m.store 0 eotHeader).load 0 192 = eotHeader := by
  have h := load_store_self m 0 eotHeader
  rwa [show eotHeader.length = 192 from length_makeHeader ..] at h

/-- Settles O39. The program of UROM appends ENCODE_EOT's region, and the whole payload is framed. -/
theorem finishCompletes : Obligations.FinishCompletes := by
  intro s hopen hwf hroom
  refine ⟨_, exec_finish_of_room hopen hwf hroom, payload_tapeDone s, ?_⟩
  rw [tapeDone_tapeEncoded]
  exact ⟨sameOutside_store _ _ length_encodeEot, (load_store_eotHeader _).trans eotHeader_eq,
    sameOutside_store _ _ (length_makeHeader ..), rfl⟩

end Sys2Proof.Machine

/-! RDSR (R25, R26, R201), RESET (R202), and what errors leave (R190, R221, R226). -/

namespace Sys2Proof.Machine

open Sys2Proof

/-- Byte i of a number (R42). -/
theorem toNat_byteOf (n i : Nat) : (byteOf n i).toNat = n / 256 ^ i % 256 := by
  rw [byteOf, BitVec.toNat_ofNat, Nat.shiftRight_eq_div_pow, Nat.pow_mul]

/-- The registers 0x00 to 0x0F exist (R25). -/
theorem exists_csr {s : State} {k : Byte} (h : k.toNat < 16) : ∃ v, csr s k = some v := by
  unfold csr
  split
  case h_17 =>
    simp only [imp_false] at *
    omega
  all_goals exact ⟨_, rfl⟩

/-- The registers 0x04 to 0x07 are IMGLEN, byte by byte (R25). -/
theorem csr_imgLen (s : State) {k : Byte} {j : Nat} (hj : j < 4) (hk : k.toNat = 4 + j) :
    csr s k = some (byteOf s.imgLen j) := by
  unfold csr
  rw [hk]
  match j, hj with
  | 0, _ | 1, _ | 2, _ | 3, _ => rfl

/-- The registers 0x08 to 0x0B are PAYLEN, byte by byte (R25). -/
theorem csr_payLen (s : State) {k : Byte} {j : Nat} (hj : j < 4) (hk : k.toNat = 8 + j) :
    csr s k = some (byteOf s.payLen j) := by
  unfold csr
  rw [hk]
  match j, hj with
  | 0, _ | 1, _ | 2, _ | 3, _ => rfl

/-- The registers 0x0C to 0x0F are OUTREM, byte by byte (R25, assumption 21). -/
theorem csr_outRem (s : State) {k : Byte} {j : Nat} (hj : j < 4) (hk : k.toNat = 12 + j) :
    csr s k = some (byteOf s.out.length j) := by
  unfold csr
  rw [hk]
  match j, hj with
  | 0, _ | 1, _ | 2, _ | 3, _ => rfl

/-- RDSR answers OK with the register (R201). -/
theorem exec_rdsr_of_csr {s : State} {k v : Byte} (h : csr s k = some v) :
    exec (.rdsr k) s = .next { s with rsp := some (0x00#8 ++ v), cmd := none } := by
  rw [exec_rdsr, execRdsr, h]
  rfl

/-- Settles O40. The response's byte is the register's, and each clause says which register a number is. -/
theorem rdsrReadsTheRegisters : Obligations.RdsrReadsTheRegisters := by
  intro s k hk
  obtain ⟨v, hv⟩ := exists_csr (s := s) hk
  have reads {x : Byte} (h : csr s k = some x) : v = x := Option.some.inj (hv.symm.trans h)
  refine ⟨v, exec_rdsr_of_csr hv, ?_, ?_, ?_, ?_, ?_, ?_⟩
  · rintro rfl
    exact reads rfl
  · rintro rfl hname
    rw [reads (x := byteOf s.nameLen 0) rfl, toNat_byteOf_zero]
    omega
  · rintro rfl
    exact reads rfl
  · intro j hj hkj
    rw [reads (csr_imgLen s hj hkj), toNat_byteOf]
  · intro j hj hkj
    rw [reads (csr_payLen s hj hkj), toNat_byteOf]
  · intro j hj hkj
    rw [reads (csr_outRem s hj hkj), toNat_byteOf]

/-- Seven flags, each shifted to its place, are the bits of one byte. -/
theorem getElem_flags : ∀ b0 b1 b2 b3 b4 b5 b6 : Bool,
    let v := zext8 b0 ||| zext8 b1 <<< 1 ||| zext8 b2 <<< 2 ||| zext8 b3 <<< 3 ||| zext8 b4 <<< 4 |||
      zext8 b5 <<< 5 ||| zext8 b6 <<< 6
    v[0] = b0 ∧ v[1] = b1 ∧ v[2] = b2 ∧ v[3] = b3 ∧ v[4] = b4 ∧ v[5] = b5 ∧ v[6] = b6 ∧ v[7] = false := by
  decide

/-- Settles O41. STATUS is seven flags in their places. -/
theorem statusBits : Obligations.StatusBits := by
  intro s
  have hmode : (s.mode == .isSealed) = decide (s.mode = .isSealed) := rfl
  have hout : (!s.out.isEmpty) = decide (0 < s.out.length) := by cases s.out <;> rfl
  refine ⟨statusByte s, exec_rdsr_of_csr rfl, ?_⟩
  rw [← hmode, ← hout]
  exact getElem_flags _ _ _ _ _ _ _

/-- Settles O42. The block's reset state holds every value. -/
theorem resetCommandCompletes : Obligations.ResetCommandCompletes :=
  fun s => ⟨_, exec_reset s, rfl, rfl, rfl, rfl, ⟨rfl, rfl, rfl, rfl, rfl⟩, rfl, rfl, rfl, rfl, rfl, rfl, rfl, rfl⟩

/-- The commands SEALED mode refuses (R190): they are the ones that look at the mode first. -/
theorem exec_of_sealed {s : State} (h : s.mode = .isSealed) (c b : Byte) :
    ∀ i ∈ [Instr.name c, .data b, .discard, .encfile, .finish], exec i s = .next (s.raise eSequence) := by
  simp [exec_name, exec_data, exec_discard, exec_encfile, exec_finish, execName, execData, execDiscard, execEncfile,
    execFinish, whenOpen_of_sealed s _ h]

/-- Settles O43. Each of the five commands looks at the mode first. -/
theorem sealedRefusesInput : Obligations.SealedRefusesInput := by
  intro s c b hsealed i hi
  rw [exec_of_sealed hsealed c b i hi, raise_eSequence]

/-! ### How a command ends -/

/-- How a command ends: with OK, or with one of the errors of R221 in the state it leaves (R190, R226). -/
inductive Ends (i : Instr) (s t : State) : Prop where
  /-- With OK and a data byte. -/
  | ok (data : Byte) (he : t.rsp = some (codeOk ++ data))
  /-- SEALED mode, or FINISH without room. -/
  | refused (code : Byte) (hc : code ≠ codeOk) (hr : ∀ k, i ≠ .rdsr k)
      (hi : s.mode = .isSealed ∨ i = .finish) (he : t = s.raise code)
  /-- ENCFILE in OPEN mode. -/
  | cleared (code : Byte) (hc : code ≠ codeOk) (hi : i = .encfile) (hm : s.mode = .isOpen)
      (he : t = s.clearStaging.raise code)
  /-- DATA out of room in OPEN mode. -/
  | overflow (b : Byte) (hi : i = .data b) (hm : s.mode = .isOpen)
      (he : t = { s with imgOvf := true }.raise eCapacity)
  /-- RDSR of a reserved register. -/
  | noRegister (k : Byte) (hi : i = .rdsr k) (he : t = s.respond eIllegal 0x00)

/-- A command that is refused in SEALED mode. -/
theorem Ends.of_whenOpen {i : Instr} {s t : State} {k : State → Result} (h : whenOpen s k = .next t)
    (hr : ∀ n, i ≠ .rdsr n) (ho : s.mode = .isOpen → k s = .next t → Ends i s t) : Ends i s t := by
  rcases whenOpen_cases h with ⟨hm, h⟩ | ⟨hm, h⟩
  · exact ho hm h
  · exact .refused eSequence (by decide) hr (.inl hm) h

/-- A command that completes with OK. -/
theorem Ends.of_complete {i : Instr} {s t u : State} {data : Byte}
    (h : Host.Outcome.next (φ := Fault) (ρ := Refusal) (u.complete codeOk data) = .next t) : Ends i s t :=
  .ok data (Host.Outcome.next.inj h ▸ rfl)

/-- Every command ends in one of these ways. -/
theorem exec_ends {i : Instr} {s t : State} (c b k : Byte)
    (hi : i ∈ [Instr.nop, .name c, .data b, .discard, .encfile, .finish, .rdsr k, .reset])
    (h : exec i s = .next t) : Ends i s t := by
  simp only [List.mem_cons, List.not_mem_nil, or_false] at hi
  rcases hi with rfl | rfl | rfl | rfl | rfl | rfl | rfl | rfl
  · exact .of_complete h
  · rw [exec_name, execName] at h
    refine .of_whenOpen h (by simp) fun _ h => ?_
    split at h
    · exact .of_complete h
    · split at h
      · exact .of_complete h
      · split at h
        · exact .of_complete h
        · split at h
          · exact .of_complete h
          · cases h
  · rw [exec_data, execData] at h
    refine .of_whenOpen h (by simp) fun hm h => ?_
    split at h
    · exact .overflow b rfl hm (Host.Outcome.next.inj h).symm
    · split at h
      · exact .of_complete h
      · cases h
  · rw [exec_discard, execDiscard] at h
    exact .of_whenOpen h (by simp) fun _ h => .of_complete h
  · rcases encfile_cases h with ⟨hm, h⟩ | ⟨hm, h | h | h⟩
    · exact .refused _ (by decide) (by simp) (.inl hm) h
    · exact .cleared _ (by decide) rfl hm h
    · exact .cleared _ (by decide) rfl hm h
    · obtain ⟨u, -, -, h⟩ := encodeStaged_cases h
      exact .ok (zext8 u.nover) (h ▸ rfl)
  · rcases finish_cases h with ⟨hm, h⟩ | ⟨-, -, h⟩ | ⟨-, u, -, -, h⟩
    · exact .refused _ (by decide) (by simp) (.inl hm) h
    · exact .refused _ (by decide) (by simp) (.inr rfl) h
    · exact .ok 0x00 (h ▸ rfl)
  · rw [exec_rdsr, execRdsr] at h
    split at h
    · rename_i v _
      exact .ok v (Host.Outcome.next.inj h ▸ rfl)
    · exact .noRegister k rfl (Host.Outcome.next.inj h).symm
  · exact .ok 0x00 (Host.Outcome.next.inj h ▸ rfl)

/-- The code of a response word (R87). -/
theorem response_code (code data : Byte) : (code ++ data : RspWord).extractLsb' 8 8 = code :=
  extract_append_upper code data

/-- The data byte of a response word (R87). -/
theorem response_data (code data : Byte) : (code ++ data : RspWord).extractLsb' 0 8 = data :=
  extract_append_lower code data

/-- Settles O44, one case for each way a command ends. -/
theorem errorsLeaveTheOutput : Obligations.ErrorsLeaveTheOutput := by
  intro s t c b k i hi h w hw hcode
  have hends := exec_ends c b k hi h
  clear h
  cases hends with
  | ok data h =>
    rw [h] at hw
    cases hw
    exact absurd (response_code _ _) hcode
  | refused code hc hr hcase h =>
    rw [h, raise_of_ne _ hc] at hw ⊢
    cases hw
    have henc : ¬ (i = .encfile ∧ s.mode = .isOpen) := by
      rintro ⟨rfl, hm⟩
      simp [hm] at hcase
    have hovf : (i == .data b && s.mode == .isOpen) = false := by
      rcases hcase with hm | rfl
      · rw [hm]; exact Bool.and_false _
      · rfl
    rw [if_neg (hr k), if_neg henc, response_code, response_data, hovf, Bool.or_false]
    exact ⟨rfl, rfl, rfl, rfl, rfl, rfl, rfl, rfl, rfl, rfl, ⟨rfl, rfl⟩, rfl, rfl, rfl, rfl, rfl⟩
  | cleared code hc hcase hm h =>
    subst hcase
    rw [h, raise_of_ne _ hc] at hw ⊢
    cases hw
    rw [if_neg (by simp), if_pos ⟨rfl, hm⟩, response_code, response_data]
    exact ⟨rfl, rfl, rfl, rfl, rfl, rfl, rfl, rfl, rfl, rfl, ⟨rfl, rfl⟩, rfl, rfl, rfl, rfl, rfl⟩
  | overflow b' hcase hm h =>
    subst hcase
    obtain rfl : b' = b := by simpa using hi
    rw [h, raise_eCapacity] at hw ⊢
    cases hw
    rw [if_neg (by simp), if_neg (by simp), hm]
    exact ⟨rfl, rfl, rfl, rfl, rfl, rfl, rfl, rfl, rfl, rfl, ⟨rfl, rfl⟩, rfl, rfl, rfl, rfl, by simp⟩
  | noRegister k' hcase h =>
    subst hcase
    obtain rfl : k' = k := by simpa using hi
    rw [h] at hw ⊢
    cases hw
    rw [if_pos rfl, if_neg (by simp), response_data]
    exact ⟨rfl, rfl, rfl, rfl, rfl, rfl, rfl, rfl, rfl, rfl, ⟨rfl, rfl⟩, rfl, rfl, rfl, rfl, by simp⟩

end Sys2Proof.Machine

/-! The invariant of the whole machine (R29): reset meets it, every command keeps it and is answered, every step
keeps it. -/

namespace Sys2Proof.Machine

open Sys2Proof

/-! ### Operations that keep the invariant -/

/-- The reset state meets the invariant whatever waits to be taken and whatever the host does (R30). -/
theorem State.Inv.of_wasReset {s t : State} (hcfg : s.cfg.wf) (h : WasReset s t) : t.Inv := by
  rw [h]
  exact {
    memory := reset_memory_wf
    capacity := ⟨hcfg, Nat.zero_le _, Nat.zero_le _, Nat.zero_le _⟩
    inside := ⟨nofun, nofun, nofun, nofun⟩
    quiet := ⟨rfl, nofun⟩
    staging := ⟨nofun, nofun, nofun, nofun⟩
    tape := ⟨[], nofun, rfl⟩
    out := rfl }

/-- The end of a command keeps the invariant: LASTRSP and ERRSEEN are no part of it, and no command is left. -/
theorem State.Inv.complete {s : State} (h : s.Inv) (code data : Byte) : (s.complete code data).Inv :=
  { h with quiet := ⟨h.quiet.1, nofun⟩ }

theorem State.Inv.respond {s : State} (h : s.Inv) (code data : Byte) : (s.respond code data).Inv :=
  { h with quiet := ⟨h.quiet.1, nofun⟩ }

theorem State.Inv.clearStaging {s : State} (h : s.Inv) : s.clearStaging.Inv := by
  obtain ⟨hcfg, -, -, hpay⟩ := h.capacity
  exact { h with
    capacity := ⟨hcfg, Nat.zero_le _, Nat.zero_le _, hpay⟩
    staging := ⟨nofun, nofun, nofun, fun _ => ⟨rfl, rfl, rfl, rfl, rfl⟩⟩ }

/-- In OPEN mode the staging flags may be set where what they mean holds (R29 g, h). -/
theorem State.Inv.setFlags {s : State} (h : s.Inv) (hopen : s.mode = .isOpen) {dotSeen nover imgOvf : Bool}
    (hn : nover = true → s.nameLen = 16) (ho : imgOvf = true → s.imgLen = s.cfg.imgMax) :
    State.Inv { s with dotSeen := dotSeen, nover := nover, imgOvf := imgOvf } := by
  obtain ⟨-, -, hdots, -⟩ := h.staging
  exact { h with staging := ⟨hn, ho, hdots, fun hs => by cases hopen.symm.trans hs⟩ }

/-- In OPEN mode a code other than '.' may be stored where there is room (R12). -/
theorem State.Inv.nameStored {s : State} (h : s.Inv) (hopen : s.mode = .isOpen) (hroom : s.nameLen < 16) {c : Byte}
    (hc : c ≠ dot) : (s.nameStored c).Inv := by
  obtain ⟨hname, hrest⟩ := h.memory
  obtain ⟨hcfg, -, himg, hpay⟩ := h.capacity
  obtain ⟨hin, hin'⟩ := h.inside
  obtain ⟨hn, ho, hdots, -⟩ := h.staging
  refine { h with
    memory := ⟨store_wf _ _ _ hname, hrest⟩
    capacity := ⟨hcfg, hroom, himg, hpay⟩
    inside := ⟨fun d hd => ?_, hin'⟩
    staging := ⟨fun hnover => ?_, ho, ?_, fun hs => by cases hopen.symm.trans hs⟩ }
  · rcases mem_store hd with hd | ⟨-, hd⟩
    · exact hin d hd
    · exact Nat.lt_of_lt_of_le hd hroom
  · exact absurd (hn hnover) (Nat.ne_of_lt hroom)
  · rw [stagedName_nameStored]
    exact List.forall_mem_append.mpr ⟨hdots, List.forall_mem_singleton.mpr hc⟩

/-- In OPEN mode a byte may be stored where there is room (R13). -/
theorem State.Inv.imgStored {s : State} (h : s.Inv) (hopen : s.mode = .isOpen) (hroom : s.imgLen < s.cfg.imgMax)
    (b : Byte) : (s.imgStored b).Inv := by
  obtain ⟨hname, himg, hrest⟩ := h.memory
  obtain ⟨hcfg, hlen, -, hpay⟩ := h.capacity
  obtain ⟨hin, hin', hin''⟩ := h.inside
  obtain ⟨hn, ho, hdots, -⟩ := h.staging
  refine { h with
    memory := ⟨hname, store_wf _ _ _ himg, hrest⟩
    capacity := ⟨hcfg, hlen, hroom, hpay⟩
    inside := ⟨hin, fun d hd => ?_, hin''⟩
    staging := ⟨hn, fun hovf => ?_, hdots, fun hs => by cases hopen.symm.trans hs⟩ }
  · rcases mem_store hd with hd | ⟨-, hd⟩
    · exact hin' d hd
    · exact Nat.lt_of_lt_of_le hd hroom
  · exact absurd (ho hovf) (Nat.ne_of_lt hroom)

/-! ### ENCFILE and FINISH keep the invariant -/

theorem holdsTape_of_open {s : State} {files : List (List Byte × List Byte)} (h : s.mode = .isOpen) :
    s.holdsTape files ↔ (∀ f ∈ files, 2 ≤ f.2.length) ∧ s.payload = encodeFiles files := by
  unfold State.holdsTape
  rw [h, List.append_nil]

theorem holdsTape_of_sealed {s : State} {files : List (List Byte × List Byte)} (h : s.mode = .isSealed) :
    s.holdsTape files ↔ (∀ f ∈ files, 2 ≤ f.2.length) ∧ s.payload = encodeFiles files ++ encodeEot := by
  unfold State.holdsTape
  rw [h]

theorem outOk_of_open {s : State} (h : s.mode = .isOpen) : s.outOk ↔ s.out = [] := by
  unfold State.outOk
  rw [h]

theorem outOk_of_sealed {s : State} (h : s.mode = .isSealed) : s.outOk ↔ s.out <:+ writeContainer s.payload := by
  unfold State.outOk
  rw [h]

/-- One file more: its region comes last, nothing where it raises (R172). -/
theorem encodeFiles_concat (files : List (List Byte × List Byte)) (f : List Byte × List Byte) :
    encodeFiles (files ++ [f]) = encodeFiles files ++ (encodeFile f.1 f.2).getD [] := by
  simp [encodeFiles]

/-- The staged name is the truncated stem of itself: it has no '.' and at most 16 codes (R12). -/
theorem State.Inv.stagedName_eq {s : State} (h : s.Inv) : s.stagedName = trunc16 (stem s.stagedName) := by
  obtain ⟨-, hlen, -, -⟩ := h.capacity
  obtain ⟨-, -, hdots, -⟩ := h.staging
  rw [stem_of_no_dot _ (fun hdot => hdots _ hdot rfl)]
  exact (List.take_of_length_le (by rwa [length_stagedName])).symm

/-- Cells after a write at the end of PAY lie below the new PAYLEN (R16, R40). -/
theorem lt_of_mem_store_end {m : Memory} {len n : Nat} {vs : List Byte} (h : ∀ c ∈ m, c.1 < len)
    (hn : vs.length = n) : ∀ c ∈ m.store len vs, c.1 < len + n := by
  intro c hc
  rcases mem_store hc with hc | ⟨-, hc⟩
  · exact Nat.lt_add_right n (h c hc)
  · exact hn ▸ hc

/-- Cells after a control block has been written to CB lie in CB (R14, R40). -/
theorem lt_of_mem_store_header {m : Memory} {header : List Byte} (h : ∀ c ∈ m, c.1 < 192)
    (hlen : header.length = 192) : ∀ c ∈ m.store 0 header, c.1 < 192 := by
  intro c hc
  rcases mem_store hc with hc | ⟨-, hc⟩
  · exact h c hc
  · rwa [Nat.zero_add, hlen] at hc

/-- The staged file is one file more on the tape (R197, R29 e). -/
theorem State.Inv.fileDone {s : State} (h : s.Inv) (hopen : s.mode = .isOpen) (hlong : 2 ≤ s.imgLen)
    (hroom : s.payLen + fileRegionLen (s.imgLen - 2) ≤ s.cfg.payMax) : (fileEncoded s).fileDone.Inv := by
  obtain ⟨hname, himg, hcb, hpay⟩ := h.memory
  obtain ⟨hcfg, -, -, -⟩ := h.capacity
  obtain ⟨hin, hin', hin'', hin'''⟩ := h.inside
  obtain ⟨files, htape⟩ := h.tape
  obtain ⟨hfiles, hpayload⟩ := (holdsTape_of_open hopen).mp htape
  have hmode : (fileEncoded s).fileDone.mode = .isOpen := by rw [fileDone_fileEncoded]; exact hopen
  have htape' : (fileEncoded s).fileDone.holdsTape (files ++ [(s.stagedName, s.stagedRaw)]) := by
    refine (holdsTape_of_open hmode).mpr ⟨?_, ?_⟩
    · exact List.forall_mem_append.mpr ⟨hfiles, List.forall_mem_singleton.mpr (by rwa [length_stagedRaw])⟩
    · rw [payload_fileDone, hpayload, encodeFiles_concat, encodeFile_stagedRaw hlong h.stagedName_eq,
        Option.getD_some]
  have hout : (fileEncoded s).fileDone.out = [] := by
    rw [fileDone_fileEncoded]
    exact (outOk_of_open hopen).mp h.out
  refine { tape := ⟨_, htape'⟩, out := (outOk_of_open hmode).mpr hout,
           memory := ?_, capacity := ?_, inside := ?_, quiet := ?_, staging := ?_ }
  all_goals rw [fileDone_fileEncoded]
  · exact ⟨hname, himg, store_wf _ _ _ hcb, store_wf _ _ _ hpay⟩
  · exact ⟨hcfg, Nat.zero_le _, Nat.zero_le _, hroom⟩
  · exact ⟨hin, hin', lt_of_mem_store_header hin'' (length_makeHeader ..),
      lt_of_mem_store_end hin''' (length_stagedRegion s)⟩
  · exact ⟨rfl, nofun⟩
  · exact ⟨nofun, nofun, nofun, fun _ => ⟨rfl, rfl, rfl, rfl, rfl⟩⟩

/-- FINISH seals the tape: one end-of-tape region, the whole container in OUT (R199, R29 d, f). -/
theorem State.Inv.tapeDone {s : State} (h : s.Inv) (hopen : s.mode = .isOpen)
    (hroom : s.payLen + eotRegionLen ≤ s.cfg.payMax) : (tapeEncoded s).tapeDone.Inv := by
  obtain ⟨hname, himg, hcb, hpay⟩ := h.memory
  obtain ⟨hcfg, -, -, -⟩ := h.capacity
  obtain ⟨hin, hin', hin'', hin'''⟩ := h.inside
  obtain ⟨files, htape⟩ := h.tape
  obtain ⟨hfiles, hpayload⟩ := (holdsTape_of_open hopen).mp htape
  have hmode : (tapeEncoded s).tapeDone.mode = .isSealed := by rw [tapeDone_tapeEncoded]
  have hout : (tapeEncoded s).tapeDone.out = writeContainer (tapeEncoded s).tapeDone.payload := by
    rw [payload_tapeDone, tapeDone_tapeEncoded]
  have htape' : (tapeEncoded s).tapeDone.holdsTape files :=
    (holdsTape_of_sealed hmode).mpr ⟨hfiles, by rw [payload_tapeDone, hpayload]⟩
  refine { tape := ⟨files, htape'⟩, out := (outOk_of_sealed hmode).mpr (hout ▸ List.suffix_rfl),
           memory := ?_, capacity := ?_, inside := ?_, quiet := ?_, staging := ?_ }
  all_goals rw [tapeDone_tapeEncoded]
  · exact ⟨hname, himg, store_wf _ _ _ hcb, store_wf _ _ _ hpay⟩
  · exact ⟨hcfg, Nat.zero_le _, Nat.zero_le _, hroom⟩
  · exact ⟨hin, hin', lt_of_mem_store_header hin'' (length_makeHeader ..),
      lt_of_mem_store_end hin''' length_encodeEot⟩
  · exact ⟨rfl, nofun⟩
  · exact ⟨nofun, nofun, nofun, fun _ => ⟨rfl, rfl, rfl, rfl, rfl⟩⟩

/-! ### Every command is answered -/

/-- A command is over: there is a next state, it meets the invariant, and a response waits (R50, R87). -/
def Answered (r : Result) : Prop := ∃ t, r = .next t ∧ t.Inv ∧ t.cmd = none ∧ t.rsp ≠ none

theorem Answered.complete {s : State} (h : s.Inv) (code data : Byte) : Answered (.next (s.complete code data)) :=
  ⟨_, rfl, h.complete code data, rfl, nofun⟩

theorem Answered.respond {s : State} (h : s.Inv) (code data : Byte) : Answered (.next (s.respond code data)) :=
  ⟨_, rfl, h.respond code data, rfl, nofun⟩

/-- A command of OPEN mode is answered in SEALED mode in any case (R190). -/
theorem Answered.whenOpen {s : State} {k : State → Result} (h : s.Inv) (ho : s.mode = .isOpen → Answered (k s)) :
    Answered (whenOpen s k) := by
  cases hm : s.mode with
  | isOpen => exact whenOpen_of_open s k hm ▸ ho hm
  | isSealed => exact whenOpen_of_sealed s k hm ▸ .complete h eSequence 0x00

theorem answered_name {s : State} (h : s.Inv) (c : Byte) : Answered (execName c s) := by
  obtain ⟨-, hlen, -, -⟩ := h.capacity
  obtain ⟨hn, ho, -, -⟩ := h.staging
  refine .whenOpen h fun hopen => ?_
  by_cases hdot : s.dotSeen = true
  · rw [if_pos hdot]
    exact .complete h _ _
  by_cases hc : c = dot
  · rw [if_neg hdot, if_pos hc]
    exact .complete (h.setFlags hopen hn ho) _ _
  by_cases hfull : s.nameLen = 16
  · rw [if_neg hdot, if_neg hc, if_pos hfull]
    exact .complete (h.setFlags hopen (fun _ => hfull) ho) _ _
  · have hroom : s.nameLen < 16 := Nat.lt_of_le_of_ne hlen hfull
    rw [if_neg hdot, if_neg hc, if_neg hfull, if_pos hroom]
    exact .complete (h.nameStored hopen hroom hc) _ _

theorem answered_data {s : State} (h : s.Inv) (b : Byte) : Answered (execData b s) := by
  obtain ⟨-, -, himg, -⟩ := h.capacity
  obtain ⟨hn, -, -, -⟩ := h.staging
  refine .whenOpen h fun hopen => ?_
  by_cases hfull : s.imgLen = s.cfg.imgMax
  · rw [if_pos hfull]
    exact .complete (h.setFlags hopen hn fun _ => hfull) _ _
  · have hroom : s.imgLen < s.cfg.imgMax := Nat.lt_of_le_of_ne himg hfull
    rw [if_neg hfull, if_pos hroom]
    exact .complete (h.imgStored hopen hroom b) _ _

theorem answered_encfile {s : State} (h : s.Inv) : Answered (execEncfile s) := by
  obtain ⟨-, -, -, hpay⟩ := h.memory
  obtain ⟨-, hname, himg, -⟩ := h.capacity
  refine .whenOpen h fun hopen => ?_
  by_cases hovf : s.imgOvf = true
  · rw [if_pos hovf]
    exact .complete h.clearStaging _ _
  by_cases hshort : s.imgLen < 2
  · rw [if_neg hovf, if_pos hshort]
    exact .complete h.clearStaging _ _
  by_cases hfull : s.cfg.payMax < s.payLen + fileRegionLen (s.imgLen - 2)
  · rw [if_neg hovf, if_neg hshort, if_pos hfull]
    exact .complete h.clearStaging _ _
  · have hroom := Nat.not_lt.mp hfull
    rw [if_neg hovf, if_neg hshort, if_neg hfull, encodeStaged_eq s hpay hname himg hroom]
    exact ⟨_, rfl, h.fileDone hopen (Nat.not_lt.mp hshort) hroom, rfl, nofun⟩

theorem answered_finish {s : State} (h : s.Inv) : Answered (execFinish s) := by
  obtain ⟨-, -, -, hpay⟩ := h.memory
  refine .whenOpen h fun hopen => ?_
  by_cases hfull : s.cfg.payMax < s.payLen + eotRegionLen
  · rw [if_pos hfull]
    exact .complete h _ _
  · have hroom := Nat.not_lt.mp hfull
    rw [if_neg hfull, run_finish s hpay hroom, andThen_next]
    exact ⟨_, rfl, h.tapeDone hopen hroom, rfl, nofun⟩

/-- Under the invariant every command word that is a command is answered (R220, R228). -/
theorem answered_command {s : State} {w : CmdWord} {i : Instr} (h : s.Inv) (hd : decodeCmd w = .ok i) :
    Answered (exec i s) := by
  rcases decodeCmd_range hd with rfl | ⟨c, rfl⟩ | ⟨b, rfl⟩ | rfl | rfl | rfl | ⟨k, rfl⟩ | rfl
  · exact .complete h _ _
  · exact answered_name h c
  · exact answered_data h b
  · rw [exec_discard, execDiscard]
    exact .whenOpen h fun _ => .complete h.clearStaging _ _
  · exact answered_encfile h
  · exact answered_finish h
  · rw [exec_rdsr, execRdsr]
    cases csr s k with
    | some v => exact .respond h _ _
    | none => exact .respond h _ _
  · obtain ⟨hcfg, -⟩ := h.capacity
    exact ⟨_, rfl, .of_wasReset (s := s) hcfg rfl, rfl, nofun⟩

/-! ### The ports keep the invariant -/

/-- The host is no part of the invariant. -/
theorem State.Inv.dropEvent {s : State} (h : s.Inv) : s.dropEvent.Inv := { h with }

/-- A pop leaves a shorter end of the container (R53, R203). -/
theorem State.Inv.popped {s : State} (h : s.Inv) : s.popped.Inv := by
  refine { h with out := ?_ }
  cases hm : s.mode with
  | isOpen => exact (outOk_of_open (s := s.popped) hm).mpr (congrArg List.tail ((outOk_of_open hm).mp h.out))
  | isSealed =>
    exact (outOk_of_sealed (s := s.popped) hm).mpr ((List.tail_suffix s.out).trans ((outOk_of_sealed hm).mp h.out))

/-- A pop that is not enabled does nothing (R203, assumption 24). -/
theorem State.Inv.pop {s : State} (h : s.Inv) : ∃ t, exec .pop s = .next t ∧ t.Inv := by
  have hexec : exec .pop s = execPop s := rfl
  rw [hexec, execPop]
  split
  · exact ⟨_, rfl, h.popped⟩
  · exact ⟨_, rfl, h⟩

theorem State.Inv.takeRsp {s : State} (h : s.Inv) : s.takeRsp.Inv := by
  rw [takeRsp_eq]
  exact { h with quiet := ⟨h.quiet.1, fun _ => rfl⟩ }

/-- A command is accepted only where no response waits (R204). -/
theorem State.Inv.accept {s : State} (h : s.Inv) (w : CmdWord) : (s.accept w).Inv := by
  unfold State.accept
  split
  case isTrue hready =>
    have hrsp : s.rsp = none := by
      rw [State.cmdReady, Bool.and_eq_true, Option.isNone_iff_eq_none] at hready
      exact hready.2
    exact { h with quiet := ⟨h.quiet.1, fun _ => hrsp⟩ }
  case isFalse => exact h

/-! ### Every step keeps the invariant -/

/-- Under the invariant a step answers, keeps the invariant, and ends the command being executed. -/
theorem State.Inv.step {s : State} (h : s.Inv) : ∃ t, step s = .next t ∧ t.Inv ∧
    (¬ s.rstNow → s.cmd ≠ none → t.cmd = none ∧ t.rsp ≠ none) := by
  obtain ⟨hidle, -⟩ := h.quiet
  obtain ⟨hcfg, -⟩ := h.capacity
  rcases step_cases (s := s) rfl with ⟨hr, e⟩ | ⟨-, w, hu, -⟩ | ⟨-, -, w, i, hc, hd, e⟩ | ⟨-, -, w, -, hc, -, e⟩ |
    ⟨-, -, hc, e⟩
  · exact ⟨_, e, .of_wasReset (s := s) hcfg rfl, fun hn => absurd hr hn⟩
  · rw [hidle] at hu
    cases hu
  · obtain ⟨t, ht, hinv, hanswer⟩ := answered_command h hd
    exact ⟨t, e.trans ht, hinv, fun _ _ => hanswer⟩
  · obtain ⟨t, ht, hinv, hanswer⟩ := Answered.complete h eIllegal 0x00
    exact ⟨t, e.trans ht, hinv, fun _ _ => hanswer⟩
  · suffices hport : ∃ t, Machine.step s = .next t ∧ t.Inv by
      obtain ⟨t, ht, hinv⟩ := hport
      exact ⟨t, ht, hinv, fun _ hn => absurd hc hn⟩
    rcases e with e | e | ⟨w, e⟩ | e
    · exact e ▸ h.dropEvent.pop
    · exact ⟨_, e, h.dropEvent.takeRsp⟩
    · exact ⟨_, e, h.dropEvent.accept w⟩
    · exact ⟨_, e, h.dropEvent⟩

/-- Settles O58. The step under the invariant leads to a state that meets it, and a step has one outcome. -/
theorem stepKeepsInvariant : Obligations.StepKeepsInvariant := by
  intro s t h hstep
  obtain ⟨u, hu, hinv, -⟩ := h.step
  exact Host.Outcome.next.inj (hstep.symm.trans hu) ▸ hinv

/-- Settles O53. A step under the invariant answers, and a command is answered by it. -/
theorem everyCommandIsAnswered : Obligations.EveryCommandIsAnswered := by
  intro s h
  obtain ⟨t, ht, -, hanswer⟩ := h.step
  exact ⟨⟨t, ht⟩, fun w hr hc => ⟨t, ht, hanswer hr (hc ▸ nofun)⟩⟩

/-- Settles O59. Nothing of the reset state but the parameters is open. -/
theorem resetMeetsInvariant : Obligations.ResetMeetsInvariant :=
  ⟨.of_wasReset (s := State.reset) (by decide) rfl,
    fun c hc => .of_wasReset (s := { State.reset with cfg := c }) hc rfl⟩

end Sys2Proof.Machine

/-! The byte encoders and checksums as instructions (R100, R112 to R116). -/

namespace Sys2Proof.Machine

open Sys2Proof

/-- Settles O1. The pulses of R100 are the model's. -/
theorem encodeBitCompletes : Obligations.EncodeBitCompletes := fun _ _ => rfl

/-- PAR after the eight bits of a byte: the complement of their exclusive-or, since it begins at 1 (R23). -/
theorem parityBit_eq (b : Byte) :
    parityBit b = !(b[0] ^^ b[1] ^^ b[2] ^^ b[3] ^^ b[4] ^^ b[5] ^^ b[6] ^^ b[7]) := by
  have hfold : parityBit b = ((((((((true ^^ b[0]) ^^ b[1]) ^^ b[2]) ^^ b[3]) ^^ b[4]) ^^ b[5]) ^^ b[6]) ^^ b[7]) :=
    rfl
  simp only [hfold, Bool.true_xor, Bool.xor_assoc, Bool.not_xor]

/-- Settles O3. The parity bit is the complement of the bits' exclusive-or; the frame is
evaluated on the eight bits. -/
theorem encodeByteCompletes : Obligations.EncodeByteCompletes := by
  intro s b p
  have hp : p = parityBit b := (parityBit_eq b).symm
  rw [hp]
  have hexec : exec (.encodeByte b) s = .next ((s.framed [b]).setUnitOut (encodeByte b)) := rfl
  rw [hexec]
  simp [encodeByte, byteMarker, pLong, pMedium, List.range_succ, State.framed, State.setUnitOut]

/-- The registers follow the last byte of a sequence that has one (R112, R113). -/
theorem framed_of_getLast? (s : State) {bytes : List Byte} {b : Byte} (h : bytes.getLast? = some b) :
    s.framed bytes = { s with cur := b, bix := 8, par := parityBit b, half := Config.halfAfterFrame b } := by
  have hne : bytes.isEmpty = false := by
    rw [List.isEmpty_eq_false_iff]
    rintro rfl
    cases h
  simp [State.framed, List.getLastD_eq_getLast?, h, hne]

/-- Settles O5. The frames are cut at multiples of 20, and the registers follow the last byte. -/
theorem encodeBytesCompletes : Obligations.EncodeBytesCompletes := by
  refine ⟨fun s bytes => ⟨_, rfl, length_encodeBytes bytes, take_drop_encodeBytes bytes, rfl, ?_, ?_⟩,
    encodeBytes_append⟩
  · rintro rfl
    rfl
  · intro b hb
    rw [framed_of_getLast? s hb]
    exact ⟨rfl, rfl, rfl⟩

/-- A data block ends in its checksum (R69). -/
theorem getLast?_dataBlock (d : List Byte) : (dataBlock d).getLast? = some (xorsum d) :=
  List.getLast?_concat

/-- The frames of a data block are those of its bytes and that of their checksum (R116). -/
theorem encodeDataBlock_eq (d : List Byte) : encodeDataBlock d = encodeBytes d ++ encodeByte (xorsum d) := by
  rw [encodeDataBlock, dataBlock, encodeBytes_append, encodeBytes_cons, encodeBytes_nil, List.append_nil]

/-- Settles O7. A data block ends in its checksum, which the registers follow. -/
theorem checksumUnitsComplete : Obligations.ChecksumUnitsComplete := by
  refine fun s d => ⟨rfl, ?_⟩
  have hexec : exec (.encodeDataBlock d) s =
      .next (((s.summed d).framed (dataBlock d)).setUnitOut (encodeDataBlock d)) := rfl
  rw [hexec, framed_of_getLast? _ (getLast?_dataBlock d), encodeDataBlock_eq]
  rfl

/-- A bit of an exclusive-or is the exclusive-or of the bits (R115). -/
theorem getLsbD_foldl_xor (d : List Byte) (x : Byte) (i : Nat) :
    (d.foldl (fun chk b => chk ^^^ b) x).getLsbD i = d.foldl (fun q b => q ^^ b.getLsbD i) (x.getLsbD i) := by
  induction d generalizing x with
  | nil => rfl
  | cons b d ih => rw [List.foldl_cons, List.foldl_cons, ih, BitVec.getLsbD_xor]

/-- A bit of XORSUM is the parity of the number of bytes that have it (R115). -/
theorem getLsbD_xorsum (d : List Byte) (i : Nat) :
    (xorsum d).getLsbD i = decide (d.countP (fun b => b.getLsbD i) % 2 = 1) := by
  have hparity := countP_add_foldl_xor (fun b : Byte => b.getLsbD i) d false
  have hzero : (0x00 : Byte).getLsbD i = false := BitVec.getLsbD_zero
  rw [xorsum, getLsbD_foldl_xor, hzero]
  cases hbit : d.foldl (fun q b => q ^^ b.getLsbD i) false <;> simp [hbit] at hparity ⊢ <;> omega

/-- Settles O8. A bit counts the bytes that have it, whatever their order. -/
theorem xorsumIsTheExclusiveOr : Obligations.XorsumIsTheExclusiveOr := by
  refine ⟨fun d i _ => getLsbD_xorsum d i, rfl, fun b => BitVec.zero_xor, xorsum_append_xorsum, fun d e h => ?_⟩
  refine BitVec.eq_of_getLsbD_eq fun i _ => ?_
  rw [getLsbD_xorsum, getLsbD_xorsum, h.countP_eq]

end Sys2Proof.Machine

/-! Labels and control blocks (R70, R126 to R135). -/

namespace Sys2Proof.Machine

open Sys2Proof

/-- STEM of a name with a '.' (R126). -/
theorem stem_append_dot {pre : List Byte} (post : List Byte) (h : dot ∉ pre) : stem (pre ++ dot :: post) = pre := by
  unfold stem
  rw [List.takeWhile_append_of_pos, List.takeWhile_cons_of_neg (by simp), List.append_nil]
  intro c hc
  rw [bne_iff_ne]
  rintro rfl
  exact h hc

/-- TRUNC16 as R127 puts it. -/
theorem trunc16_eq (codes : List Byte) : trunc16 codes = if 16 < codes.length then codes.take 16 else codes := by
  split
  case isTrue => rfl
  case isFalse h => exact List.take_of_length_le (Nat.not_lt.mp h)

/-- One code, as R128 puts it. -/
theorem upcaseCode_eq (c : Byte) :
    upcaseCode c = if 0x61 ≤ c.toNat ∧ c.toNat ≤ 0x7A then c - 0x20 else c := by
  simp [upcaseCode, BitVec.le_def]

/-- Only a '.' goes to a '.': no letter does (R128). -/
theorem upcaseCode_eq_dot_iff (c : Byte) : upcaseCode c = dot ↔ c = dot := by
  unfold upcaseCode dot
  split
  case isTrue h => constructor <;> intro h' <;> bv_omega
  case isFalse => rfl

/-- UPCASE goes before STEM or after it (R128). -/
theorem upcase_stem (codes : List Byte) : upcase (stem codes) = stem (upcase codes) := by
  unfold upcase stem
  rw [List.takeWhile_map]
  have hdot : (· != dot) ∘ upcaseCode = (· != dot) := by
    funext c
    rw [Function.comp_apply, Bool.eq_iff_iff, bne_iff_ne, bne_iff_ne, ne_eq, ne_eq, upcaseCode_eq_dot_iff]
  rw [hdot]

/-- A unit operation with this result (assumption 4). -/
theorem next_setUnitOut (s : State) {vs ws : List Byte} (h : vs = ws) :
    (Host.Outcome.next (s.setUnitOut vs) : Result) = .next { s with unitOut := ws } :=
  h ▸ rfl

/-- Settles O9, one clause for each step. -/
theorem labelStepsComplete : Obligations.LabelStepsComplete := by
  refine ⟨fun s pre post codes => ⟨fun h => ?_, fun h => ?_, ?_, ?_, rfl, fun h => ?_, fun h => ?_⟩,
    fun codes => ⟨List.map_take, upcase_stem codes, List.length_map _⟩⟩
  · exact next_setUnitOut s (stem_append_dot post h)
  · exact next_setUnitOut s (stem_of_no_dot pre h)
  · exact next_setUnitOut s (trunc16_eq codes)
  · exact next_setUnitOut s (List.map_congr_left fun c _ => upcaseCode_eq c)
  · exact next_setUnitOut s (pad16_of_le codes h)
  · exact next_setUnitOut s (pad16_of_gt codes h)

/-- MAKE_LABEL is the upper-cased first 16 codes and spaces (R131). -/
theorem makeLabel_eq (codes : List Byte) : makeLabel codes =
    (codes.take 16).map upcaseCode ++ List.replicate (16 - codes.length) 0x20 := by
  have hle : (upcase (trunc16 codes)).length ≤ 16 := by
    rw [upcase, List.length_map, length_trunc16]
    exact Nat.min_le_left _ _
  have hlen : 16 - (upcase (trunc16 codes)).length = 16 - codes.length := by
    rw [upcase, List.length_map, length_trunc16]
    omega
  rw [makeLabel, remap, pad16_of_le _ hle, hlen]
  rfl

/-- Settles O10. The label is the upper-cased codes, then spaces. -/
theorem makeLabelCompletes : Obligations.MakeLabelCompletes := by
  refine fun s codes => ⟨makeLabel codes, rfl, length_makeLabel codes, fun i hi => ?_⟩
  rw [makeLabel_eq]
  split
  case isTrue h =>
    rw [List.getElem?_append_left (by simp; omega), List.getElem?_map, List.getElem?_take_of_lt hi,
      List.getElem?_eq_getElem h, Option.map_some]
  case isFalse h =>
    rw [List.getElem?_append_right (by simp; omega), List.getElem?_replicate_of_lt (by simp; omega)]

end Sys2Proof.Machine

/-! MAKE_HEADER as an instruction (R70, R135): its fields are pieces of the 192 bytes it stores. -/

namespace Sys2Proof.Machine

open Sys2Proof

/-- A load inside a run that has been written reads a piece of the run (R41). -/
theorem load_store_inside (m : Memory) (a : Nat) (vs : List Byte) {i n : Nat} (h : i + n ≤ vs.length) :
    (m.store a vs).load (a + i) n = (vs.drop i).take n := by
  refine List.ext_getElem (by simp [length_load]; omega) fun j h1 h2 => ?_
  rw [length_load] at h1
  rw [getElem_load, read_store, if_pos (by omega), List.getElem_take, List.getElem_drop,
    List.getD_eq_getElem _ _ (by omega)]
  congr 1
  omega

/-- A read inside a run that has been written (R41). -/
theorem read_store_inside (m : Memory) (a : Nat) (vs : List Byte) {i : Nat} {v : Byte} (h : vs[i]? = some v) :
    (m.store a vs).read (a + i) = v := by
  obtain ⟨hi, rfl⟩ := List.getElem?_eq_some_iff.mp h
  rw [read_store, if_pos (by omega), Nat.add_sub_cancel_left, List.getD_eq_getElem _ _ hi]

/-- The two bytes of a u16 as its two fields (R42). -/
theorem byteOf_eq_extract (v : Half) :
    byteOf v.toNat 0 = v.extractLsb' 0 8 ∧ byteOf v.toNat 1 = v.extractLsb' 8 8 := by
  constructor <;> apply BitVec.eq_of_toNat_eq
  · rw [toNat_byteOf_zero, BitVec.extractLsb'_toNat, Nat.shiftRight_zero]
  · rw [toNat_byteOf_one, BitVec.extractLsb'_toNat, Nat.shiftRight_eq_div_pow]

/-- The label of a control block (R70). -/
theorem take_drop_makeHeader_label (t : Byte) (a e : Half) (lab : List Byte) :
    ((makeHeader t a e lab).drop 5).take 16 = makeLabel lab := by
  simp [makeHeader, headerBody, le16]

/-- The padding of a control block (R70). -/
theorem getElem?_makeHeader_padding (t : Byte) (a e : Half) (lab : List Byte) {i : Nat} (h : i < 170) :
    (makeHeader t a e lab)[21 + i]? = some 0x20 := by
  have hpre : ([t] ++ le16 a ++ le16 e ++ makeLabel lab).length = 21 := by simp [le16]
  rw [makeHeader, headerBody, List.append_assoc, ← hpre, List.getElem?_append_right (Nat.le_add_right _ _),
    Nat.add_sub_cancel_left, List.getElem?_append_left (by rw [List.length_replicate]; exact h)]
  exact List.getElem?_replicate_of_lt h

/-- Settles O11. Each field is a piece of the 192 bytes just stored. -/
theorem makeHeaderCompletes : Obligations.MakeHeaderCompletes := by
  intro s t a e lab
  have hcb : (s.cb.store 0 (makeHeader t a e lab)).load 0 192 = makeHeader t a e lab := cb_withHeader s t a e lab
  have hbody : (s.cb.store 0 (makeHeader t a e lab)).load 0 191 = headerBody t a e lab := by
    have h := load_store_inside s.cb 0 (makeHeader t a e lab) (i := 0) (n := 191) (by simp)
    rwa [List.drop_zero, take_makeHeader] at h
  have hchk : (s.cb.store 0 (makeHeader t a e lab)).read 191 = xorsum (headerBody t a e lab) := by
    have h := read_store_inside s.cb 0 _ (getElem?_makeHeader_last t a e lab)
    rwa [Nat.zero_add] at h
  obtain ⟨ha0, ha1, he0, he1⟩ := read_store_makeHeader s.cb t a e lab
  obtain ⟨ea0, ea1⟩ := byteOf_eq_extract a
  obtain ⟨ee0, ee1⟩ := byteOf_eq_extract e
  refine ⟨_, rfl, ?_, read_store_inside s.cb 0 _ (i := 0) rfl, ha0.trans ea0, ha1.trans ea1, he0.trans ee0,
    he1.trans ee1, ?_, fun i hi => ?_, hchk.trans (congrArg xorsum hbody.symm), sameOutside_store _ _ (by simp)⟩
  · simp only [State.setUnitOut, State.withHeader, hcb, hchk]
  · have h := load_store_inside s.cb 0 (makeHeader t a e lab) (i := 5) (n := 16) (by simp)
    rwa [Nat.zero_add, take_drop_makeHeader_label] at h
  · have h := read_store_inside s.cb 0 _ (getElem?_makeHeader_padding t a e lab hi)
    rwa [Nat.zero_add] at h

end Sys2Proof.Machine

/-! The regions of the tape (R73, R74, R76): each is a list of pieces, and a piece stands where the lengths of those
before it add up to. -/

namespace Sys2Proof.Machine

open Sys2Proof

/-- A piece of a concatenation stands behind the pieces before it. -/
theorem take_drop_flatten {α : Type} {pieces : List (List α)} {piece : List α} {lens : List Nat} {o n : Nat}
    (hlens : pieces.map List.length = lens) (i : Nat) (hpiece : pieces[i]? = some piece) (hn : lens[i]? = some n)
    (ho : (lens.take i).sum = o) : (pieces.flatten.drop o).take n = piece := by
  subst hlens ho
  rw [List.getElem?_map, hpiece, Option.map_some, Option.some_inj] at hn
  subst hn
  induction pieces generalizing i with
  | nil => cases hpiece
  | cons p ps ih =>
    cases i with
    | zero =>
      obtain rfl := Option.some.inj hpiece
      exact List.take_left
    | succ i =>
      rw [List.map_cons, List.take_succ_cons, List.sum_cons, List.flatten_cons, List.drop_length_add_append]
      exact ih i hpiece

/-- The pieces between the two recording markers of a file's region (R73). -/
def headerPieces (header : List Byte) : List (List Byte) :=
  [tone leader1Len, syncPrimary, encodeBytes header, eobMarker, tone gapALen, syncRepeat, encodeBytes header, eobMarker,
    tone gapBLen]

/-- The pieces after the second recording marker of a file's region (R73). -/
def dataPieces (d : List Byte) : List (List Byte) :=
  [tone leader2Len, syncPrimary, encodeDataBlock d, eobMarker, tone gapALen, syncRepeat, encodeDataBlock d, eobMarker,
    tone trailerLen]

/-- The twenty pieces of a file's region (R73). -/
def filePieces (header d : List Byte) : List (List Byte) :=
  recMark :: headerPieces header ++ recMark :: dataPieces d

/-- The ten pieces of the end-of-tape region (R74). -/
def eotPieces (header : List Byte) : List (List Byte) :=
  [syncPrimary, encodeBytes header, eobMarker, tone gapALen, syncRepeat, encodeBytes header, eobMarker, eobMarker,
    tone gapALen, tone trailerLen]

theorem flatten_filePieces (header d : List Byte) : (filePieces header d).flatten = fileRegion header d := by
  unfold filePieces headerPieces dataPieces fileRegion
  generalize tone leader1Len = l1, tone leader2Len = l2, tone gapALen = a, tone gapBLen = b, tone trailerLen = c
  simp only [List.flatten_append, List.flatten_cons, List.flatten_nil, List.append_nil, List.append_assoc]

theorem flatten_eotPieces (header : List Byte) : (eotPieces header).flatten = eotRegion header := by
  simp only [eotPieces, eotRegion, List.flatten_cons, List.flatten_nil, List.append_nil, List.append_assoc]

/-- The lengths of the pieces of a file's region, n program bytes (R73). -/
def fileLens (n : Nat) : List Nat :=
  [4, 27136, 180, 3840, 2, 79, 180, 3840, 2, 78, 4, 5376, 180, 20 * (n + 1), 2, 79, 180, 20 * (n + 1), 2, 904]

/-- The lengths of the pieces of the end-of-tape region (R74). -/
def eotLens : List Nat := [180, 3840, 2, 79, 180, 3840, 2, 2, 79, 904]

theorem length_filePieces {header : List Byte} (d : List Byte) (h : header.length = 192) :
    (filePieces header d).map List.length = fileLens d.length := by
  obtain ⟨h1, h2, h3, h4, h5⟩ := length_tones
  simp only [filePieces, headerPieces, dataPieces, List.cons_append, List.nil_append, List.map_cons, List.map_nil,
    length_tone, length_syncPrimary, length_syncRepeat, length_encodeBytes, length_encodeDataBlock, length_recMark,
    length_eobMarker]
  rw [h1, h2, h3, h4, h5, h, fileLens]

theorem length_eotPieces {header : List Byte} (h : header.length = 192) :
    (eotPieces header).map List.length = eotLens := by
  obtain ⟨-, -, h3, -, h5⟩ := length_tones
  simp only [eotPieces, List.map_cons, List.map_nil, length_tone, length_syncPrimary, length_syncRepeat,
    length_encodeBytes, length_eobMarker]
  rw [h3, h5, h, eotLens]

/-- Where a piece of a file's region stands (R73). -/
theorem take_drop_fileRegion {header d piece : List Byte} {o n : Nat} (h : header.length = 192) (i : Nat)
    (hpiece : (filePieces header d)[i]? = some piece) (hn : (fileLens d.length)[i]? = some n)
    (ho : ((fileLens d.length).take i).sum = o) : ((fileRegion header d).drop o).take n = piece :=
  flatten_filePieces header d ▸ take_drop_flatten (length_filePieces d h) i hpiece hn ho

/-- Where a piece of the end-of-tape region stands (R74). -/
theorem take_drop_eotRegion {header piece : List Byte} {o n : Nat} (h : header.length = 192) (i : Nat)
    (hpiece : (eotPieces header)[i]? = some piece) (hn : eotLens[i]? = some n) (ho : (eotLens.take i).sum = o) :
    ((eotRegion header).drop o).take n = piece :=
  flatten_eotPieces header ▸ take_drop_flatten (length_eotPieces h) i hpiece hn ho

/-- The tones as R73 and R74 write them (R66). -/
theorem tones_eq : tone leader1Len = List.replicate 27136 0x30 ∧ tone leader2Len = List.replicate 5376 0x30 ∧
    tone gapALen = List.replicate 79 0x30 ∧ tone gapBLen = List.replicate 78 0x30 ∧
    tone trailerLen = List.replicate 904 0x30 := by
  obtain ⟨h1, h2, h3, h4, h5⟩ := length_tones
  simp only [tone, pShort, h1, h2, h3, h4, h5, and_self]

/-- A file's control block with the two addresses of R72. -/
theorem fileHeader_eq (dispName raw : List Byte) : fileHeader dispName raw =
    makeHeader 3 (loadAddr raw) (endAddrOf (loadAddr raw) (raw.length - 2)) (stem dispName) := by
  rw [fileHeader, length_programOf]
  rfl

/-- Settles O16. The offsets are the sums of the lengths before them. -/
theorem fileRegionLayout : Obligations.FileRegionLayout := by
  intro dispName raw region h
  obtain ⟨-, rfl⟩ := encodeFile_eq_some_iff.mp h
  have hend := toNat_endAddrOf (loadAddr raw) (raw.length - 2)
  rw [toNat_loadAddr] at hend
  have hh := length_fileHeader dispName raw
  obtain ⟨t1, t2, t3, t4, t5⟩ := tones_eq
  rw [← fileHeader_eq, ← length_programOf, ← t1, ← t2, ← t3, ← t4, ← t5]
  rw [← length_programOf] at hend
  refine ⟨toNat_loadAddr raw, hend, take_drop_fileRegion hh 0 rfl rfl ?_, take_drop_fileRegion hh 1 rfl rfl ?_,
    take_drop_fileRegion hh 2 rfl rfl ?_, take_drop_fileRegion hh 3 rfl rfl ?_, take_drop_fileRegion hh 4 rfl rfl ?_,
    take_drop_fileRegion hh 5 rfl rfl ?_, take_drop_fileRegion hh 6 rfl rfl ?_, take_drop_fileRegion hh 7 rfl rfl ?_,
    take_drop_fileRegion hh 8 rfl rfl ?_, take_drop_fileRegion hh 9 rfl rfl ?_, take_drop_fileRegion hh 10 rfl rfl ?_,
    take_drop_fileRegion hh 11 rfl rfl ?_, take_drop_fileRegion hh 12 rfl rfl ?_,
    take_drop_fileRegion hh 13 rfl rfl ?_, take_drop_fileRegion hh 14 rfl rfl ?_,
    take_drop_fileRegion hh 15 rfl rfl ?_, take_drop_fileRegion hh 16 rfl rfl ?_,
    take_drop_fileRegion hh 17 rfl rfl ?_, take_drop_fileRegion hh 18 rfl rfl ?_,
    take_drop_fileRegion hh 19 rfl rfl ?_⟩
  all_goals simp +arith only [fileLens, List.take_succ_cons, List.take_zero, List.sum_cons, List.sum_nil]

/-- A pulse code (R60). -/
def IsPulse (b : Byte) : Prop := b = 0x30 ∨ b = 0x42 ∨ b = 0x56

theorem isPulse_tone (k : Half) : ∀ b ∈ tone k, IsPulse b :=
  fun _ hb => .inl (List.eq_of_mem_replicate hb)

theorem isPulse_encodeBit (bit : Bool) : ∀ b ∈ encodeBit bit, IsPulse b := by
  cases bit <;> simp [encodeBit, IsPulse, pShort, pMedium]

theorem isPulse_eobMarker : ∀ b ∈ eobMarker, IsPulse b := by
  simp [eobMarker, IsPulse, pShort, pLong]

theorem isPulse_byteMarker : ∀ b ∈ byteMarker, IsPulse b := by
  simp [byteMarker, IsPulse, pMedium, pLong]

/-- A frame is its marker and pairs of pulses (R112). -/
theorem isPulse_encodeByte (c : Byte) : ∀ b ∈ encodeByte c, IsPulse b := by
  intro b hb
  rw [encodeByte_eq, List.mem_append, List.mem_flatMap] at hb
  rcases hb with hb | ⟨j, -, hb⟩
  · exact isPulse_byteMarker b hb
  · exact isPulse_encodeBit _ b hb

theorem isPulse_encodeBytes (bytes : List Byte) : ∀ b ∈ encodeBytes bytes, IsPulse b := by
  intro b hb
  obtain ⟨c, -, hb⟩ := List.mem_flatMap.mp hb
  exact isPulse_encodeByte c b hb

/-- The pieces of a file's region are pulses but for the two recording markers (R76). -/
theorem isPulse_headerPieces (header : List Byte) : ∀ b ∈ (headerPieces header).flatten, IsPulse b := by
  simp only [headerPieces, List.flatten_cons, List.flatten_nil, List.append_nil, List.forall_mem_append]
  exact ⟨isPulse_tone _, isPulse_encodeBytes _, isPulse_encodeBytes _, isPulse_eobMarker, isPulse_tone _,
    isPulse_encodeBytes _, isPulse_encodeBytes _, isPulse_eobMarker, isPulse_tone _⟩

theorem isPulse_dataPieces (d : List Byte) : ∀ b ∈ (dataPieces d).flatten, IsPulse b := by
  simp only [dataPieces, List.flatten_cons, List.flatten_nil, List.append_nil, List.forall_mem_append]
  exact ⟨isPulse_tone _, isPulse_encodeBytes _, isPulse_encodeBytes _, isPulse_eobMarker, isPulse_tone _,
    isPulse_encodeBytes _, isPulse_encodeBytes _, isPulse_eobMarker, isPulse_tone _⟩

theorem isPulse_eotRegion (header : List Byte) : ∀ b ∈ eotRegion header, IsPulse b := by
  simp only [eotRegion, List.forall_mem_append]
  exact ⟨⟨⟨⟨⟨⟨⟨⟨⟨isPulse_encodeBytes _, isPulse_encodeBytes _⟩, isPulse_eobMarker⟩, isPulse_tone _⟩,
    isPulse_encodeBytes _⟩, isPulse_encodeBytes _⟩, isPulse_eobMarker⟩, isPulse_eobMarker⟩, isPulse_tone _⟩,
    isPulse_tone _⟩

/-- Behind a recording marker that pulses follow stands a pulse. -/
theorem isPulse_of_recMark {pulses : List Byte} (h : ∀ b ∈ pulses, IsPulse b) {k : Nat} {b : Byte} (hk : 4 ≤ k)
    (hb : (recMark ++ pulses)[k]? = some b) : IsPulse b := by
  rw [List.getElem?_append_right hk] at hb
  exact h b (List.mem_of_getElem? hb)

/-- The two halves of a file's region, each led by a recording marker (R73). -/
theorem fileRegion_halves (header d : List Byte) : fileRegion header d =
    (recMark ++ (headerPieces header).flatten) ++ (recMark ++ (dataPieces d).flatten) := by
  rw [← flatten_filePieces, filePieces, List.flatten_append, List.flatten_cons, List.flatten_cons]

/-- The second recording marker stands at offset 35341 (R73). -/
theorem length_firstHalf {header : List Byte} (h : header.length = 192) :
    (recMark ++ (headerPieces header).flatten).length = 35341 := by
  have hlens := congrArg (fun lens : List Nat => (lens.take 10).sum) (length_filePieces [] h)
  rw [← List.flatten_cons, List.length_flatten]
  exact hlens

/-- Settles O17. A file's region is two halves, each a recording marker and pulses. -/
theorem payloadAlphabet : Obligations.PayloadAlphabet := by
  refine ⟨fun dispName raw region h k hk hfirst hsecond => ?_, isPulse_eotRegion _⟩
  obtain ⟨-, rfl⟩ := encodeFile_eq_some_iff.mp h
  have hlen := length_firstHalf (length_fileHeader dispName raw)
  have hb := List.getElem?_eq_getElem hk
  generalize (fileRegion (fileHeader dispName raw) (programOf raw))[k] = b at hb
  rw [fileRegion_halves] at hb
  rcases Nat.lt_or_ge k 35341 with hlt | hge
  · rw [List.getElem?_append_left (hlen ▸ hlt)] at hb
    exact isPulse_of_recMark (isPulse_headerPieces _) (by omega) hb
  · rw [List.getElem?_append_right (hlen ▸ hge), hlen] at hb
    exact isPulse_of_recMark (isPulse_dataPieces _) (by omega) hb

end Sys2Proof.Machine

/-! ENCODE_FILE, ENCODE_EOT, ENCODE_TAPE and WRITE_CONTAINER as instructions (R165, R170, R172, R180). -/

namespace Sys2Proof.Machine

open Sys2Proof

/-- The repeat sync sequence comes last, so its last byte is in the registers (R165, assumption 20). -/
theorem framed_syncRepeatBytes (s : State) : s.framed syncRepeatBytes = { s with
    cur := 0x01, bix := 8, par := parityBit 0x01, half := Config.halfAfterFrame 0x01 } :=
  framed_of_getLast? s rfl

/-- What ENCODE_FILE leaves besides its output (R165, assumption 20). -/
theorem filed_eq (s : State) (dispName raw : List Byte) : s.filed dispName raw = { s with
    cb := s.cb.store 0 (fileHeader dispName raw), chk := xorsum (programOf raw)
    cur := 0x01, bix := 8, par := parityBit 0x01, half := Config.halfAfterFrame 0x01 } := by
  rw [State.filed, framed_syncRepeatBytes]
  rfl

/-- What ENCODE_EOT leaves besides its output (R170, assumption 20). -/
theorem ended_eq (s : State) : s.ended = { s with
    cb := s.cb.store 0 eotHeader, chk := 0x05
    cur := 0x01, bix := 8, par := parityBit 0x01, half := Config.halfAfterFrame 0x01 } := by
  rw [State.ended, framed_syncRepeatBytes]
  simp only [State.withHeader, xorsum_eotBody, eotHeader]

/-- A control block is 192 bytes, so a load of CB[0..191] is it (R70). -/
theorem load_store_header (m : Memory) {header : List Byte} (h : header.length = 192) :
    (m.store 0 header).load 0 192 = header :=
  h ▸ load_store_self m 0 header

/-- Buffers that load the same bytes read the same bytes (R41). -/
theorem read_of_load_eq {m m' : Memory} {a n : Nat} (h : m.load a n = m'.load a n) {i : Nat} (hi : i < n) :
    m.read (a + i) = m'.read (a + i) := by
  have hget := congrArg (fun vs : List Byte => vs.getD i 0) h
  simpa [List.getD_eq_getElem, getElem_load, length_load, hi] using hget

/-- The address fields of a file's control block in CB, in plain arithmetic (R42, R72). -/
theorem addresses_of_load {m : Memory} {t : Byte} {raw lab : List Byte} {n : Nat}
    (h : m.load 0 192 = makeHeader t (loadAddr raw) (endAddrOf (loadAddr raw) n) lab) :
    m.read 1 = raw.getD 0 0 ∧ m.read 2 = raw.getD 1 0 ∧
      (m.read 3).toNat + 256 * (m.read 4).toNat =
        ((raw.getD 0 0).toNat + 256 * (raw.getD 1 0).toNat + n + 1) % 65536 := by
  obtain ⟨hlo, hhi⟩ := byteOf_loadAddr raw
  have hstored := h.trans (load_store_header m (length_makeHeader ..)).symm
  obtain ⟨h1, h2, h3, h4⟩ := read_store_makeHeader m t (loadAddr raw) (endAddrOf (loadAddr raw) n) lab
  have r1 := read_of_load_eq hstored (i := 1) (by decide)
  have r2 := read_of_load_eq hstored (i := 2) (by decide)
  have r3 := read_of_load_eq hstored (i := 3) (by decide)
  have r4 := read_of_load_eq hstored (i := 4) (by decide)
  simp only [Nat.zero_add] at r1 r2 r3 r4
  refine ⟨r1.trans (h1.trans hlo), r2.trans (h2.trans hhi), ?_⟩
  rw [r3, r4, h3, h4, toNat_le16, toNat_endAddrOf, toNat_loadAddr]

/-- Settles O13. MAKE_HEADER's block is what CB holds, and its address fields are those of R72. -/
theorem encodeFileCompletes : Obligations.EncodeFileCompletes := by
  intro s dispName raw hlen
  have hregion := encodeFile_of_le dispName raw hlen
  have hexec : exec (.encodeFile dispName raw) s = execEncodeFile dispName raw s := rfl
  have hload := (load_store_header s.cb (length_fileHeader dispName raw)).trans (fileHeader_eq dispName raw)
  obtain ⟨hread1, hread2, hend⟩ := addresses_of_load hload
  rw [hexec, execEncodeFile, hregion]
  refine ⟨_, _, rfl, rfl, ?_⟩
  rw [filed_eq]
  exact ⟨rfl, hload, hread1, hread2, hend, sameOutside_store _ _ (length_fileHeader _ _)⟩

/-- Settles O14. The exception is taken on cleared staging. -/
theorem encodeFileMalformed : Obligations.EncodeFileMalformed := by
  intro s dispName raw hlen
  have hnone := encodeFile_of_lt dispName raw hlen
  have hexec : exec (.encodeFile dispName raw) s = execEncodeFile dispName raw s := rfl
  refine ⟨hnone, ?_⟩
  rw [hexec, execEncodeFile, hnone, raise_eMalformed]
  rfl

/-- Settles O18. The offsets are the sums of the lengths before them. -/
theorem encodeEotCompletes : Obligations.EncodeEotCompletes := by
  intro s
  have hh : eotHeader.length = 192 := length_makeHeader ..
  have hcb := load_store_header s.cb hh
  obtain ⟨-, -, t3, -, t5⟩ := tones_eq
  refine ⟨_, rfl, rfl, ?_⟩
  rw [ended_eq, ← t3, ← t5]
  refine ⟨rfl, hcb.trans eotHeader_eq, sameOutside_store _ _ hh, length_encodeEot, ?_⟩
  simp only [State.setUnitOut, hcb]
  refine ⟨take_drop_eotRegion hh 0 rfl rfl ?_, take_drop_eotRegion hh 1 rfl rfl ?_,
    take_drop_eotRegion hh 2 rfl rfl ?_, take_drop_eotRegion hh 3 rfl rfl ?_, take_drop_eotRegion hh 4 rfl rfl ?_,
    take_drop_eotRegion hh 5 rfl rfl ?_, take_drop_eotRegion hh 6 rfl rfl ?_, take_drop_eotRegion hh 7 rfl rfl ?_,
    take_drop_eotRegion hh 8 rfl rfl ?_, take_drop_eotRegion hh 9 rfl rfl ?_⟩
  all_goals simp +arith only [eotLens, List.take_succ_cons, List.take_zero, List.sum_cons, List.sum_nil]

/-- The regions of the files that do not raise, one after another (R172). -/
theorem encodeFiles_eq (files : List (List Byte × List Byte)) :
    encodeFiles files = (files.filterMap (fun f => encodeFile f.1 f.2)).flatten := by
  induction files with
  | nil => rfl
  | cons f fs ih =>
    rw [encodeFiles, List.flatMap_cons, ← encodeFiles, ih]
    cases hf : encodeFile f.1 f.2 with
    | none => simp only [List.filterMap_cons, hf, Option.getD_none, List.nil_append]
    | some region => simp only [List.filterMap_cons, hf, Option.getD_some, List.flatten_cons]

/-- The length of the regions of the files that do not raise (R75, R166). -/
theorem length_encodeFiles (files : List (List Byte × List Byte)) : (encodeFiles files).length =
    ((files.filter (fun f => 2 ≤ f.2.length)).map (fun f => 42108 + 40 * (f.2.length - 2))).sum := by
  induction files with
  | nil => rfl
  | cons f fs ih =>
    rw [encodeFiles, List.flatMap_cons, ← encodeFiles, List.length_append, ih]
    rcases Nat.lt_or_ge f.2.length 2 with hlt | hle
    · rw [encodeFile_of_lt _ _ hlt, List.filter_cons_of_neg (by simpa using hlt), Option.getD_none, List.length_nil,
        Nat.zero_add]
    · obtain ⟨region, hregion⟩ : ∃ region, encodeFile f.1 f.2 = some region := ⟨_, encodeFile_of_le _ _ hle⟩
      rw [hregion, List.filter_cons_of_pos (by simpa using hle), Option.getD_some, List.map_cons, List.sum_cons,
        length_of_encodeFile hregion, fileRegionLen]
      omega

/-- Writes one after another leave the same bytes alone (R41). -/
theorem SameOutside.trans {m m' m'' : Memory} {a n : Nat} (h : SameOutside m m' a n) (k : SameOutside m' m'' a n) :
    SameOutside m m'' a n :=
  fun b hb => (k b hb).trans (h b hb)

/-- ENCODE_TAPE's files write CB[0..191] only (R172). -/
theorem sameOutside_foldl_filed (files : List (List Byte × List Byte)) (s : State) : SameOutside s.cb
    (files.foldl (fun t f => if f.2.length < 2 then t else t.filed f.1 f.2) s).cb 0 192 := by
  induction files generalizing s with
  | nil => exact fun _ _ => rfl
  | cons f fs ih =>
    rw [List.foldl_cons]
    split
    case isTrue => exact ih s
    case isFalse =>
      refine SameOutside.trans ?_ (ih _)
      rw [filed_eq]
      exact sameOutside_store _ _ (length_fileHeader _ _)

/-- What ENCODE_TAPE leaves besides its output: what its ENCODE_EOT leaves (R172, assumption 20). -/
theorem taped_eq (s : State) (files : List (List Byte × List Byte)) : s.taped files = { s with
    cb := (s.taped files).cb, chk := 0x05
    cur := 0x01, bix := 8, par := parityBit 0x01, half := Config.halfAfterFrame 0x01 } := by
  have hframe := (taped_frame files s).1
  rw [State.taped, ended_eq] at hframe ⊢
  exact hframe

/-- Settles O19. Each file that does not raise adds its region; the last control block written is ENCODE_EOT's. -/
theorem encodeTapeCompletes : Obligations.EncodeTapeCompletes := by
  intro s files
  have hh : eotHeader.length = 192 := length_makeHeader ..
  have hlen : (encodeTape files).length =
      ((files.filter (fun f => 2 ≤ f.2.length)).map (fun f => 42108 + 40 * (f.2.length - 2))).sum + 9108 := by
    rw [encodeTape, List.length_append, length_encodeFiles, length_encodeEot, eotRegionLen]
  have hout : encodeTape files = (files.filterMap (fun f => encodeFile f.1 f.2)).flatten ++ encodeEot := by
    rw [encodeTape, encodeFiles_eq]
  have hcb : (s.taped files).cb =
      (files.foldl (fun t f => if f.2.length < 2 then t else t.filed f.1 f.2) s).cb.store 0 eotHeader := by
    rw [State.taped, ended_eq]
  refine ⟨_, rfl, hout, hlen, congrArg (State.setUnitOut · _) (taped_eq s files), ?_, ?_⟩
  · rw [State.setUnitOut, hcb, load_store_header _ hh, eotHeader_eq]
  · rw [State.setUnitOut, hcb]
    exact (sameOutside_foldl_filed files s).trans (sameOutside_store _ _ hh)

/-- The four bytes of a u32, the least significant first (R42). -/
theorem toNat_le32 {n : Nat} (h : n ≤ 2 ^ 32 - 1) :
    (byteOf n 0).toNat + 256 * (byteOf n 1).toNat + 65536 * (byteOf n 2).toNat + 16777216 * (byteOf n 3).toNat = n := by
  simp only [toNat_byteOf]
  omega

/-- Settles O20. The header is 20 bytes, the last four of them the payload's length. -/
theorem writeContainerCompletes : Obligations.WriteContainerCompletes := by
  intro s payload hlen
  have hdrop : (writeContainer payload).drop 20 = payload := List.drop_left' (length_containerHeader _)
  have htake : (writeContainer payload).take 20 = containerHeader payload.length :=
    List.take_left' (length_containerHeader _)
  refine ⟨_, rfl, ?_, rfl, ?_, hdrop⟩
  · simp only [State.setUnitOut, State.contained, htake]
  · simp only [State.setUnitOut, State.contained, hdrop]
    exact toNat_le32 hlen

end Sys2Proof.Machine

/-! The pop (R203) and the micro-operations (R146 to R153). -/

namespace Sys2Proof.Machine

open Sys2Proof

theorem exec_pop (s : State) : exec .pop s = if s.outValid then .next s.popped else .next s := rfl

/-- Settles O21. A pop is enabled where a byte waits and nothing executes. -/
theorem popCompletes : Obligations.PopCompletes := by
  intro s
  rw [exec_pop]
  refine ⟨fun b rest hout hcmd huw => ?_, fun h => ?_⟩
  · have hvalid : s.outValid = true := by simp [State.outValid, State.executing, hout, hcmd, huw]
    rw [if_pos hvalid]
    cases rest <;> simp [State.popped, State.outData, State.outLast, hout]
  · have hvalid : ¬ s.outValid = true := by
      simp only [State.outValid, State.executing]
      rcases h with h | h | h
      · simp [h]
      · simp [Option.isSome_iff_ne_none.mpr h]
      · simp [Option.isSome_iff_ne_none.mpr h]
    rw [if_neg hvalid]

/-- One pop through the port (R203, R204). -/
theorem step_takeByte {s : State} {b : Byte} {bs : List Byte} {rest : List PortEvent} (hout : s.out = b :: bs)
    (hcmd : s.cmd = none) (huw : s.uw = none) (hev : s.host.events = .takeByte :: rest) :
    step s = .next { s with
      out := bs
      host := { s.host with events := rest, received := s.host.received ++ [(b, decide (bs = []))] } } := by
  rw [step, agenda_of_events_cons hev (by simp) huw hcmd, dropEvent_of_cons hev]
  exact (popCompletes _).1 b bs hout hcmd huw

/-- Settles O22, by induction on the bytes before the last. -/
theorem popsDeliverTheContainer : Obligations.PopsDeliverTheContainer := by
  intro s front last rest hout hcmd huw hev
  induction front generalizing s with
  | nil =>
    rw [List.length_nil, run_succ 0 (step_takeByte hout hcmd huw hev), run_zero]
    simp
  | cons b front ih =>
    obtain ⟨t, ht, hstep⟩ : ∃ t, t = { s with
        out := front ++ [last]
        host := { s.host with
          events := List.replicate (front.length + 1) .takeByte ++ rest
          received := s.host.received ++ [(b, decide (front ++ [last] = []))] } } ∧ step s = .next t :=
      ⟨_, rfl, step_takeByte hout hcmd huw (by rw [hev, List.length_cons, List.replicate_succ, List.cons_append])⟩
    rw [List.length_cons, run_succ _ hstep, ih t (by rw [ht]) (by rw [ht]; exact hcmd) (by rw [ht]; exact huw)
      (by rw [ht])]
    simp [ht]

/-- UPC after a micro-operation (R22, assumption 9). -/
theorem upcNext_spec (a : BitVec 5) : (a ≠ 31 → upcNext a = a + 1) ∧ (a = 31 → upcNext a = Config.upcAfterLast) :=
  ⟨fun h => if_neg h, fun h => if_pos h⟩

/-- m is PAY of s with vs written at its end, n bytes, and no other byte changed (R16, R17). -/
structure Appended (s : State) (m : Memory) (vs : List Byte) (n : Nat) : Prop where
  payload : m.load 0 (s.payLen + n) = s.payload ++ vs
  outside : SameOutside s.pay m s.payLen n

/-- What emit_seq leaves where its bytes fit, also where there are none (R17). -/
theorem emitSeq_appended {vs : List Byte} {s : State} {n : Nat} (hlen : vs.length = n)
    (h : s.payLen + n ≤ s.cfg.payMax) :
    ∃ m, emitSeq vs s = .next { s with pay := m, payLen := s.payLen + n } ∧ Appended s m vs n := by
  subst hlen
  cases vs with
  | nil => exact ⟨s.pay, rfl, (List.append_nil _).symm, fun _ _ => rfl⟩
  | cons v vs =>
    exact ⟨_, emitSeq_of_fits _ s (by simp) h, payload_appended s (v :: vs), sameOutside_store _ _ rfl⟩

/-- What emitting the frames of a byte sequence leaves where they fit (R112, R113, R17). -/
theorem emitFrames_appended {bs : List Byte} {last : Byte} {s : State} {n : Nat}
    (hlen : (encodeBytes bs).length = n) (hlast : bs.getLast? = some last) (h : s.payLen + n ≤ s.cfg.payMax) :
    ∃ m, emitFrames bs s = .next { s with
        pay := m, payLen := s.payLen + n, cur := last, bix := 8, par := parityBit last
        half := Config.halfAfterFrame last } ∧ Appended s m (encodeBytes bs) n := by
  obtain ⟨m, hm, happ⟩ := emitSeq_appended hlen h
  refine ⟨m, ?_, happ⟩
  rw [emitFrames, hm, andThen_next, framed_of_getLast? _ hlast]

end Sys2Proof.Machine

/-! What each micro-operation does where its bytes fit below PAY_MAX, and where they do not (R17, R147 to R153). -/

namespace Sys2Proof.Machine

open Sys2Proof

/-! ### The micro-operations' meanings -/

theorem exec_uRaw4 (s : State) : exec .uRaw4 s = andThen (emitSeq recMark s) (fun t => .next t.nextUop) := rfl

theorem exec_uEob (s : State) : exec .uEob s = andThen (emitSeq eobMarker s) (fun t => .next t.nextUop) := rfl

theorem exec_uTone (k : Half) (s : State) : exec (.uTone k) s =
    andThen (emitSeq (List.replicate k.toNat pShort) s) (fun t => .next t.counted.nextUop) := rfl

theorem exec_uSync (base : Half) (s : State) : exec (.uSync base) s =
    andThen (emitFrames (syncBytes base) s) (fun t => .next ((t.synced base).counted.nextUop)) := rfl

theorem exec_uHdr (s : State) :
    exec .uHdr s = andThen (emitFrames (s.cb.load 0 cbLen) s) (fun t => .next t.counted.nextUop) := rfl

/-- DATA where IMGLEN is within IMG (R152). -/
theorem exec_uData {s : State} (h : s.imgLen ≤ s.cfg.imgMax) : exec .uData s =
    andThen (emitFrames (dataBlock s.stagedProgram) (s.summed s.stagedProgram)) (fun t => .next t.counted.nextUop) :=
  if_pos h

/-! ### The bytes fit -/

/-- Settles O23. The marker fits, so it is appended. -/
theorem markersComplete : Obligations.MarkersComplete := by
  refine ⟨fun s h => ?_, fun s h => ?_⟩
  · obtain ⟨m, hm, happ⟩ := emitSeq_appended length_recMark h
    rw [exec_uRaw4, hm, andThen_next]
    exact ⟨_, rfl, rfl, happ.payload, happ.outside, upcNext_spec s.upc⟩
  · obtain ⟨m, hm, happ⟩ := emitSeq_appended length_eobMarker h
    rw [exec_uEob, hm, andThen_next]
    exact ⟨_, rfl, rfl, happ.payload, happ.outside, upcNext_spec s.upc⟩

/-- Settles O24. The tone fits, so it is appended, also where it is empty. -/
theorem toneCompletes : Obligations.ToneCompletes := by
  intro s k h
  obtain ⟨m, hm, happ⟩ := emitSeq_appended (vs := List.replicate k.toNat pShort) List.length_replicate h
  rw [exec_uTone, hm, andThen_next]
  exact ⟨_, rfl, rfl, happ.payload, happ.outside, upcNext_spec s.upc⟩

/-- The sync bytes where R150's arithmetic fits. -/
theorem syncBytes_of_fits {base : Half} (h : base.toNat % 256 + 9 < 256) :
    syncBytes base = (List.range 9).map (fun i => BitVec.ofNat 8 (base.toNat % 256 + 9 - i)) := by
  have hb : (base.extractLsb' 0 8).toNat = base.toNat % 256 := by
    rw [BitVec.extractLsb'_toNat, Nat.shiftRight_zero]
  unfold syncBytes
  refine List.map_congr_left fun i hi => ?_
  have hi := List.mem_range.mp hi
  rw [hb, if_pos h]
  apply BitVec.eq_of_toNat_eq
  have h9 : (9 : Byte).toNat = 9 := rfl
  rw [BitVec.toNat_sub, BitVec.toNat_add, BitVec.toNat_ofNat, BitVec.toNat_ofNat, hb, h9]
  omega

/-- SYNCV at the end of SYNC where R150's arithmetic fits. -/
theorem syncLast_of_fits {base : Half} (h : base.toNat % 256 + 9 < 256) :
    syncLast base = BitVec.ofNat 8 (base.toNat % 256) := by
  have hb : (base.extractLsb' 0 8).toNat = base.toNat % 256 := by
    rw [BitVec.extractLsb'_toNat, Nat.shiftRight_zero]
  have hofNat := eq_ofNat_of_toNat hb
  unfold syncLast
  dsimp only
  rw [hb, if_pos h, hofNat]

/-- The last sync byte where R150's arithmetic fits. -/
theorem getLast?_syncBytes_of_fits {base : Half} (h : base.toNat % 256 + 9 < 256) :
    (syncBytes base).getLast? = some (BitVec.ofNat 8 (base.toNat % 256 + 1)) := by
  rw [syncBytes_of_fits h]
  rfl

/-- Settles O25. The nine frames fit; the last of them is in the registers. -/
theorem syncCompletes : Obligations.SyncCompletes := by
  intro s base h
  obtain ⟨last, hlast⟩ : ∃ last, (syncBytes base).getLast? = some last :=
    ⟨_, List.getLast?_eq_some_getLast (by simp [syncBytes])⟩
  have hlen : (encodeBytes (syncBytes base)).length = 180 := by rw [length_encodeBytes, length_syncBytes]
  obtain ⟨m, hm, happ⟩ := emitFrames_appended hlen hlast h
  rw [exec_uSync, hm, andThen_next]
  refine ⟨_, rfl, rfl, happ.outside, ?_, ?_, ?_, fun hfits => ⟨?_, syncLast_of_fits hfits, ?_⟩, upcNext_spec s.upc⟩
  · have hgrown := congrArg List.length happ.payload
    rwa [List.length_append, hlen] at hgrown
  · rintro rfl
    exact happ.payload
  · rintro rfl
    exact happ.payload
  · rw [← syncBytes_of_fits hfits]
    exact happ.payload
  · exact Option.some.inj (hlast.symm.trans (getLast?_syncBytes_of_fits hfits))

/-- The last byte of a load (R41). -/
theorem getLast?_load (m : Memory) (a n : Nat) : (m.load a (n + 1)).getLast? = some (m.read (a + n)) := by
  rw [Memory.load, List.range_succ, List.map_append]
  exact List.getLast?_concat

/-- Settles O26. The frames of CB fit; the last byte is CB[191]. -/
theorem hdrCompletes : Obligations.HdrCompletes := by
  intro s h
  have hlast : (s.cb.load 0 cbLen).getLast? = some (s.cb.read 191) := by
    rw [cbLen, getLast?_load, Nat.zero_add]
  have hlen : (encodeBytes (s.cb.load 0 cbLen)).length = 3840 := by rw [length_encodeBytes, length_load, cbLen]
  obtain ⟨m, hm, happ⟩ := emitFrames_appended hlen hlast h
  rw [exec_uHdr, hm, andThen_next]
  exact ⟨_, rfl, rfl, happ.payload, happ.outside, upcNext_spec s.upc⟩

/-- Settles O27. The frames of the data block fit; the last byte is the checksum. -/
theorem dataMicroOpCompletes : Obligations.DataMicroOpCompletes := by
  intro s _ himg h
  have hlen : (encodeBytes (dataBlock s.stagedProgram)).length = 20 * ((s.imgLen - 2) + 1) := by
    rw [length_encodeBytes, length_dataBlock, length_stagedProgram]
  obtain ⟨m, hm, happ⟩ := emitFrames_appended (s := s.summed s.stagedProgram) hlen (getLast?_dataBlock _) h
  obtain ⟨hpayload, houtside⟩ := happ
  rw [← encodeDataBlock, encodeDataBlock_eq, ← List.append_assoc] at hpayload
  rw [exec_uData himg, hm, andThen_next]
  refine ⟨_, rfl, ?_, hpayload, houtside, upcNext_spec s.upc⟩
  simp only [State.summed, State.counted, State.nextUop, State.stagedProgram]

/-- Settles O28. Without a fetched word the sequencer's run is over. -/
theorem endStopsTheSequencer : Obligations.EndStopsTheSequencer := fun _ => ⟨rfl, fun _ => rfl⟩

/-! ### The bytes do not fit -/

/-- Frames that do not fit are not emitted (R17). -/
theorem emitFrames_of_full {bs : List Byte} {s : State} (hb : bs ≠ [])
    (h : s.cfg.payMax < s.payLen + 20 * bs.length) : emitFrames bs s = .fault .payOutside := by
  have hne : encodeBytes bs ≠ [] := by
    rw [← List.length_pos_iff] at hb ⊢
    rw [length_encodeBytes]
    omega
  rw [emitFrames, emitSeq_of_full _ _ hne (by rwa [length_encodeBytes]), andThen_fault]

/-- Settles O29. Each operation emits some byte, and emit_seq faults as a whole. -/
theorem emittingPastPayStops : Obligations.EmittingPastPayStops := by
  intro s k base
  refine ⟨fun h => ?_, fun h => ?_, fun hk h => ?_, fun h => ?_, fun h => ?_, fun himg h => ?_⟩
  · rw [exec_uRaw4, emitSeq_of_full _ _ (by simp [recMark]) h, andThen_fault]
  · rw [exec_uEob, emitSeq_of_full _ _ (by simp [eobMarker]) h, andThen_fault]
  · have hk' : k.toNat ≠ 0 := fun h0 => hk (BitVec.eq_of_toNat_eq h0)
    rw [exec_uTone, emitSeq_of_full _ _ (by simpa [List.replicate_eq_nil_iff] using hk')
      (by rwa [List.length_replicate]), andThen_fault]
  · rw [exec_uSync, emitFrames_of_full (by simp [syncBytes]) (by rwa [length_syncBytes]), andThen_fault]
  · have hlen : (s.cb.load 0 cbLen).length = 192 := length_load ..
    rw [exec_uHdr, emitFrames_of_full (List.ne_nil_of_length_pos (by omega)) (by rwa [hlen]), andThen_fault]
  · rw [exec_uData himg, emitFrames_of_full (dataBlock_ne_nil _)
      (by rwa [length_dataBlock, length_stagedProgram]), andThen_fault]

/-! ### The two programs, one micro-operation a step -/

/-- The first fetch of FILEPROG and of EOTPROG (R22, R145, R160). -/
theorem enterProg_fileEntry (s : State) : s.enterProg fileEntry = { s with upc := 0, uw := some 0x100000 } := rfl

theorem enterProg_eotEntry (s : State) : s.enterProg eotEntry = { s with upc := 21, uw := some 0x300080 } := rfl

/-- Settles O30. 21 turns of the sequencer are 21 steps, and the region they append is ENCODE_FILE's. -/
theorem fileProgIsEncodeFile : Obligations.FileProgIsEncodeFile := by
  intro s dispName hwf hev hlong himg hroom hcb
  have hcycles := cycles_fileProg s hwf himg hroom
  have hlen : s.imgLen - 2 = s.stagedRaw.length - 2 := by rw [length_stagedRaw]
  obtain ⟨hread1, hread2, hend⟩ := addresses_of_load hcb
  rw [getD_stagedRaw (by omega)] at hread1 hend
  rw [getD_stagedRaw (by omega)] at hread2 hend
  have hregion : encodeFile dispName s.stagedRaw = some (fileRegion (s.cb.load 0 cbLen) s.stagedProgram) := by
    rw [encodeFile_of_le _ _ (by rwa [length_stagedRaw]), fileHeader_eq, ← hlen, ← hcb, programOf_stagedRaw]
    rfl
  generalize fileRegion (s.cb.load 0 cbLen) s.stagedProgram = region at hcycles hregion
  rw [enterProg_fileEntry] at hcycles
  exact ⟨_, region, run_of_cycles hcycles hev, hregion, payload_append region rfl rfl, rfl, rfl, rfl, rfl, rfl, rfl,
    rfl, rfl, rfl, hread1, hread2, hend⟩

/-- Settles O31. 11 turns of the sequencer are 11 steps, and the region they append is ENCODE_EOT's. -/
theorem eotProgIsEncodeEot : Obligations.EotProgIsEncodeEot := by
  intro s hwf hev hroom hcb
  have hcycles := cycles_eotProg s hwf hroom
  have hheader : s.cb.load 0 cbLen = eotHeader := hcb.trans eotHeader_eq.symm
  rw [enterProg_eotEntry, hheader, ← encodeEot] at hcycles
  generalize encodeEot = region at hcycles
  exact ⟨_, run_of_cycles hcycles hev, payload_append region rfl rfl, rfl, rfl, rfl, rfl, rfl, rfl, rfl, rfl, rfl⟩

end Sys2Proof.Machine

/-! The contract of the block (R205): a session of files and FINISH leaves the container of ENCODE_TAPE. -/

namespace Sys2Proof.Machine

open Sys2Proof

/-- A file that is not malformed and whose name was cut short: ENCFILE warns of it (R26, R197). -/
abbrev LabelCut (f : List Byte × List Byte) : Prop := 2 ≤ f.2.length ∧ 16 < (stem f.1).length

/-- The block between two files of a session begun at s: it is open for the next, and PAY holds the regions of the
files so far. -/
structure Between (s t : State) (files : List (List Byte × List Byte)) : Prop where
  isOpen : t.mode = .isOpen
  clear : t.stagingClear
  wf : t.pay.wf
  payload : t.payload = encodeFiles files
  cfg : t.cfg = s.cfg
  host : t.host = s.host
  errSeen : t.errSeen = true ↔ s.errSeen = true ∨ ∃ f ∈ files, f.2.length < 2
  wLabel : t.wLabel = true ↔ s.wLabel = true ∨ ∃ f ∈ files, LabelCut f

theorem Between.payLen {s t : State} {files : List (List Byte × List Byte)} (h : Between s t files) :
    t.payLen = (encodeFiles files).length := by
  rw [← h.payload, length_payload]

/-- A session begins with no file (R205). -/
theorem Between.start {s : State} (hopen : s.mode = .isOpen) (hclear : s.stagingClear) (hwf : s.pay.wf)
    (hempty : s.payLen = 0) : Between s s [] where
  isOpen := hopen
  clear := hclear
  wf := hwf
  payload := List.length_eq_zero_iff.mp (by rw [length_payload, hempty])
  cfg := rfl
  host := rfl
  errSeen := by simp
  wLabel := by simp

/-- A flag that a list sets, and one element more. -/
theorem or_exists_mem_concat {α : Type} {a : Prop} {p : α → Prop} {l : List α} {x : α} :
    (a ∨ ∃ y ∈ l ++ [x], p y) ↔ (a ∨ ∃ y ∈ l, p y) ∨ p x := by
  simp only [List.mem_append, List.mem_singleton, or_and_right, exists_or, exists_eq_left, or_assoc]

/-- What delivering commands leave alone (R192, R194). -/
theorem Delivered.kept {s t : State} (h : Delivered s t) :
    t.pay = s.pay ∧ t.payLen = s.payLen ∧ t.cfg = s.cfg ∧ t.host = s.host ∧ t.wLabel = s.wLabel := by
  rw [h.frame]
  exact ⟨rfl, rfl, rfl, rfl, rfl⟩

/-- Staging that has received these bytes has them all where they fit (R194). -/
theorem Received.stagedRaw {s : State} {codes raw : List Byte} (h : Received s codes raw)
    (hfit : raw.length ≤ s.cfg.imgMax) : s.imgOvf = false ∧ s.stagedRaw = raw ∧ s.imgLen = raw.length := by
  refine ⟨by simpa [h.imgOvf] using hfit, by rw [h.image, List.take_of_length_le hfit], ?_⟩
  rw [h.imgLen, Nat.min_eq_right hfit]

section

variable {s t u : State} {files : List (List Byte × List Byte)} {codes raw : List Byte}

/-- ENCFILE of a file of fewer than two raw bytes: it contributes nothing, and the error is recorded (R222, R226). -/
theorem Between.encfile_malformed (h : Between s t files) (hd : Delivered t u) (hrec : Received u codes raw)
    (hfit : raw.length ≤ u.cfg.imgMax) (hshort : raw.length < 2) :
    ∃ v, exec .encfile u = .next v ∧ Between s v (files ++ [(codes, raw)]) := by
  obtain ⟨hovf, -, himg⟩ := hrec.stagedRaw hfit
  obtain ⟨hpay, hlen, hcfg, hhost, hlabel⟩ := hd.kept
  obtain ⟨-, hmalformed, -⟩ := encodingErrors u hrec.isOpen
  have hcut : ¬ LabelCut (codes, raw) := fun hc => Nat.not_lt.mpr hc.1 hshort
  exact ⟨_, hmalformed hovf (himg ▸ hshort), {
    isOpen := hrec.isOpen
    clear := ⟨rfl, rfl, rfl, rfl, rfl⟩
    wf := hpay ▸ h.wf
    payload := by
      rw [encodeFiles_concat, encodeFile_of_lt _ _ hshort, Option.getD_none, List.append_nil, ← h.payload]
      simp only [State.payload, hpay, hlen]
    cfg := hcfg.trans h.cfg
    host := hhost.trans h.host
    errSeen := by
      rw [or_exists_mem_concat]
      exact iff_of_true rfl (.inr hshort)
    wLabel := by
      rw [or_exists_mem_concat, ← h.wLabel, ← hlabel]
      simp [hcut] }⟩

/-- ENCFILE of a file that fits: its region comes last, and a name cut short is recorded (R197). -/
theorem Between.encfile_encoded (h : Between s t files) (hd : Delivered t u) (hrec : Received u codes raw)
    (hfit : raw.length ≤ u.cfg.imgMax) (hlong : 2 ≤ raw.length)
    (hroom : (encodeFiles (files ++ [(codes, raw)])).length ≤ u.cfg.payMax) :
    ∃ v, exec .encfile u = .next v ∧ Between s v (files ++ [(codes, raw)]) := by
  obtain ⟨hovf, hraw, himg⟩ := hrec.stagedRaw hfit
  obtain ⟨hpay, hlen, hcfg, hhost, hlabel⟩ := hd.kept
  have hname : u.nameLen ≤ 16 := hrec.nameLen ▸ Nat.min_le_left _ _
  have hregion := encodeFile_stagedRaw (himg ▸ hlong) hrec.name
  rw [hraw] at hregion
  have hroom' : u.payLen + fileRegionLen (u.imgLen - 2) ≤ u.cfg.payMax := by
    rwa [encodeFiles_concat, hregion, Option.getD_some, List.length_append, length_stagedRegion, ← h.payLen, ← hlen]
      at hroom
  have hpayload : u.payload = t.payload := by simp only [State.payload, hpay, hlen]
  refine ⟨_, exec_encfile_of_room hrec.isOpen hovf (hpay ▸ h.wf) hname (himg ▸ hlong) (himg ▸ hfit) hroom', ?_⟩
  have hgrown := payload_fileDone u
  rw [fileDone_fileEncoded] at hgrown ⊢
  exact {
    isOpen := hrec.isOpen
    clear := ⟨rfl, rfl, rfl, rfl, rfl⟩
    wf := store_wf _ _ _ (hpay ▸ h.wf)
    payload := by rw [hgrown, hpayload, h.payload, encodeFiles_concat, hregion, Option.getD_some]
    cfg := hcfg.trans h.cfg
    host := hhost.trans h.host
    errSeen := by
      rw [or_exists_mem_concat, ← h.errSeen, ← hd.errSeen hovf]
      simp [Nat.not_lt.mpr hlong]
    wLabel := by
      rw [or_exists_mem_concat, ← h.wLabel, ← hlabel]
      simp [hrec.nover, LabelCut, hlong] }

end

/-- One file of a session: its NAME and DATA commands in any order, then ENCFILE (R197, R253). -/
theorem Between.file {s t : State} {files : List (List Byte × List Byte)} (h : Between s t files) {cmds : List Instr}
    (hdelivers : ∀ i ∈ cmds, delivers i = true) (hfit : (rawBytes cmds).length ≤ s.cfg.imgMax)
    (hroom : (encodeFiles (files ++ [(nameCodes cmds, rawBytes cmds)])).length ≤ s.cfg.payMax) :
    ∃ v, runCommands (cmds ++ [.encfile]) t = .next v ∧
      Between s v (files ++ [(nameCodes cmds, rawBytes cmds)]) := by
  obtain ⟨u, hrun, hrec, hd⟩ := runCommands_delivers cmds (.of_clear h.isOpen h.clear) hdelivers
  rw [List.nil_append, List.nil_append] at hrec
  obtain ⟨-, -, hcfg, -, -⟩ := hd.kept
  rw [← h.cfg, ← hcfg] at hfit hroom
  obtain ⟨v, hv, hbetween⟩ : ∃ v, exec .encfile u = .next v ∧
      Between s v (files ++ [(nameCodes cmds, rawBytes cmds)]) := by
    rcases Nat.lt_or_ge (rawBytes cmds).length 2 with hshort | hlong
    · exact h.encfile_malformed hd hrec hfit hshort
    · exact h.encfile_encoded hd hrec hfit hlong hroom
  exact ⟨v, by rw [runCommands_append hrun, runCommands_cons [] hv, runCommands_nil], hbetween⟩

/-- The file a command list delivers. -/
abbrev fileOf (cmds : List Instr) : List Byte × List Byte := (nameCodes cmds, rawBytes cmds)

/-- The files of a session, one after another (R205). -/
theorem Between.session {s t : State} {files : List (List Byte × List Byte)} (h : Between s t files)
    (session : List (List Instr)) (hdelivers : ∀ cmds ∈ session, ∀ i ∈ cmds, delivers i = true)
    (hfit : ∀ f ∈ session.map fileOf, f.2.length ≤ s.cfg.imgMax)
    (hroom : (encodeFiles (files ++ session.map fileOf)).length ≤ s.cfg.payMax) :
    ∃ v, runCommands (session.flatMap (fun cmds => cmds ++ [.encfile])) t = .next v ∧
      Between s v (files ++ session.map fileOf) := by
  induction session generalizing t files with
  | nil => exact ⟨t, rfl, by simpa using h⟩
  | cons cmds rest ih =>
    obtain ⟨hdelivers, hdelivers'⟩ := List.forall_mem_cons.mp hdelivers
    obtain ⟨hfit, hfit'⟩ := List.forall_mem_cons.mp hfit
    rw [List.map_cons, List.append_cons] at hroom ⊢
    have hfirst : (encodeFiles (files ++ [fileOf cmds])).length ≤ s.cfg.payMax := by
      rw [encodeFiles, List.flatMap_append, List.length_append] at hroom
      exact Nat.le_trans (Nat.le_add_right _ _) hroom
    obtain ⟨u, hu, hbetween⟩ := h.file hdelivers hfit hfirst
    obtain ⟨v, hv, hend⟩ := ih hbetween hdelivers' hfit' hroom
    exact ⟨v, by rw [List.flatMap_cons, runCommands_append hu, hv], hend⟩

/-- Settles O60. File by file the block is between two files of the session; FINISH then seals it. -/
theorem sessionMakesTheContainer : Obligations.SessionMakesTheContainer := by
  intro s session files hopen hclear hwf hempty hdelivers hfit hroom
  have hlen : (encodeFiles files).length + eotRegionLen ≤ s.cfg.payMax := by
    rwa [encodeTape, List.length_append, length_encodeEot] at hroom
  obtain ⟨u, hrun, hend⟩ := (Between.start hopen hclear hwf hempty).session session hdelivers hfit
    (Nat.le_trans (Nat.le_add_right _ _) hlen)
  rw [List.nil_append] at hend
  have hfinish := exec_finish_of_room hend.isOpen hend.wf (by rw [hend.payLen, hend.cfg]; exact hlen)
  have hpayload := payload_tapeDone u
  rw [tapeDone_tapeEncoded] at hfinish hpayload
  rw [hend.payload] at hfinish hpayload
  refine ⟨_, by rw [runCommands_append hrun, runCommands_cons [] hfinish, runCommands_nil], rfl, hpayload, rfl, rfl,
    hend.host, hend.cfg, hend.errSeen, hend.wLabel⟩

end Sys2Proof.Machine
